-- ==== Sys2Proof/Word.lean ====
section
/-! DEFINITION. The words of RSA-CORE: the 32-bit command and bus word, the register numbers and the 14-bit immediate. -/

namespace Sys2Proof

/-- A command word or one host-bus data word: 32 bits (R46, R61). -/
abbrev Word := BitVec 32

/-- The number of an operand register, x0 to x15 (R21, R64). -/
abbrev Reg := Fin 16

/-- The unsigned immediate field IMM14 (R62, R65). -/
abbrev Imm14 := BitVec 14

end Sys2Proof
end

