-- ==== Sys2Proof/Syntax.lean ====
section
/-! DEFINITION. The command set: one constructor per row of spec/opcode_table.json, operands in the assembler's order
of R73, and the pseudo-instructions of R74. -/

namespace Sys2Proof

/-- The 31 commands of R67. `d` is the destination field D, `a` the first source A, `b` the second source B and
`imm` IMM14 (R62). Registers and immediates carry their ranges in their types. -/
inductive Instr where
  -- construction, copy and comparison (R77 to R81)
  | ldi (d : Reg) (imm : Imm14)
  | lds (d : Reg)
  | mov (d a : Reg)
  | cmp (a b : Reg)
  | cmps (a : Reg)
  -- addition and subtraction (R82 to R85)
  | add (d a b : Reg)
  | sub (d a b : Reg)
  | adds (d a : Reg)
  | subs (d a : Reg)
  -- multiplication, shifts and bit access (R86 to R93)
  | mul (d a b : Reg)
  | muls (d a : Reg)
  | shr (d a : Reg) (imm : Imm14)
  | shll (d a : Reg) (imm : Imm14)
  | shrl (d a : Reg) (imm : Imm14)
  | btst (a : Reg) (imm : Imm14)
  | bset (d a : Reg) (imm : Imm14)
  | msb (d a : Reg)
  -- division (R97 to R101)
  | div (d a b : Reg)
  | mod (d a b : Reg)
  /-- `q` is the quotient destination (field D) and `r` the remainder destination (field C). -/
  | divrem (q r a b : Reg)
  | divs (d a : Reg)
  | mods (d a : Reg)
  -- Montgomery (R104 to R108)
  | msetup (a : Reg)
  | mtom (d a : Reg)
  | mmul (d a b : Reg)
  | mred (d a : Reg)
  /-- base in `a`, exponent in `b`, modulus in `c` (field C). -/
  | mexp (d a b c : Reg)
  -- primality (R113 to R115)
  | sieve (a : Reg)
  /-- candidate in `a`, witness in `b`. -/
  | mrround (a b : Reg)
  | isprime (a : Reg)
  -- prime search (R116); `imm` is the hex digit count h
  | psearch (d : Reg) (imm : Imm14)
  deriving DecidableEq, Repr

/-- `CLR xD` (R74). -/
abbrev Instr.clr (d : Reg) : Instr := .ldi d 0
/-- `ONE xD` (R74). -/
abbrev Instr.one (d : Reg) : Instr := .ldi d 1
/-- `ODD xD, xA` (R74). -/
abbrev Instr.odd (d a : Reg) : Instr := .bset d a 0
/-- `SQR xD, xA` (R74). -/
abbrev Instr.sqr (d a : Reg) : Instr := .mul d a a
/-- `MSQR xD, xA` (R74). -/
abbrev Instr.msqr (d a : Reg) : Instr := .mmul d a a
/-- `DIVMOD xQ, xR, xA, xB` (R74). -/
abbrev Instr.divmod (q r a b : Reg) : Instr := .divrem q r a b

end Sys2Proof
end

