-- ==== Sys2Proof/WellFormed.lean ====
section
/-! DEFINITION. Which commands are well formed: the one operand combination R64 forbids. -/

namespace Sys2Proof

/-- A command a word can encode. Register and immediate ranges hold by type, so the only check left is DIVREM's:
the two destinations differ (R64, R70). -/
def Instr.WellFormed (i : Instr) : Bool :=
  match i with
  | .divrem q r _ _ => q ≠ r
  | .ldi _ _ | .lds _ | .mov _ _ | .cmp _ _ | .cmps _ => true
  | .add _ _ _ | .sub _ _ _ | .adds _ _ | .subs _ _ => true
  | .mul _ _ _ | .muls _ _ | .shr _ _ _ | .shll _ _ _ | .shrl _ _ _ => true
  | .btst _ _ | .bset _ _ _ | .msb _ _ => true
  | .div _ _ _ | .mod _ _ _ | .divs _ _ | .mods _ _ => true
  | .msetup _ | .mtom _ _ | .mmul _ _ _ | .mred _ _ | .mexp _ _ _ _ => true
  | .sieve _ | .mrround _ _ | .isprime _ | .psearch _ _ => true

end Sys2Proof
end

