-- ==== Sys2Proof/Decode.lean ====
section
/-! DEFINITION. The decoder of R72 over the table of R63 and R67, and the encoder of R73. -/

namespace Sys2Proof

/-- `v[hi:lo]` of a word, as an unsigned number (R8). -/
def bits (c : Word) (hi lo : Nat) : Nat := c.toNat / 2 ^ lo % 2 ^ (hi - lo + 1)

/-- A four-bit register field whose lowest bit is `lo` (R62, R64). -/
def regField (c : Word) (lo : Nat) : Reg := Fin.ofNat 16 (bits c (lo + 3) lo)

/-- OP = c[31:26] (R62). -/
def opField (c : Word) : Nat := bits c 31 26
/-- D = c[25:22] (R62). -/
def dField (c : Word) : Reg := regField c 22
/-- A = c[21:18] (R62). -/
def aField (c : Word) : Reg := regField c 18
/-- Bf = c[17:14] (R62). -/
def bField (c : Word) : Reg := regField c 14
/-- C = c[13:10] (R62). -/
def cField (c : Word) : Reg := regField c 10
/-- IMM14 = c[13:0], zero-extended (R62, R65). -/
def immField (c : Word) : Imm14 := BitVec.ofNat 14 (bits c 13 0)

/-- Why a word is an illegal command (R68 to R70). -/
inductive DecodeError where
  | reservedOpcode
  | reservedField
  | destConflict
  deriving DecidableEq, Repr

/-- One row of the opcode map: the opcode, the bits a decoder compares (R63), and how the fields make the command. -/
structure Row where
  op : Nat
  mask : Word
  build : Word → Instr

/-- `match = OP << 26` (R69). -/
def Row.matchWord (r : Row) : Word := BitVec.ofNat 32 (r.op * 2 ^ 26)

/-- Masks of the formats (R63). -/
def maskR3 : Word := 0xFC003FFF
def maskR2 : Word := 0xFC03FFFF
def maskR1D : Word := 0xFC3FFFFF
def maskC2 : Word := 0xFFC03FFF
def maskC1 : Word := 0xFFC3FFFF
def maskI1 : Word := 0xFC3FC000
def maskI2 : Word := 0xFC03C000
def maskIC : Word := 0xFFC3C000
def maskR4 : Word := 0xFC0003FF

/-- The opcode map (R67), each command in its format (R63). -/
def opcodeTable : List Row :=
  [ ⟨0x01, maskI1, fun c => .ldi (dField c) (immField c)⟩,
    ⟨0x02, maskR1D, fun c => .lds (dField c)⟩,
    ⟨0x03, maskR2, fun c => .mov (dField c) (aField c)⟩,
    ⟨0x04, maskC2, fun c => .cmp (aField c) (bField c)⟩,
    ⟨0x05, maskC1, fun c => .cmps (aField c)⟩,
    ⟨0x08, maskR3, fun c => .add (dField c) (aField c) (bField c)⟩,
    ⟨0x09, maskR3, fun c => .sub (dField c) (aField c) (bField c)⟩,
    ⟨0x0A, maskR2, fun c => .adds (dField c) (aField c)⟩,
    ⟨0x0B, maskR2, fun c => .subs (dField c) (aField c)⟩,
    ⟨0x0C, maskR3, fun c => .mul (dField c) (aField c) (bField c)⟩,
    ⟨0x0D, maskR2, fun c => .muls (dField c) (aField c)⟩,
    ⟨0x10, maskI2, fun c => .shr (dField c) (aField c) (immField c)⟩,
    ⟨0x11, maskI2, fun c => .shll (dField c) (aField c) (immField c)⟩,
    ⟨0x12, maskI2, fun c => .shrl (dField c) (aField c) (immField c)⟩,
    ⟨0x13, maskIC, fun c => .btst (aField c) (immField c)⟩,
    ⟨0x14, maskI2, fun c => .bset (dField c) (aField c) (immField c)⟩,
    ⟨0x15, maskR2, fun c => .msb (dField c) (aField c)⟩,
    ⟨0x18, maskR3, fun c => .div (dField c) (aField c) (bField c)⟩,
    ⟨0x19, maskR3, fun c => .mod (dField c) (aField c) (bField c)⟩,
    ⟨0x1A, maskR4, fun c => .divrem (dField c) (cField c) (aField c) (bField c)⟩,
    ⟨0x1B, maskR2, fun c => .divs (dField c) (aField c)⟩,
    ⟨0x1C, maskR2, fun c => .mods (dField c) (aField c)⟩,
    ⟨0x20, maskC1, fun c => .msetup (aField c)⟩,
    ⟨0x21, maskR2, fun c => .mtom (dField c) (aField c)⟩,
    ⟨0x22, maskR3, fun c => .mmul (dField c) (aField c) (bField c)⟩,
    ⟨0x23, maskR2, fun c => .mred (dField c) (aField c)⟩,
    ⟨0x24, maskR4, fun c => .mexp (dField c) (aField c) (bField c) (cField c)⟩,
    ⟨0x28, maskC1, fun c => .sieve (aField c)⟩,
    ⟨0x29, maskC2, fun c => .mrround (aField c) (bField c)⟩,
    ⟨0x2A, maskC1, fun c => .isprime (aField c)⟩,
    ⟨0x30, maskI1, fun c => .psearch (dField c) (immField c)⟩ ]

/-- The row an opcode names, if it is assigned (R67). -/
def rowOf (op : Nat) : Option Row := opcodeTable.find? (fun r => r.op == op)

/-- The decode procedure of R72, total on every 32-bit word: reserved opcode first, then the must-be-zero bits, then
DIVREM's destinations (R128). -/
def decode (c : Word) : Except DecodeError Instr :=
  match rowOf (opField c) with
  | none => .error .reservedOpcode
  | some row =>
    if c &&& row.mask = row.matchWord then
      if (row.build c).WellFormed then .ok (row.build c) else .error .destConflict
    else .error .reservedField

/-- The word of an opcode and its fields (R73); absent fields are 0, and C and IMM14 share their bits, so no command
gives both. -/
def assemble (op d a b c imm : Nat) : Word :=
  BitVec.ofNat 32 (op * 2 ^ 26 + d * 2 ^ 22 + a * 2 ^ 18 + b * 2 ^ 14 + c * 2 ^ 10 + imm)

/-- The command word of a command (R67, R73). -/
def encode (i : Instr) : Word :=
  match i with
  | .ldi d imm => assemble 0x01 d 0 0 0 imm.toNat
  | .lds d => assemble 0x02 d 0 0 0 0
  | .mov d a => assemble 0x03 d a 0 0 0
  | .cmp a b => assemble 0x04 0 a b 0 0
  | .cmps a => assemble 0x05 0 a 0 0 0
  | .add d a b => assemble 0x08 d a b 0 0
  | .sub d a b => assemble 0x09 d a b 0 0
  | .adds d a => assemble 0x0A d a 0 0 0
  | .subs d a => assemble 0x0B d a 0 0 0
  | .mul d a b => assemble 0x0C d a b 0 0
  | .muls d a => assemble 0x0D d a 0 0 0
  | .shr d a imm => assemble 0x10 d a 0 0 imm.toNat
  | .shll d a imm => assemble 0x11 d a 0 0 imm.toNat
  | .shrl d a imm => assemble 0x12 d a 0 0 imm.toNat
  | .btst a imm => assemble 0x13 0 a 0 0 imm.toNat
  | .bset d a imm => assemble 0x14 d a 0 0 imm.toNat
  | .msb d a => assemble 0x15 d a 0 0 0
  | .div d a b => assemble 0x18 d a b 0 0
  | .mod d a b => assemble 0x19 d a b 0 0
  | .divrem q r a b => assemble 0x1A q a b r 0
  | .divs d a => assemble 0x1B d a 0 0 0
  | .mods d a => assemble 0x1C d a 0 0 0
  | .msetup a => assemble 0x20 0 a 0 0 0
  | .mtom d a => assemble 0x21 d a 0 0 0
  | .mmul d a b => assemble 0x22 d a b 0 0
  | .mred d a => assemble 0x23 d a 0 0 0
  | .mexp d a b c => assemble 0x24 d a b c 0
  | .sieve a => assemble 0x28 0 a 0 0 0
  | .mrround a b => assemble 0x29 0 a b 0 0
  | .isprime a => assemble 0x2A 0 a 0 0 0
  | .psearch d imm => assemble 0x30 d 0 0 0 imm.toNat

/-- The command in the low `nbits` bits of `w`; bits above `nbits` are 0. Every command is one 32-bit word (R61). -/
def decodeTableWord (nbits w : Nat) : Option Instr :=
  if nbits ≤ 32 then
    match decode (BitVec.ofNat 32 (w % 2 ^ nbits)) with
    | .ok i => some i
    | .error _ => none
  else none

end Sys2Proof
end

