-- ==== Sys2Proof/Config.lean ====
section
/-! DEFINITION. What an implementation fixes: the parameters of R6 with their constraints, the fixed constants,
and the one free value of the model. -/

namespace Sys2Proof

/-- The parameters of R6. They are fixed for a machine: State carries them as plain data so that every statement
holds for every parameter choice, and no step changes them (log entry 2). -/
structure Params where
  /-- limb width in bits, 32 or 64 -/
  W : Nat
  /-- limbs per operand register -/
  CAP : Nat
  /-- prime-search workers -/
  NWORK : Nat
  /-- primes in the sieve table -/
  NSIEVE : Nat
  /-- base address of the block on the host bus; the platform's choice (R6: OPEN) -/
  BASE : Nat
  /-- the Karatsuba threshold in limbs, none for schoolbook multiplication only; no result, flag or error depends on it
  (R6, R7, K3; `exec_withStrategy`) -/
  KTHRESH : Option Nat
  deriving DecidableEq, Repr

/-- The constraint column of R6. BASE and KTHRESH have no constraint there. -/
abbrev Params.Valid (p : Params) : Prop :=
  (p.W = 32 ∨ p.W = 64) ∧ (1 ≤ p.CAP ∧ p.CAP ≤ 255) ∧ p.CAP * p.W ≤ 32768 ∧
    (1 ≤ p.NWORK ∧ p.NWORK ≤ 63) ∧ (3512 ≤ p.NSIEVE ∧ p.NSIEVE ≤ 9592)

/-- The default column of R6: the reference configuration. BASE has no default there; 0 is log entry 2's choice. -/
def Params.reference : Params := { W := 32, CAP := 64, NWORK := 4, NSIEVE := 8192, BASE := 0, KTHRESH := none }

/-- The default column of R6 where W is 64: CAP is then 32, so a register has 2048 bits as well. -/
def Params.reference64 : Params := { Params.reference with W := 64, CAP := 32 }

/-- Least witness of the SOURCE range (R6, R111). -/
def Config.WLO : Nat := 2

/-- Greatest witness of the SOURCE range (R6, R111). -/
def Config.WHI : Nat := 32769

/-- Host byte-address width: offsets run from 0 to 2^17 - 1 (R6, R45). -/
def Config.ADDRW : Nat := 17

/-- Number of operand registers (R6, R21). -/
def Config.NREG : Nat := 16

/-- The identity word of the ID register (R27). -/
def Config.IDENT : Word := 0x52534131

/-- THE FREE VALUE. Nothing constrains it: it stands for every value the spec leaves unspecified (R23, R39, R42) and,
past the answers State holds, for the entropy source's draws (R10), for reads while BUSY (R51) and for the
interleaving of the agents (R20). It is applied to State's counter, so each use is a fresh value. -/
opaque Config.free : Nat → Nat

end Sys2Proof
end

