-- ==== Sys2Proof/Machine/Numbers.lean ====
section
/-! DEFINITION. The helper functions on naturals of R9 and the numbers that follow from the parameters of R6. -/

namespace Sys2Proof

/-- The radix `B = 2^W` (R6). -/
def Params.B (p : Params) : Nat := 2 ^ p.W

/-- `B^CAP`: every operand register holds a natural below it (R21). -/
def Params.capacity (p : Params) : Nat := p.B ^ p.CAP

/-- The number of words of an operand window, `CAP·W/32` (R38). -/
def Params.windowWords (p : Params) : Nat := p.CAP * p.W / 32

/-- `HMAX = ⌊(CAP·W − 1)/4⌋`, the greatest legal hex digit count (R116). -/
def Params.HMAX (p : Params) : Nat := (p.CAP * p.W - 1) / 4

/-- `limb(x, i)`: limb i of x, limb 0 least significant (R9). -/
def limb (p : Params) (x i : Nat) : Nat := x / p.B ^ i % p.B

/-- `len(x)`: 0 for 0, otherwise the least L with `x < B^L` (R9). -/
def len (p : Params) (x : Nat) : Nat := if x = 0 then 0 else Nat.log2 x / p.W + 1

/-- `bit(x, i)` (R9). -/
def bit (x i : Nat) : Nat := x / 2 ^ i % 2

/-- `msb(x)`: the one-based index of the top set bit, by the formula of R9; `msb(0) = 0`. -/
def msb (p : Params) (x : Nat) : Nat :=
  if x = 0 then 0 else (len p x - 1) * p.W + Nat.log2 (limb p x (len p x - 1)) + 1

/-- Counts trailing zero bits, looking at no more than `fuel` bits. -/
def tzFuel : Nat → Nat → Nat
  | 0, _ => 0
  | fuel + 1, x => if x % 2 = 1 then 0 else tzFuel fuel (x / 2) + 1

/-- `tz(x)` for x > 0: the number of trailing zero bits (R9). -/
def tz (x : Nat) : Nat := tzFuel (Nat.log2 x) x

/-- `ITER(b)`: the number of Miller–Rabin rounds for a b-bit candidate (R9). -/
def iterCount (b : Nat) : Nat :=
  if b < 100 then 50
  else if b < 256 then 27
  else if b < 512 then 15
  else if b < 768 then 8
  else if b < 1024 then 4
  else 2

/-- Word k of a value: its bits 32k to 32k+31 (R38). -/
def wordOf (x k : Nat) : Nat := x / 2 ^ (32 * k) % 2 ^ 32

/-- The value with word k replaced by u, the other bits kept: `x − x[32k+31:32k]·2^(32k) + u·2^(32k)` (R50). -/
def replaceWord (x k u : Nat) : Nat := x - wordOf x k * 2 ^ (32 * k) + u * 2 ^ (32 * k)

/-- The value a list of 32-bit words stands for, least significant word first (R38, R47). -/
def wordsValue : List Word → Nat
  | [] => 0
  | w :: ws => w.toNat + 2 ^ 32 * wordsValue ws

/-- The `n` low words of a value, least significant first (R38, R47). -/
def wordsOf : Nat → Nat → List Word
  | 0, _ => []
  | n + 1, v => BitVec.ofNat 32 v :: wordsOf n (v / 2 ^ 32)

end Sys2Proof
end

