-- ==== Sys2Proof/Machine/State.lean ====
section
/-! DEFINITION. The state of RSA-CORE as plain data (R44), the reasons a step can stop, and the state after reset (R142). -/

namespace Sys2Proof.Machine

/-- Why a step faults. -/
inductive Fault where
  /-- Raised by a host access that is not 32 bits wide or whose offset is no multiple of 4: the block answers with a
  bus error, changes nothing and returns no data (R46; K31 asks for a fault of the host step). Safe: the machine stops
  where the hardware goes on. No command raises it. -/
  | busError
  deriving DecidableEq, Repr

/-- Why a step is refused. -/
inductive Refusal where
  /-- A command that has no meaning yet, by its mnemonic. Safe. No arm of exec answers it. -/
  | notModelled (mnemonic : String)
  /-- Raised by a host access outside the block's 2^17 offsets from BASE: what it does there is the platform's
  decision, not the block's (R46, K32). Safe. No command raises it. -/
  | outsideBlock
  deriving DecidableEq, Repr

/-- The engine phase (R41); STATUS.BUSY is `phase ≠ idle`. -/
inductive Phase where
  | idle
  | exec
  | search
  deriving DecidableEq, Repr

/-- The phase of a prime-search worker (R42). -/
inductive WorkerPhase where
  | idle
  | init
  | head
  | test
  | exited
  deriving DecidableEq, Repr

/-- One worker of the prime search: `phase[w]` and `cand[w]` (R42). -/
structure Worker where
  phase : WorkerPhase
  cand : Nat
  deriving DecidableEq, Repr

/-- The STATUS bits that are stored and not flags (R30). BUSY is the engine phase (R41). -/
structure Status where
  done : Bool
  err : Bool
  ovr : Bool
  werr : Bool
  deriving DecidableEq, Repr

/-- The five flags of STATUS (R25). -/
structure Flags where
  lt : Bool
  eq : Bool
  gt : Bool
  t : Bool
  p : Bool
  deriving DecidableEq, Repr

/-- ERRCODE's two fields (R31) and ERRCMD (R32). -/
structure ErrorRegs where
  cls : BitVec 8
  detail : BitVec 8
  cmd : Word
  deriving DecidableEq, Repr

/-- CTRL's stored bits (R34); SRST is write-only and holds nothing. -/
structure Ctrl where
  ieDone : Bool
  ieErr : Bool
  wmode : Bool
  deriving DecidableEq, Repr

/-- The engine: its phase (R41) and the latches CURCMD and CURWMODE (R24). -/
structure Engine where
  phase : Phase
  curCmd : Word
  curWmode : Bool
  deriving DecidableEq, Repr

/-- The Montgomery context MCTX (R39). -/
structure MontCtx where
  valid : Bool
  m : Nat
  k : Nat
  R : Nat
  minv : Nat
  deriving DecidableEq, Repr

/-- The prime-search state (R42). `workers` lists worker 0 to NWORK-1. -/
structure Search where
  found : Bool
  value : Nat
  cancel : Bool
  workers : List Worker
  deriving DecidableEq, Repr

/-- Who takes a step (R20). -/
inductive Agent where
  | host
  | engine
  | worker (w : Nat)
  deriving DecidableEq, Repr

/-- What the outside world does to the block, one per host step (R20, R75, R141). Addresses are byte addresses on the
host bus; `width` is in bytes. -/
inductive HostOp where
  /-- MemRead(addr, width) -/
  | read (width addr : Nat)
  /-- MemWrite(addr, width, value) -/
  | write (width addr : Nat) (value : Word)
  /-- WAIT of R75: read STATUS until BUSY reads 0 -/
  | wait
  /-- the platform's reset input `rst` (R141) -/
  | rst
  deriving DecidableEq, Repr

/-- The host side, the model's own: the accesses the host has still to make, oldest first, and the words its reads
have returned, newest first (log entry 7). -/
structure HostSide where
  pending : List HostOp
  replies : List Word
  deriving DecidableEq, Repr

/-- The free inputs of the steps, the model's own (R43): the entropy source's next answers, the agents that move
next, and the counter the free value `Config.free` is applied to once those are used up (log entries 3 and 4). -/
structure Env where
  entropy : List Nat
  turns : List Agent
  freeCount : Nat
  deriving DecidableEq, Repr

/-- The whole state (R44). VLEN, ID, CFG, SIEVECFG, BUSY and irq are computed from it and not stored. -/
structure State where
  /-- the parameters of R6, constant (log entry 2) -/
  params : Params
  /-- operand registers x0 to x15 (R21), each as the CAP·W/32 words of its window, least significant first (R38);
  `State.reg` is the natural number it holds -/
  x : Vector (List Word) 16
  /-- which registers have been written since the last hardware reset (R23) -/
  written : Vector Bool 16
  /-- SCALAR, below B (R26) -/
  scalar : Nat
  status : Status
  flags : Flags
  error : ErrorRegs
  ctrl : Ctrl
  /-- WERRCNT (R35) -/
  werrCnt : Word
  engine : Engine
  mctx : MontCtx
  search : Search
  host : HostSide
  env : Env
  deriving DecidableEq, Repr

/-- One operand register after a hardware reset: an unspecified value in [0, B^CAP) (R23, R142), each word of it a
free value of its own, from `n` on. -/
def resetOperand (p : Params) (n : Nat) : List Word :=
  (List.range p.windowWords).map (fun k => BitVec.ofNat 32 (Config.free (n + k)))

/-- How many free values the operand registers take at a hardware reset. -/
def operandWords (p : Params) : Nat := 16 * p.windowWords

/-- The operand registers after a hardware reset (R23, R142): register v takes the free values from
`n + v·CAP·W/32` on. -/
def resetOperands (p : Params) (n : Nat) : Vector (List Word) 16 :=
  let v := fun i => resetOperand p (n + i * p.windowWords)
  #v[v 0, v 1, v 2, v 3, v 4, v 5, v 6, v 7, v 8, v 9, v 10, v 11, v 12, v 13, v 14, v 15]

/-- MCTX after a reset: not valid, its other fields unspecified (R142), the free values `n` to `n + 3`. -/
def resetMctx (n : Nat) : MontCtx :=
  { valid := false, m := Config.free n, k := Config.free (n + 1), R := Config.free (n + 2),
    minv := Config.free (n + 3) }

/-- The search state after a reset: nothing found, no cancellation, every worker IDLE; `value` and `cand[w]`
unspecified (R142), the free values `n` and `n + 1 + w`. -/
def resetSearch (p : Params) (n : Nat) : Search :=
  { found := false, value := Config.free n, cancel := false,
    workers := (List.range p.NWORK).map (fun w => { phase := .idle, cand := Config.free (n + 1 + w) }) }

/-- STATUS's stored bits after either reset (R142, R143). -/
def Status.cleared : Status := { done := false, err := false, ovr := false, werr := false }

/-- The flags after either reset (R142, R143). -/
def Flags.cleared : Flags := { lt := false, eq := false, gt := false, t := false, p := false }

/-- ERRCODE and ERRCMD when no error is recorded (R30, R142). -/
def ErrorRegs.cleared : ErrorRegs := { cls := 0, detail := 0, cmd := 0 }

/-- CTRL after either reset (R142, R143). -/
def Ctrl.cleared : Ctrl := { ieDone := false, ieErr := false, wmode := false }

/-- The engine after either reset (R142, R143). -/
def Engine.cleared : Engine := { phase := .idle, curCmd := 0, curWmode := false }

/-- The state after a hardware reset of a block with parameters `p` (R142), the unspecified values taken from the
free values from `n` on. -/
def State.resetWith (p : Params) (n : Nat) : State :=
  { params := p
    x := resetOperands p n
    written := #v[false, false, false, false, false, false, false, false,
                  false, false, false, false, false, false, false, false]
    scalar := 0
    status := .cleared
    flags := .cleared
    error := .cleared
    ctrl := .cleared
    werrCnt := 0
    engine := .cleared
    mctx := resetMctx (n + operandWords p)
    search := resetSearch p (n + operandWords p + 4)
    host := { pending := [], replies := [] }
    env := { entropy := [], turns := [], freeCount := n + operandWords p + 5 + p.NWORK } }

/-- The machine right after reset: the reference configuration of R6 in the reset state of R142, the host having
asked for nothing yet. -/
def State.reset : State := State.resetWith .reference 0

end Sys2Proof.Machine
end

