-- ==== Sys2Proof/Machine/Ops.lean ====
section
/-! DEFINITION. The operations the meanings share: reading and writing operand registers, committing and completing a
command (R11, R41), raising an error (R127) and acknowledging it (R129), accepting a command (R29), and the draws
(R10). -/

namespace Sys2Proof.Machine

/-- `x[r]`: the natural number register r holds (R10, R21). -/
def State.reg (s : State) (r : Reg) : Nat := wordsValue s.x[r]

/-- STATUS.BUSY (R41). -/
def State.busy (s : State) : Bool := s.engine.phase ≠ .idle

/-- `x[r] <- v` for v < B^CAP, marking the register written (R21, R23). -/
def State.setReg (s : State) (r : Reg) (v : Nat) : State :=
  { s with x := s.x.set r (wordsOf s.params.windowWords v), written := s.written.set r true }

/-- Several destination writes, in order (R11). -/
def State.setRegs (s : State) : List (Reg × Nat) → State
  | [] => s
  | (r, v) :: ws => (s.setReg r v).setRegs ws

/-- The end of a command: DONE is set and the engine returns to IDLE (R41). -/
def complete (s : State) : State :=
  { s with status := { s.status with done := true }, engine := { s.engine with phase := .idle } }

/-- The errors a command can raise (R126). NO_INVERSE, ParseError and every code R126 reserves are never raised, so
they have no constructor. -/
inductive CmdError where
  | divByZero
  | evenModulus
  | shiftTooLarge
  | subUnderflow
  | searchWidth
  | mrDomain
  | noMontContext
  /-- InvariantViolation: only the division engine's correction check names it, and it never applies (R96). -/
  | knuthCorrection
  | reservedOpcode
  | reservedField
  | destConflict
  | capacityExceeded
  deriving DecidableEq, Repr

/-- ERRCODE.CLASS of an error (R126). -/
def CmdError.cls : CmdError → BitVec 8
  | .divByZero => 1
  | .evenModulus => 1
  | .shiftTooLarge => 1
  | .subUnderflow => 1
  | .searchWidth => 1
  | .mrDomain => 1
  | .noMontContext => 1
  | .knuthCorrection => 2
  | .reservedOpcode => 4
  | .reservedField => 4
  | .destConflict => 4
  | .capacityExceeded => 5

/-- ERRCODE.DETAIL of an error (R126). -/
def CmdError.detail : CmdError → BitVec 8
  | .divByZero => 1
  | .evenModulus => 2
  | .shiftTooLarge => 3
  | .subUnderflow => 5
  | .searchWidth => 6
  | .mrDomain => 7
  | .noMontContext => 8
  | .knuthCorrection => 1
  | .reservedOpcode => 1
  | .reservedField => 2
  | .destConflict => 3
  | .capacityExceeded => 0

/-- The IllegalCommand error of a word the decoder rejects (R68 to R70). -/
def illegalCommand : DecodeError → CmdError
  | .reservedOpcode => .reservedOpcode
  | .reservedField => .reservedField
  | .destConflict => .destConflict

/-- `raise`: the block's exception entry (R127). ERRCODE and ERRCMD record the error and CURCMD, ERR and DONE are set,
the engine returns to IDLE, and nothing else is written (R125). -/
def raise (e : CmdError) (s : State) : State :=
  { s with
    error := { cls := e.cls, detail := e.detail, cmd := s.engine.curCmd }
    status := { s.status with err := true, done := true }
    engine := { s.engine with phase := .idle } }

/-- The return from an error: the host clears ERR, and ERRCODE and ERRCMD with it (R30, R129). -/
def clearError (s : State) : State :=
  { s with status := { s.status with err := false }, error := .cleared }

/-- A command's commit (R11): if every value to be written fits in CAP limbs, all destinations and flags are written
together and the command completes; otherwise CapacityExceeded is raised and nothing is written. -/
def commit (ws : List (Reg × Nat)) (fl : Flags) (s : State) : State :=
  if ws.all (fun w => w.2 < s.params.capacity) then
    complete { s.setRegs ws with flags := fl }
  else raise .capacityExceeded s

/-- The commit of a command that writes one register and no flag. -/
def commitReg (d : Reg) (v : Nat) (s : State) : State := commit [(d, v)] s.flags s

/-- The commit of a command that writes flags and no register. -/
def commitFlags (fl : Flags) (s : State) : State := commit [] fl s

/-- The phase a command word puts the engine in: SEARCH for PSEARCH's opcode, EXEC for every other word (R29). -/
def phaseOf (c : Word) : Phase := if opField c = 0x30 then .search else .exec

/-- A command is accepted (R29): CURCMD and CURWMODE are latched, DONE is cleared and the engine starts. -/
def accept (c : Word) (s : State) : State :=
  { s with
    status := { s.status with done := false }
    engine := { phase := phaseOf c, curCmd := c, curWmode := s.ctrl.wmode } }

/-- `draw([lo, hi])` (R10): a member of the range, from the entropy source's next answer; past the answers the state
holds it is a free value. -/
def draw (lo hi : Nat) (e : Env) : Nat × Env :=
  match e.entropy with
  | a :: rest => (lo + a % (hi + 1 - lo), { e with entropy := rest })
  | [] => (lo + Config.free e.freeCount % (hi + 1 - lo), { e with freeCount := e.freeCount + 1 })

end Sys2Proof.Machine
end

