-- ==== Sys2Proof/Machine/Flags.lean ====
section
/-! DEFINITION. The flag computations (R25): the order flags of a comparison, the bit flag and the verdict flag. -/

namespace Sys2Proof.Machine

/-- LT, EQ and GT after comparing a with b; T and P keep their values (R80, R81). -/
def Flags.compare (a b : Nat) (fl : Flags) : Flags :=
  { fl with lt := decide (a < b), eq := decide (a = b), gt := decide (b < a) }

/-- T after a bit test; the other flags keep their values (R91). -/
def Flags.withT (b : Nat) (fl : Flags) : Flags := { fl with t := decide (b = 1) }

/-- P after a primality verdict; the other flags keep their values (R113 to R116). -/
def Flags.withP (b : Bool) (fl : Flags) : Flags := { fl with p := b }

end Sys2Proof.Machine
end

