-- ==== Sys2Proof/Machine/Operands.lean ====
section
/-! DEFINITION. The operand forms of the command set (R64 to R66): a register field names x[r] (`State.reg`, `setReg`),
the immediate is zero-extended, and the scalar operand is SCALAR. -/

namespace Sys2Proof.Machine

/-- `imm = zext(c[13:0])`: never sign-extended, scaled or shifted (R65). -/
def immValue (imm : Imm14) : Nat := imm.toNat

/-- The single-limb scalar operand s of LDS, CMPS, ADDS, SUBS, MULS, DIVS and MODS (R66). -/
def State.scalarOperand (s : State) : Nat := s.scalar

end Sys2Proof.Machine
end

