-- ==== Sys2Proof/Machine/Montgomery.lean ====
section
/-! DEFINITION. The Montgomery multiplier and modular exponentiator: the functions of R102 and R103, and MSETUP, MTOM,
MMUL, MRED, MEXP (R104 to R108). -/

namespace Sys2Proof.Machine

/-- The loop of R102: `n` times `inv <- (inv·base) mod R; base <- (base·base) mod R`. -/
def inverseLoop (R : Nat) : Nat → Nat → Nat → Nat
  | 0, inv, _ => inv
  | n + 1, inv, base => inverseLoop R n (inv * base % R) (base * base % R)

/-- The context function `mctx(m)` for odd m (R102), as a valid context. -/
def mctx (p : Params) (m : Nat) : MontCtx :=
  let k := len p m
  let R := p.B ^ k
  { valid := true, m := m, k := k, R := R, minv := inverseLoop R (k * p.W - 1) 1 m }

/-- The Montgomery product (R103). -/
def montmul (ctx : MontCtx) (a b : Nat) : Nat :=
  let c := a * b
  let q := c % ctx.R * (ctx.R - ctx.minv) % ctx.R
  let t := (c + q * ctx.m) / ctx.R
  if ctx.m ≤ t then t - ctx.m else t

/-- The square-and-multiply loop of R108, exponent bits from the least significant up; `fuel` bounds the bits. -/
def expLoop (ctx : MontCtx) : Nat → Nat → Nat → Nat → Nat
  | 0, _, res, _ => res
  | fuel + 1, e, res, a =>
    if e = 0 then res
    else expLoop ctx fuel (e / 2) (if e % 2 = 1 then montmul ctx res a else res) (montmul ctx a a)

/-- `fast_odd_exp_mod(base, exp, m)` for odd m, with a context of its own (R108). -/
def oddExpMod (p : Params) (base e m : Nat) : Nat :=
  let ctx := mctx p m
  montmul ctx (expLoop ctx (msb p e) e (1 * ctx.R % m) (base * ctx.R % m)) 1

/-- `MSETUP xA` (R104). On the error MCTX keeps its old value. -/
def execMsetup (a : Reg) (s : State) : Host.Outcome State Fault Refusal :=
  .next (if s.reg a % 2 = 0 then raise .evenModulus s
    else complete { s with mctx := mctx s.params (s.reg a) })

/-- `MTOM xD, xA` (R105). -/
def execMtom (d a : Reg) (s : State) : Host.Outcome State Fault Refusal :=
  .next (if s.mctx.valid = false then raise .noMontContext s
    else commitReg d (s.reg a * s.mctx.R % s.mctx.m) s)

/-- `MMUL xD, xA, xB` (R106). -/
def execMmul (d a b : Reg) (s : State) : Host.Outcome State Fault Refusal :=
  .next (if s.mctx.valid = false then raise .noMontContext s
    else commitReg d (montmul s.mctx (s.reg a) (s.reg b)) s)

/-- `MRED xD, xA` (R107). -/
def execMred (d a : Reg) (s : State) : Host.Outcome State Fault Refusal :=
  .next (if s.mctx.valid = false then raise .noMontContext s
    else commitReg d (montmul s.mctx (s.reg a) 1) s)

/-- `MEXP xD, xA, xB, xC` (R108). MCTX is neither read nor written. -/
def execMexp (d a b c : Reg) (s : State) : Host.Outcome State Fault Refusal :=
  .next (if s.reg c % 2 = 0 then raise .evenModulus s
    else commitReg d (oddExpMod s.params (s.reg a) (s.reg b) (s.reg c)) s)

end Sys2Proof.Machine
end

