-- ==== Sys2Proof/Machine/Primality.lean ====
section
/-! DEFINITION. The primality tester: the functions of R109 to R112, and SIEVE, MRROUND, ISPRIME (R113 to R115). -/

namespace Sys2Proof.Machine

/-- The answers of the sieve (R109). -/
inductive SieveResult where
  | accept
  | reject
  | undecided
  deriving DecidableEq, Repr

/-- The trial division of R109 over a list of primes in increasing order. -/
def sieveOver (n : Nat) : List Nat → SieveResult
  | [] => .undecided
  | q :: qs => if q = n then .accept else if n % q = 0 then .reject else sieveOver n qs

/-- `sieve_pass(n)` over TABLE (R109); CONTINUE is `undecided`. -/
def sievePass (p : Params) (n : Nat) : SieveResult := sieveOver n p.table

/-- The squarings of R110: up to `count` times `x <- x² mod n`, looking for n − 1. -/
def mrSquarings (n : Nat) : Nat → Nat → Bool
  | 0, _ => false
  | count + 1, x => if x * x % n = n - 1 then true else mrSquarings n count (x * x % n)

/-- `mr_round(n, a)` for odd n ≥ 3: true is PASS and false is FAIL (R110). The power is taken by the exponentiator. -/
def mrRound (p : Params) (n a : Nat) : Bool :=
  let t := tz (n - 1)
  let x := oddExpMod p a ((n - 1) / 2 ^ t) n
  if x = 1 ∨ x = n - 1 then true else mrSquarings n (t - 1) x

/-- The greatest witness of `WSET(n, mode)`: mode 0 is SOURCE, mode 1 is FULL; the least is WLO = 2 in both (R111). -/
def witnessMax (n : Nat) (mode : Bool) : Nat := if mode then n - 2 else Config.WHI

/-- Up to `count` Miller–Rabin rounds with drawn witnesses, ending at the first that fails (R112, step 3). -/
def mrRounds (p : Params) (n : Nat) (mode : Bool) : Nat → Env → Bool × Env
  | 0, e => (true, e)
  | count + 1, e =>
    let a := draw Config.WLO (witnessMax n mode) e
    if mrRound p n a.1 then mrRounds p n mode count a.2 else (false, a.2)

/-- `is_prime(n)` under the witness mode `mode` (R112), and what its draws leave of the free inputs. -/
def isPrime (p : Params) (n : Nat) (mode : Bool) (e : Env) : Bool × Env :=
  if n < 2 then (false, e)
  else if n = 2 ∨ n = 3 then (true, e)
  else if n % 2 = 0 then (false, e)
  else match sievePass p n with
    | .accept => (true, e)
    | .reject => (false, e)
    | .undecided => mrRounds p n mode (iterCount (msb p n)) e

/-- `SIEVE xA` (R113). -/
def execSieve (a : Reg) (s : State) : Host.Outcome State Fault Refusal :=
  .next (commitFlags (s.flags.withP (sievePass s.params (s.reg a) ≠ .reject)) s)

/-- `MRROUND xA, xB` (R114). -/
def execMrround (a b : Reg) (s : State) : Host.Outcome State Fault Refusal :=
  .next (if s.reg a < 3 ∨ s.reg a % 2 = 0 then raise .mrDomain s
    else commitFlags (s.flags.withP (mrRound s.params (s.reg a) (s.reg b))) s)

/-- `ISPRIME xA` (R115). The witness mode is the one latched in CURWMODE. -/
def execIsprime (a : Reg) (s : State) : Host.Outcome State Fault Refusal :=
  let v := isPrime s.params (s.reg a) s.engine.curWmode s.env
  .next (commitFlags (s.flags.withP v.1) { s with env := v.2 })

end Sys2Proof.Machine
end

