-- ==== Sys2Proof/Machine/Search.lean ====
section
/-! DEFINITION. The parallel prime search: PSEARCH's start step (R116, R117), the worker steps (R118 to R121) and the
finish step (R122). -/

namespace Sys2Proof.Machine

/-- PSEARCH's start step (R117), which is its meaning at the engine: h is checked and the workers are released. The
search then goes on by the worker steps and ends with the finish step. -/
def execPsearch (_d : Reg) (imm : Imm14) (s : State) : Host.Outcome State Fault Refusal :=
  .next (if immValue imm = 0 ∨ s.params.HMAX < immValue imm then raise .searchWidth s
    else { s with
      engine := { s.engine with phase := .search }
      search := { s.search with
        found := false
        cancel := false
        workers := s.search.workers.map (fun w => { w with phase := .init }) } })

/-- The hex digit count h of the search in progress: IMM14 of CURCMD (R117). -/
def State.searchDigits (s : State) : Nat := immValue (immField s.engine.curCmd)

/-- Worker w of the state becomes `v`. -/
def State.setWorker (s : State) (w : Nat) (v : Worker) : State :=
  { s with search := { s.search with workers := s.search.workers.set w v } }

/-- The INIT step (R118): an h-digit starting number is drawn and bit 0 is set. -/
def workerInit (w : Nat) (s : State) : State :=
  let h := s.searchDigits
  let start := draw (8 * 16 ^ (h - 1)) (16 ^ h - 1) s.env
  { s with env := start.2 }.setWorker w
    { phase := .head, cand := start.1 + (1 - bit start.1 0) }

/-- The HEAD step (R119): the cancellation token is read. -/
def workerHead (w : Nat) (v : Worker) (s : State) : State :=
  s.setWorker w { v with phase := if s.search.cancel then .exited else .test }

/-- What a worker's is_prime call gives: a verdict, or an error to be logged (R120, R121). -/
inductive TestResult where
  | verdict (prime : Bool)
  | raised
  deriving DecidableEq, Repr

/-- The is_prime call of R120. It raises nothing (R112), so it always answers a verdict. -/
def testCandidate (s : State) (cand : Nat) : TestResult × Env :=
  let v := isPrime s.params cand s.engine.curWmode s.env
  (.verdict v.1, v.2)

/-- The effect of a worker's test (R120, R121): a prime is published unless one already is, the token is set and the
worker exits; otherwise it goes on to the next odd number, an error being logged first. -/
def afterTest (w : Nat) (v : Worker) (r : TestResult) (s : State) : State :=
  match r with
  | .verdict true =>
    { s with search := { s.search with
        found := true
        value := if s.search.found then s.search.value else v.cand
        cancel := true } }.setWorker w { v with phase := .exited }
  | .verdict false => s.setWorker w { phase := .head, cand := v.cand + 2 }
  | .raised =>
    { s with
      status := { s.status with werr := true }
      werrCnt := if s.werrCnt = BitVec.allOnes 32 then s.werrCnt else s.werrCnt + 1 }.setWorker w
        { phase := .head, cand := v.cand + 2 }

/-- The TEST step (R120): the whole primality test with its draws, and its effect, in one step. -/
def workerTest (w : Nat) (v : Worker) (s : State) : State :=
  let r := testCandidate s v.cand
  afterTest w v r.1 { s with env := r.2 }

/-- A worker may step in phases INIT, HEAD and TEST (R118 to R120). -/
def WorkerPhase.active : WorkerPhase → Bool
  | .init => true
  | .head => true
  | .test => true
  | .idle => false
  | .exited => false

/-- One step of worker w (R20); a worker with no step leaves the state as it is. -/
def workerStep (w : Nat) (s : State) : State :=
  match s.search.workers[w]? with
  | none => s
  | some v =>
    match v.phase with
    | .init => workerInit w s
    | .head => workerHead w v s
    | .test => workerTest w v s
    | .idle => s
    | .exited => s

/-- Every worker returns to IDLE (R122). -/
def State.idleWorkers (s : State) : State :=
  { s with search := { s.search with
      workers := s.search.workers.map (fun w => { w with phase := .idle }) } }

/-- The finish step (R122): the published value and P are committed and the workers return to IDLE. -/
def finishSearch (s : State) : State :=
  commit [(dField s.engine.curCmd, s.search.value)] (s.flags.withP true) s.idleWorkers

/-- The search has not started: every worker is IDLE (R117). -/
def State.searchUnstarted (s : State) : Bool := s.search.workers.all (fun w => w.phase = .idle)

/-- The finish step is enabled: every worker is EXITED (R122). -/
def State.searchEnded (s : State) : Bool := s.search.workers.all (fun w => w.phase = .exited)

end Sys2Proof.Machine
end

