-- ==== Sys2Proof/Machine/Bus.lean ====
section
/-! DEFINITION. The host register space: the address map (R48), reads and writes of every register (R26 to R38, R49 to
R52), the two resets (R141 to R144), the interrupt line (R131), the host's step, and the host notation of R75. -/

namespace Sys2Proof.Machine

/-- What stands at an aligned offset of the register space (R48). -/
inductive Location where
  | ident
  | cfg
  | cmd
  | status
  | errCode
  | errCmd
  | scalarLo
  | scalarHi
  | ctrl
  | werrCnt
  | sieveCfg
  | vlen (v : Reg)
  | window (v : Reg) (k : Nat)
  | reserved
  deriving DecidableEq, Repr

/-- The address map of R48, from the byte offset. -/
def locate (off : Nat) : Location :=
  if off < 0x40 then
    match off / 4 with
    | 0 => .ident
    | 1 => .cfg
    | 2 => .cmd
    | 3 => .status
    | 4 => .errCode
    | 5 => .errCmd
    | 6 => .scalarLo
    | 7 => .scalarHi
    | 8 => .ctrl
    | 9 => .werrCnt
    | 10 => .sieveCfg
    | _ => .reserved
  else if off < 0x80 then .vlen (Fin.ofNat 16 ((off - 0x40) / 4))
  else if off < 0x1000 then .reserved
  else if off < 0x11000 then .window (Fin.ofNat 16 (off / 0x1000 - 1)) (off % 0x1000 / 4)
  else .reserved

/-- CFG, from the parameters (R28). -/
def cfgWord (p : Params) : Word :=
  BitVec.ofNat 32 (p.W + p.CAP * 2 ^ 8 + Config.NREG * 2 ^ 16 + p.NWORK * 2 ^ 24)

/-- STATUS bits 4:0, which are defined at all times (R30, R51). -/
def statusLow (s : State) : Nat :=
  s.busy.toNat + s.status.done.toNat * 2 + s.status.err.toNat * 4 + s.status.ovr.toNat * 8 +
    s.status.werr.toNat * 16

/-- The flags as the five-bit number that stands in STATUS bits 12:8 (R30). -/
def flagBits (fl : Flags) : Nat :=
  fl.lt.toNat + fl.eq.toNat * 2 + fl.gt.toNat * 4 + fl.t.toNat * 8 + fl.p.toNat * 16

/-- ERRCODE (R31). -/
def errCodeWord (s : State) : Word :=
  BitVec.ofNat 32 (s.error.cls.toNat + s.error.detail.toNat * 2 ^ 8)

/-- CTRL as it reads: SRST and the reserved bits read 0 (R34). -/
def ctrlWord (c : Ctrl) : Word :=
  BitVec.ofNat 32 (c.ieDone.toNat + c.ieErr.toNat * 2 + c.wmode.toNat * 8)

/-- An unspecified value below 2^n (R51): a draw. -/
def unspecified (n : Nat) (s : State) : Nat × State :=
  let d := draw 0 (2 ^ n - 1) s.env
  (d.1, { s with env := d.2 })

/-- The value a read of STATUS returns: while BUSY the flag bits are unspecified (R25, R51). -/
def readStatus (s : State) : Word × State :=
  if s.busy then
    let d := unspecified 5 s
    (BitVec.ofNat 32 (statusLow s + d.1 * 2 ^ 8), d.2)
  else (BitVec.ofNat 32 (statusLow s + flagBits s.flags * 2 ^ 8), s)

/-- The value a read of an operand window word or of VLEN returns: unspecified while BUSY (R51). -/
def readOperandView (v : Nat) (s : State) : Word × State :=
  if s.busy then
    let d := unspecified 32 s
    (BitVec.ofNat 32 d.1, d.2)
  else (BitVec.ofNat 32 v, s)

/-- Word k of the operand window of register v (R38, R50). -/
def windowWord (s : State) (v : Reg) (k : Nat) : Word := s.x[v].getD k 0

/-- A 32-bit read at an offset of the block (R48 to R51). No read changes more than the draws it takes. -/
def readLocation (l : Location) (s : State) : Word × State :=
  match l with
  | .ident => (Config.IDENT, s)
  | .cfg => (cfgWord s.params, s)
  | .cmd => (0, s)
  | .status => readStatus s
  | .errCode => (errCodeWord s, s)
  | .errCmd => (s.error.cmd, s)
  | .scalarLo => (BitVec.ofNat 32 (wordOf s.scalar 0), s)
  | .scalarHi => (if s.params.W = 64 then BitVec.ofNat 32 (wordOf s.scalar 1) else 0, s)
  | .ctrl => (ctrlWord s.ctrl, s)
  | .werrCnt => (s.werrCnt, s)
  | .sieveCfg => (BitVec.ofNat 32 s.params.NSIEVE, s)
  | .vlen v => readOperandView (len s.params (s.reg v)) s
  | .window v k => readOperandView (if k < s.params.windowWords then (windowWord s v k).toNat else 0) s
  | .reserved => (0, s)

/-- OVR is set: the host's access was rejected or ignored (R30, R130). -/
def setOvr (s : State) : State := { s with status := { s.status with ovr := true } }

/-- Soft reset (R143): everything but the operand registers, their written marks and SCALAR takes its reset value,
whatever command is in progress; MCTX's and the search's unspecified fields are free values again. -/
def softReset (s : State) : State :=
  let n := s.env.freeCount
  { s with
    status := .cleared
    flags := .cleared
    error := .cleared
    ctrl := .cleared
    werrCnt := 0
    engine := .cleared
    mctx := resetMctx n
    search := resetSearch s.params (n + 4)
    env := { s.env with freeCount := n + 5 + s.params.NWORK } }

/-- Hardware reset by the platform's `rst` (R141, R142, R144): the block's whole state; the host side and the free
inputs are outside the block. -/
def hardReset (s : State) : State :=
  { State.resetWith s.params s.env.freeCount with
    host := s.host
    env := { s.env with freeCount := s.env.freeCount + operandWords s.params + 5 + s.params.NWORK } }

/-- A write to CMD (R29): accepted when neither BUSY nor ERR is set, otherwise rejected. -/
def writeCmd (c : Word) (s : State) : State :=
  if s.busy || s.status.err then setOvr s else accept c s

/-- A write to STATUS (R30): each W1C bit written 1 is cleared, ERR together with ERRCODE and ERRCMD. -/
def writeStatus (v : Word) (s : State) : State :=
  let s1 := if v.getLsbD 2 then clearError s else s
  { s1 with status := { s1.status with
      done := s1.status.done && !v.getLsbD 1
      ovr := s1.status.ovr && !v.getLsbD 3
      werr := s1.status.werr && !v.getLsbD 4 } }

/-- A write to CTRL (R34): SRST performs a soft reset whatever the other bits hold (R143); otherwise the three stored
bits are replaced. -/
def writeCtrl (v : Word) (s : State) : State :=
  if v.getLsbD 2 then softReset s
  else { s with ctrl := { ieDone := v.getLsbD 0, ieErr := v.getLsbD 1, wmode := v.getLsbD 3 } }

/-- A write to SCALAR_LO or SCALAR_HI (R33): ignored with OVR while BUSY; SCALAR_HI is ignored when W = 32. -/
def writeScalar (k : Nat) (v : Word) (s : State) : State :=
  if s.busy then setOvr s
  else if k = 0 ∨ s.params.W = 64 then { s with scalar := replaceWord s.scalar k v.toNat }
  else s

/-- A write to word k of operand window r (R50, R51): ignored with OVR while BUSY, without effect beyond CAP, and
otherwise replacing exactly the bits 32k to 32k+31 of the value. -/
def writeWindow (r : Reg) (k : Nat) (v : Word) (s : State) : State :=
  if s.busy then setOvr s
  else if k < s.params.windowWords then
    { s with x := s.x.set r (s.x[r].set k v), written := s.written.set r true }
  else s

/-- A 32-bit write at an offset of the block (R48 to R52). -/
def writeLocation (l : Location) (v : Word) (s : State) : State :=
  match l with
  | .cmd => writeCmd v s
  | .status => writeStatus v s
  | .scalarLo => writeScalar 0 v s
  | .scalarHi => writeScalar 1 v s
  | .ctrl => writeCtrl v s
  | .werrCnt => { s with werrCnt := 0 }
  | .window r k => writeWindow r k v s
  | .ident => s
  | .cfg => s
  | .errCode => s
  | .errCmd => s
  | .sieveCfg => s
  | .vlen _ => s
  | .reserved => s

/-- A host access of `width` bytes at a bus address: outside the block it is the platform's (R46, K32); inside it must
be a 32-bit access at a multiple of 4, or the bus answers with an error (R46). -/
def onBus (width addr : Nat) (s : State) (act : Location → State) : Host.Outcome State Fault Refusal :=
  if addr < s.params.BASE ∨ s.params.BASE + 2 ^ Config.ADDRW ≤ addr then .refused .outsideBlock
  else if width ≠ 4 ∨ (addr - s.params.BASE) % 4 ≠ 0 then .fault .busError
  else .next (act (locate (addr - s.params.BASE)))

/-- The host receives the word its read returned. -/
def reply (r : Word × State) : State :=
  { r.2 with host := { r.2.host with replies := r.1 :: r.2.host.replies } }

/-- The host may step when it has an access to make; a WAIT ends at the first read of STATUS with BUSY = 0 (R75), so
until then it makes no step (the polls before it change nothing, R52; log entry 7). -/
def hostEnabled (s : State) : Bool :=
  match s.host.pending with
  | [] => false
  | .wait :: _ => !s.busy
  | .read _ _ :: _ => true
  | .write _ _ _ :: _ => true
  | .rst :: _ => true

/-- One host step (R20): the oldest pending access is made. -/
def hostStep (s : State) : Host.Outcome State Fault Refusal :=
  match s.host.pending with
  | [] => .next s
  | op :: rest =>
    let s1 := { s with host := { s.host with pending := rest } }
    match op with
    | .read width addr => onBus width addr s1 (fun l => reply (readLocation l s1))
    | .write width addr v => onBus width addr s1 (fun l => writeLocation l v s1)
    | .wait => .next (reply (readLocation .status s1))
    | .rst => .next (hardReset s1)

/-- The interrupt line (R131). -/
def irq (s : State) : Bool :=
  (s.status.done && s.ctrl.ieDone) || (s.status.err && s.ctrl.ieErr)

/-- `LOADV v, value` (R75). -/
def loadv (p : Params) (v : Reg) (value : Nat) : List HostOp :=
  (List.range p.windowWords).map (fun k =>
    .write 4 (p.BASE + 0x1000 * (v.val + 1) + 4 * k) (BitVec.ofNat 32 (wordOf value k)))

/-- `READV v` (R75): the reads; the host assembles the words. -/
def readv (p : Params) (v : Reg) : List HostOp :=
  (List.range p.windowWords).map (fun k => .read 4 (p.BASE + 0x1000 * (v.val + 1) + 4 * k))

/-- `CMD text` (R75), and the WAIT that follows it in a program. -/
def issue (p : Params) (i : Instr) : List HostOp := [.write 4 (p.BASE + 0x008) (encode i), .wait]

end Sys2Proof.Machine
end

