-- ==== Sys2Proof/Machine/AddSub.lean ====
section
/-! DEFINITION. The multi-precision adder/subtractor: ADD, SUB, ADDS, SUBS (R82 to R85). -/

namespace Sys2Proof.Machine

/-- `ADD xD, xA, xB` (R82). -/
def execAdd (d a b : Reg) (s : State) : Host.Outcome State Fault Refusal :=
  .next (commitReg d (s.reg a + s.reg b) s)

/-- The check and commit of a subtraction: no underflow, and the exact difference (R83, R85). -/
def subtract (d : Reg) (a b : Nat) (s : State) : State :=
  if a < b then raise .subUnderflow s else commitReg d (a - b) s

/-- `SUB xD, xA, xB` (R83). -/
def execSub (d a b : Reg) (s : State) : Host.Outcome State Fault Refusal :=
  .next (subtract d (s.reg a) (s.reg b) s)

/-- `ADDS xD, xA` (R84). -/
def execAdds (d a : Reg) (s : State) : Host.Outcome State Fault Refusal :=
  .next (commitReg d (s.reg a + s.scalarOperand) s)

/-- `SUBS xD, xA` (R85). -/
def execSubs (d a : Reg) (s : State) : Host.Outcome State Fault Refusal :=
  .next (subtract d (s.reg a) s.scalarOperand s)

end Sys2Proof.Machine
end

