-- ==== Sys2Proof/Machine/Division.lean ====
section
/-! DEFINITION. The long-division engine: the division function of R94, DIV, MOD, DIVREM, DIVS, MODS (R97 to R101),
and the engine's own algorithms of R95 and R96, whose result R94 fixes. -/

namespace Sys2Proof.Machine

/-- `divmod(a, d)` for d > 0: the pair (q, r) with `a = q·d + r` and `r < d` (R94). -/
def divmod (a d : Nat) : Nat × Nat := (a / d, a % d)

/-- `DIV xD, xA, xB` (R97). -/
def execDiv (d a b : Reg) (s : State) : Host.Outcome State Fault Refusal :=
  .next (if s.reg b = 0 then raise .divByZero s else commitReg d (divmod (s.reg a) (s.reg b)).1 s)

/-- `MOD xD, xA, xB` (R98). -/
def execMod (d a b : Reg) (s : State) : Host.Outcome State Fault Refusal :=
  .next (if s.reg b = 0 then raise .divByZero s else commitReg d (divmod (s.reg a) (s.reg b)).2 s)

/-- `DIVREM xQ, xR, xA, xB` (R99). The decoder has already refused equal destinations (R70); the check stands here as
well, first in the order of R128, so that the meaning is right for every term of Instr. -/
def execDivrem (q r a b : Reg) (s : State) : Host.Outcome State Fault Refusal :=
  .next (if q = r then raise .destConflict s
    else if s.reg b = 0 then raise .divByZero s
    else commit [(q, (divmod (s.reg a) (s.reg b)).1), (r, (divmod (s.reg a) (s.reg b)).2)] s.flags s)

/-- `DIVS xD, xA` (R100). -/
def execDivs (d a : Reg) (s : State) : Host.Outcome State Fault Refusal :=
  .next (if s.scalarOperand = 0 then raise .divByZero s
    else commitReg d (divmod (s.reg a) s.scalarOperand).1 s)

/-- `MODS xD, xA` (R101). -/
def execMods (d a : Reg) (s : State) : Host.Outcome State Fault Refusal :=
  .next (if s.scalarOperand = 0 then raise .divByZero s
    else commitReg d (divmod (s.reg a) s.scalarOperand).2 s)

/-- The correction loop of R95 for one quotient digit: while the slice holds another divisor the estimate goes up by
one; `left` counts the corrections still allowed before the check of R96 fails. Answers the digit and the slice. -/
def knuthCorrect (dn : Nat) : Nat → Nat → Nat → Except CmdError (Nat × Nat)
  | 0, qh, slice => if dn ≤ slice then .error .knuthCorrection else .ok (qh, slice)
  | left + 1, qh, slice => if dn ≤ slice then knuthCorrect dn left (qh + 1) (slice - dn) else .ok (qh, slice)

/-- The digit loop of R95, for indexes i from `count − 1` down to 0, over the normalised dividend u and divisor dn of
m limbs; answers the quotient. -/
def knuthDigits (p : Params) (dn m : Nat) : Nat → Nat → Nat → Except CmdError Nat
  | 0, _, q => .ok q
  | i + 1, u, q =>
    let window := u / p.B ^ i % p.B ^ (m + 1)
    let qh := (limb p window m * p.B + limb p window (m - 1)) / limb p dn (m - 1) - 2
    match knuthCorrect dn 3 qh (window - dn * qh) with
    | .error e => .error e
    | .ok (qh, slice) =>
      knuthDigits p dn m i (u - window * p.B ^ i + slice * p.B ^ i) (q + qh * p.B ^ i)

/-- The reference algorithm of R95, Knuth's Algorithm D with the loop started at n − m (C2), for divisors of at least
two limbs. -/
def knuth (p : Params) (a d : Nat) : Except CmdError (Nat × Nat) :=
  if a < d then .ok (0, a)
  else
    let v := p.B / (limb p d (len p d - 1) + 1)
    let u := a * v
    let dn := d * v
    match knuthDigits p dn (len p dn) (len p u - len p dn + 1) u 0 with
    | .error e => .error e
    | .ok q => .ok (q, a - q * d)

/-- The left-to-right walk of R96 over the limbs of a with a running remainder, for a divisor below B: limbs
`count − 1` down to 0. -/
def shortDivide (p : Params) (a d : Nat) : Nat → Nat → Nat → Nat × Nat
  | 0, q, r => (q, r)
  | i + 1, q, r =>
    let t := r * p.B + limb p a i
    shortDivide p a d i (q * p.B + t / d) (t % d)

end Sys2Proof.Machine
end

