-- ==== Sys2Proof/Machine/MoveCompare.lean ====
section
/-! DEFINITION. Construction, copy and comparison: LDI, LDS, MOV, CMP, CMPS (R76 to R81). Each meaning is the engine's
completion step for its command: sources are read, checks made, and everything is written at the commit. -/

namespace Sys2Proof.Machine

/-- `LDI xD, imm` (R77). -/
def execLdi (d : Reg) (imm : Imm14) (s : State) : Host.Outcome State Fault Refusal :=
  .next (commitReg d (immValue imm) s)

/-- `LDS xD` (R78). -/
def execLds (d : Reg) (s : State) : Host.Outcome State Fault Refusal :=
  .next (commitReg d s.scalarOperand s)

/-- `MOV xD, xA` (R79). -/
def execMov (d a : Reg) (s : State) : Host.Outcome State Fault Refusal :=
  .next (commitReg d (s.reg a) s)

/-- `CMP xA, xB` (R80). -/
def execCmp (a b : Reg) (s : State) : Host.Outcome State Fault Refusal :=
  .next (commitFlags (s.flags.compare (s.reg a) (s.reg b)) s)

/-- `CMPS xA` (R81). -/
def execCmps (a : Reg) (s : State) : Host.Outcome State Fault Refusal :=
  .next (commitFlags (s.flags.compare (s.reg a) s.scalarOperand) s)

end Sys2Proof.Machine
end

