-- ==== Sys2Proof/Machine/MulShiftBit.lean ====
section
/-! DEFINITION. Multiplication, shifts and bit access: MUL, MULS, SHR, SHLL, SHRL, BTST, BSET, MSB (R86 to R93). -/

namespace Sys2Proof.Machine

/-- `MUL xD, xA, xB` (R86). -/
def execMul (d a b : Reg) (s : State) : Host.Outcome State Fault Refusal :=
  .next (commitReg d (s.reg a * s.reg b) s)

/-- `MULS xD, xA` (R87). -/
def execMuls (d a : Reg) (s : State) : Host.Outcome State Fault Refusal :=
  .next (commitReg d (s.reg a * s.scalarOperand) s)

/-- `SHR xD, xA, k`: by at most one limb width (R88). -/
def execShr (d a : Reg) (imm : Imm14) (s : State) : Host.Outcome State Fault Refusal :=
  .next (if s.params.W < immValue imm then raise .shiftTooLarge s
    else commitReg d (s.reg a / 2 ^ immValue imm) s)

/-- `SHLL xD, xA, k`: left by k limbs (R89). -/
def execShll (d a : Reg) (imm : Imm14) (s : State) : Host.Outcome State Fault Refusal :=
  .next (commitReg d (s.reg a * s.params.B ^ immValue imm) s)

/-- `SHRL xD, xA, k`: right by k limbs (R90). -/
def execShrl (d a : Reg) (imm : Imm14) (s : State) : Host.Outcome State Fault Refusal :=
  .next (commitReg d (s.reg a / s.params.B ^ immValue imm) s)

/-- `BTST xA, b` (R91). -/
def execBtst (a : Reg) (imm : Imm14) (s : State) : Host.Outcome State Fault Refusal :=
  .next (commitFlags (s.flags.withT (bit (s.reg a) (immValue imm))) s)

/-- The value with bit b set: `a + (1 − bit(a, b))·2^b` (R92). -/
def setBit (a b : Nat) : Nat := a + (1 - bit a b) * 2 ^ b

/-- `BSET xD, xA, b` (R92). -/
def execBset (d a : Reg) (imm : Imm14) (s : State) : Host.Outcome State Fault Refusal :=
  .next (commitReg d (setBit (s.reg a) (immValue imm)) s)

/-- `MSB xD, xA` (R93). -/
def execMsb (d a : Reg) (s : State) : Host.Outcome State Fault Refusal :=
  .next (commitReg d (msb s.params (s.reg a)) s)

end Sys2Proof.Machine
end

