-- ==== Sys2Proof/Machine/Dispatch.lean ====
section
/-! DEFINITION. Which meaning each command has. -/

namespace Sys2Proof.Machine

/-- The engine's step for a decoded command (R72: "execute the rule named by row.rule with these fields"). -/
def exec (i : Instr) (s : State) : Host.Outcome State Fault Refusal :=
  match i with
  | .ldi d imm => Sys2Proof.Machine.execLdi d imm s
  | .lds d => Sys2Proof.Machine.execLds d s
  | .mov d a => Sys2Proof.Machine.execMov d a s
  | .cmp a b => Sys2Proof.Machine.execCmp a b s
  | .cmps a => Sys2Proof.Machine.execCmps a s
  | .add d a b => Sys2Proof.Machine.execAdd d a b s
  | .sub d a b => Sys2Proof.Machine.execSub d a b s
  | .adds d a => Sys2Proof.Machine.execAdds d a s
  | .subs d a => Sys2Proof.Machine.execSubs d a s
  | .mul d a b => Sys2Proof.Machine.execMul d a b s
  | .muls d a => Sys2Proof.Machine.execMuls d a s
  | .shr d a imm => Sys2Proof.Machine.execShr d a imm s
  | .shll d a imm => Sys2Proof.Machine.execShll d a imm s
  | .shrl d a imm => Sys2Proof.Machine.execShrl d a imm s
  | .btst a imm => Sys2Proof.Machine.execBtst a imm s
  | .bset d a imm => Sys2Proof.Machine.execBset d a imm s
  | .msb d a => Sys2Proof.Machine.execMsb d a s
  | .div d a b => Sys2Proof.Machine.execDiv d a b s
  | .mod d a b => Sys2Proof.Machine.execMod d a b s
  | .divrem q r a b => Sys2Proof.Machine.execDivrem q r a b s
  | .divs d a => Sys2Proof.Machine.execDivs d a s
  | .mods d a => Sys2Proof.Machine.execMods d a s
  | .msetup a => Sys2Proof.Machine.execMsetup a s
  | .mtom d a => Sys2Proof.Machine.execMtom d a s
  | .mmul d a b => Sys2Proof.Machine.execMmul d a b s
  | .mred d a => Sys2Proof.Machine.execMred d a s
  | .mexp d a b c => Sys2Proof.Machine.execMexp d a b c s
  | .sieve a => Sys2Proof.Machine.execSieve a s
  | .mrround a b => Sys2Proof.Machine.execMrround a b s
  | .isprime a => Sys2Proof.Machine.execIsprime a s
  | .psearch d imm => Sys2Proof.Machine.execPsearch d imm s

end Sys2Proof.Machine
end

