-- ==== Sys2Proof/Machine/Agents.lean ====
section
/-! DEFINITION. The agents of R20: which may step, which steps next, and what the step of each does. -/

namespace Sys2Proof.Machine

/-- The engine's step on CURCMD (R72): decode, raise what the decoder rejects, or execute. -/
def runCommand (s : State) : Host.Outcome State Fault Refusal :=
  match decode s.engine.curCmd with
  | .error e => .next (raise (illegalCommand e) s)
  | .ok i => exec i s

/-- The engine may step in EXEC, and in SEARCH before the search has started and when every worker is EXITED (R20,
R117, R122). -/
def engineEnabled (s : State) : Bool :=
  match s.engine.phase with
  | .idle => false
  | .exec => true
  | .search => s.searchUnstarted || s.searchEnded

/-- The engine's step (R20): the completion step in EXEC; in SEARCH the start step, then the finish step. -/
def engineStep (s : State) : Host.Outcome State Fault Refusal :=
  match s.engine.phase with
  | .idle => .next s
  | .exec => runCommand s
  | .search =>
    if s.searchUnstarted then runCommand s
    else if s.searchEnded then .next (finishSearch s)
    else .next s

/-- Worker w may step: in SEARCH, in phase INIT, HEAD or TEST (R20). -/
def workerEnabled (s : State) (w : Nat) : Bool :=
  match s.search.workers[w]? with
  | some v => v.phase.active
  | none => false

/-- The agents that may take a step (R20). -/
def enabledAgents (s : State) : List Agent :=
  (if hostEnabled s then [Agent.host] else []) ++
  (if engineEnabled s then [Agent.engine] else []) ++
  (if s.engine.phase = .search then
    ((List.range s.search.workers.length).filter (workerEnabled s)).map Agent.worker
   else [])

/-- The choice where no turn is given: nobody or the one agent that may step, otherwise a free choice among them. -/
def freeChoice (agents : List Agent) (e : Env) : Option Agent × Env :=
  match agents with
  | [] => (none, e)
  | [a] => (some a, e)
  | a :: b :: rest =>
    let l := a :: b :: rest
    (l[Config.free e.freeCount % l.length]?, { e with freeCount := e.freeCount + 1 })

/-- Which agent steps next (R20: "the agents interleave in any order"): the one whose turn the free inputs name, if it
may step, otherwise a free choice among those that may. -/
def chooseAgent (s : State) : Option Agent × State :=
  match s.env.turns with
  | [] =>
    let c := freeChoice (enabledAgents s) s.env
    (c.1, { s with env := c.2 })
  | t :: rest =>
    if t ∈ enabledAgents s then (some t, { s with env := { s.env with turns := rest } })
    else
      let c := freeChoice (enabledAgents s) { s.env with turns := rest }
      (c.1, { s with env := c.2 })

/-- One step of an agent (R20). -/
def agentStep (a : Agent) (s : State) : Host.Outcome State Fault Refusal :=
  match a with
  | .host => hostStep s
  | .engine => engineStep s
  | .worker w => .next (workerStep w s)

/-- One step of the machine: the chosen agent's; when no agent has a step the block waits in its state (R140, R142). -/
def machineStep (s : State) : Host.Outcome State Fault Refusal :=
  match chooseAgent s with
  | (none, s') => .next s'
  | (some a, s') => agentStep a s'

/-- The state with command word `c` accepted by the block (R29), no search under way, and the engine's turn next. -/
def placeCommand (c : Word) (s : State) : State :=
  let s1 := accept c s
  { s1.idleWorkers with env := { s1.env with turns := .engine :: s1.env.turns } }

end Sys2Proof.Machine
end

