-- ==== Sys2Proof/Machine/Step.lean ====
section
/-! DEFINITION. One step of the machine, and how a command word is put where the next step takes it. -/

namespace Sys2Proof.Machine

/-- One step of RSA-CORE: one step of one agent (R20). -/
def step (s : State) : Host.Outcome State Fault Refusal := machineStep s

/-- The state in which the next step runs the command in the low `nbits` bits of `w`. The block fetches nothing (R24):
a command stands in CURCMD from its acceptance to its completion step, so the word is accepted and the turn is the
engine's (log entry 6). -/
def State.withFetchWord (s : State) (nbits w : Nat) : State :=
  placeCommand (BitVec.ofNat 32 (w % 2 ^ nbits)) s

end Sys2Proof.Machine
end

