-- ==== Sys2Proof/Safety.lean ====
section
/-! DEFINITION. The terms the claims are stated in: what a command that completes or raises leaves, the views the host
has of the state, and the invariants of the machine. Nothing here is used by the machine. -/

namespace Sys2Proof.Machine

/-- The end of a command that completes (R41): DONE set, phase IDLE. -/
def State.ended (s : State) : State :=
  { s with status := { s.status with done := true }, engine := { s.engine with phase := .idle } }

/-- `t` is `s` after a command that completed and wrote `v` to register `d` and nothing else (R11, R41): `d` holds `v`
and is marked written, every other register keeps its contents and mark, and every other part of the state is that of
`s` ended. -/
def Wrote (s t : State) (d : Reg) (v : Nat) : Prop :=
  t.reg d = v ∧ t.written[d] = true ∧
  (∀ r : Reg, r ≠ d → t.x[r] = s.x[r] ∧ t.written[r] = s.written[r]) ∧
  t = { s.ended with x := t.x, written := t.written }

/-- `t` is `s` after a command that completed and wrote the flags `fl` and nothing else. -/
def WroteFlags (s t : State) (fl : Flags) : Prop := t = { s.ended with flags := fl }

/-- `t` is `s` after a command that raised the error of class `cls` and detail `detail` (R125, R127): ERRCODE, ERRCMD,
ERR and DONE are set, the phase is IDLE and nothing else is written. -/
def Raised (s t : State) (cls detail : BitVec 8) : Prop :=
  t = { s.ended with
    error := { cls := cls, detail := detail, cmd := s.engine.curCmd }
    status := { s.ended.status with err := true } }

/-- The destination registers a command names (R21, R63). -/
def destinations : Instr → List Reg
  | .ldi d _ | .lds d | .mov d _ | .add d _ _ | .sub d _ _ | .adds d _ | .subs d _ | .mul d _ _ | .muls d _ => [d]
  | .shr d _ _ | .shll d _ _ | .shrl d _ _ | .bset d _ _ | .msb d _ => [d]
  | .div d _ _ | .mod d _ _ | .divs d _ | .mods d _ => [d]
  | .divrem q r _ _ => [q, r]
  | .mtom d _ | .mmul d _ _ | .mred d _ | .mexp d _ _ _ | .psearch d _ => [d]
  | .cmp _ _ | .cmps _ | .btst _ _ | .msetup _ | .sieve _ | .mrround _ _ | .isprime _ => []

/-- Every parameter and every stored register is in its range: the parameters meet R6, each operand register is as wide
as its window (so below B^CAP, R21), SCALAR is below B (R26) and there are NWORK workers (R42). -/
abbrev RegsOk (s : State) : Prop :=
  s.params.Valid ∧ (∀ r : Reg, s.x[r].length = s.params.windowWords) ∧ s.scalar < s.params.B ∧
    s.search.workers.length = s.params.NWORK

/-- The error status is coherent (R30, R31, R126, R127): with ERR = 0 nothing is recorded, with ERR = 1 the recorded
code is one R126 assigns to a condition a conforming block reports; while BUSY neither DONE nor ERR is set (R29). -/
def ErrorOk (s : State) : Prop :=
  (s.status.err = false → s.error = ErrorRegs.cleared) ∧
  (s.status.err = true → ∃ e : CmdError, e ≠ .knuthCorrection ∧ s.error.cls = e.cls ∧ s.error.detail = e.detail) ∧
  (s.busy = true → s.status.done = false ∧ s.status.err = false)

/-- At most one of the order flags is set (R25). -/
def FlagsOk (s : State) : Prop :=
  ¬(s.flags.lt = true ∧ s.flags.eq = true) ∧ ¬(s.flags.lt = true ∧ s.flags.gt = true) ∧
    ¬(s.flags.eq = true ∧ s.flags.gt = true)

/-- A valid Montgomery context holds an odd modulus below B^CAP with its length, its R and its inverse (R39). -/
def MctxOk (s : State) : Prop :=
  s.mctx.valid = true →
    s.mctx.m % 2 = 1 ∧ s.mctx.m < s.params.capacity ∧ s.mctx.k = len s.params s.mctx.m ∧
    s.mctx.R = s.params.B ^ s.mctx.k ∧ s.mctx.m * s.mctx.minv % s.mctx.R = 1 ∧
    1 ≤ s.mctx.minv ∧ s.mctx.minv < s.mctx.R

/-- `c` is a candidate of an h-digit search (R118, R120): odd, reached by steps of 2 from an h-digit start with bit 0
set, no prime having been stepped over. -/
def Candidate (h c : Nat) : Prop :=
  c % 2 = 1 ∧ ∃ start, 8 * 16 ^ (h - 1) ≤ start ∧ start ≤ 16 ^ h - 1 ∧ start ≤ c ∧
    ∀ n, start ≤ n → n < c → ¬ n.Prime

/-- The strong-prime test of n with witness a (R110): with n − 1 = e·2^k and e odd, a^e mod n is 1 or some a^(e·2^j) mod n,
j < k, is n − 1. -/
def StrongPass (n a : Nat) : Prop :=
  ∃ e k, n - 1 = e * 2 ^ k ∧ e % 2 = 1 ∧ (a ^ e % n = 1 ∨ ∃ j, j < k ∧ a ^ (e * 2 ^ j) % n = n - 1)

/-- `count` members of [lo, hi] drawn in turn (R10, R111), and what the draws leave of the free inputs. -/
def drawsInTurn (lo hi : Nat) : Nat → Env → List Nat × Env
  | 0, e => ([], e)
  | count + 1, e => ((draw lo hi e).1 :: (drawsInTurn lo hi count (draw lo hi e).2).1,
      (drawsInTurn lo hi count (draw lo hi e).2).2)

/-- `v` is a value is_prime accepted in the search of the state (R116, R123 Primality): for some draws, under the latched
witness mode; in particular no table prime other than v divides v. -/
def Accepted (s : State) (v : Nat) : Prop :=
  (∃ e, (isPrime s.params v s.engine.curWmode e).1 = true) ∧ ∀ q ∈ s.params.table, q ∣ v → q = v

/-- The prime search's state is coherent (R42, R117 to R122). -/
structure SearchOk (s : State) : Prop where
  /-- outside a search every worker is IDLE -/
  idleOutside : s.engine.phase ≠ .search → ∀ v ∈ s.search.workers, v.phase = .idle
  /-- the phase is SEARCH for PSEARCH's opcode and EXEC for every other (R29) -/
  phaseIsOpcode : (s.engine.phase = .search → opField s.engine.curCmd = 0x30) ∧
    (s.engine.phase = .exec → opField s.engine.curCmd ≠ 0x30)
  /-- the token is set exactly when a value is published (R120) -/
  cancelIsFound : s.search.cancel = s.search.found
  /-- once the search has started, CURCMD is a legal PSEARCH, no worker is IDLE, a worker has exited only after a
  publication, every number under test is a candidate, and the published one is a candidate that is_prime accepted -/
  started : s.engine.phase = .search → s.searchUnstarted = false →
    (∃ d imm, decode s.engine.curCmd = .ok (.psearch d imm) ∧ imm ≠ 0 ∧ imm.toNat ≤ s.params.HMAX) ∧
    (∀ v ∈ s.search.workers, v.phase ≠ .idle) ∧
    (∀ v ∈ s.search.workers, v.phase = .exited → s.search.found = true) ∧
    (∀ v ∈ s.search.workers, v.phase = .head ∨ v.phase = .test → Candidate s.searchDigits v.cand) ∧
    (s.search.found = true → Candidate s.searchDigits s.search.value ∧ Accepted s s.search.value)

/-- The invariant of the machine: the coherence of every kind of state. -/
structure Inv (s : State) : Prop where
  regs : RegsOk s
  error : ErrorOk s
  flags : FlagsOk s
  mctx : MctxOk s
  search : SearchOk s

/-- The engine is about to run the command in CURCMD: its completion step in EXEC, or PSEARCH's start step (R20). -/
abbrev CommandPending (s : State) : Prop :=
  s.engine.phase = .exec ∨ (s.engine.phase = .search ∧ s.searchUnstarted = true)

/-- The state once the turn at the head of the free inputs is used. -/
def State.turnUsed (s : State) : State := { s with env := { s.env with turns := s.env.turns.tail } }

/-- The state with another multiplication strategy (R7): the Karatsuba threshold `k`. -/
def State.withStrategy (s : State) (k : Option Nat) : State := { s with params := { s.params with KTHRESH := k } }

/-- A property that holds of every state a step leads to. -/
def Preserved (P : State → Prop) : Prop := ∀ s t : State, P s → step s = .next t → P t

/-- The word a 32-bit host read at an offset of the block returns (R48 to R51). -/
def hostReads (s : State) (off : Nat) : Word := (readLocation (locate off) s).1

/-- The state a 32-bit host write at an offset of the block leaves (R48 to R52). -/
def hostWrites (s : State) (off : Nat) (v : Word) : State := writeLocation (locate off) v s

/-- `k` steps of the machine. -/
def run (k : Nat) (s : State) : Host.Outcome State Fault Refusal := Host.Core.run Sys2Proof.core k s

end Sys2Proof.Machine
end

