-- ==== Sys2Proof/Certificates/Slice0/Obligations.lean ====
section
/-! DEFINITION. The statements for the provers. Each formalises what the rules named in its docstring say a command, an
agent or the whole machine does; a result statement gives the whole next state, so it is also the command's completion
and its frame. -/

open Sys2Proof Sys2Proof.Machine

/-! ### Encoding (R61 to R73) -/

/-- R72, R73: for every well-formed command, decoding its word gives it back, with every operand. -/
def Obligations.DecodeOfEncodeIsIdentity : Prop :=
  ∀ i : Instr, i.WellFormed = true → decode (encode i) = .ok i

/-- R69, R72: a word that decodes is the one word of a well-formed command: no bit of it is dropped. -/
def Obligations.DecodedWordIsTheCommandsOnlyWord : Prop :=
  ∀ (c : Word) (i : Instr), decode c = .ok i → i.WellFormed = true ∧ encode i = c

/-- R67 to R70: exactly the words whose OP is in R67's list of reserved values are refused as reserved opcodes; the
engine raises class 4 with detail 1 for such a word, detail 2 for an assigned OP whose must-be-zero bits are not all zero,
and detail 3 for a DIVREM word that names one register for quotient and remainder; nothing else is written. -/
def Obligations.IllegalWordsRaiseIllegalCommand : Prop :=
  (∀ c : Word, decode c = .error .reservedOpcode ↔
    opField c ∈ [0x00, 0x06, 0x07, 0x0E, 0x0F, 0x16, 0x17, 0x1D, 0x1E, 0x1F, 0x25, 0x26, 0x27, 0x2B, 0x2C, 0x2D, 0x2E,
      0x2F] ∨ 0x31 ≤ opField c) ∧
  (∀ s : State, CommandPending s →
    (decode s.engine.curCmd = .error .reservedOpcode → ∃ t, engineStep s = .next t ∧ Raised s t 4 1) ∧
    (∀ row ∈ opcodeTable, opField s.engine.curCmd = row.op → s.engine.curCmd &&& row.mask ≠ row.matchWord →
      ∃ t, engineStep s = .next t ∧ Raised s t 4 2) ∧
    (s.engine.curCmd &&& 0xFC0003FF = 0x68000000 → dField s.engine.curCmd = cField s.engine.curCmd →
      ∃ t, engineStep s = .next t ∧ Raised s t 4 3))

/-- R73: example words of the assembler table and the programs, one or more a family, decode to the commands printed
beside them. -/
def Obligations.ExampleWordsDecodeAsPrinted : Prop :=
  decode 0x044000FF = .ok (.ldi 1 255) ∧ decode 0x10048000 = .ok (.cmp 1 2) ∧
  decode 0x20C48000 = .ok (.add 3 1 2) ∧ decode 0x4C040007 = .ok (.btst 1 7) ∧
  decode 0x68C49000 = .ok (.divrem 3 4 1 2) ∧ decode 0x91048C00 = .ok (.mexp 4 1 2 3) ∧
  decode 0xA8140000 = .ok (.isprime 5) ∧ decode 0xC04000C0 = .ok (.psearch 1 192)

/-! ### The step (R20, R72) -/

/-- R20, R72: where the engine has the turn, or is the only agent that may step (the host has no access to make, or waits
for BUSY = 0), and CURCMD decodes to `i`, the step is exec of `i`, on the state with the turn used up. This holds in EXEC
and at PSEARCH's start. The turns are the model's free input (log entry 4), and so is a WAIT as one step (log entry 7). -/
def Obligations.StepRunsTheDecodedCommand : Prop :=
  (∀ (s : State) (i : Instr) (rest : List Agent), CommandPending s → s.env.turns = .engine :: rest →
    decode s.engine.curCmd = .ok i → step s = exec i s.turnUsed) ∧
  (∀ (s : State) (i : Instr), CommandPending s → s.host.pending = [] ∨ s.host.pending.head? = some .wait →
    decode s.engine.curCmd = .ok i → step s = exec i s.turnUsed)

/-- R20, R117, R122, R140: who may step, from the state alone: the host with an access to make, BUSY or not (a WAIT only
with BUSY = 0, log entry 7); the engine in EXEC, in SEARCH before the start and when every worker is EXITED; a worker in
SEARCH and in INIT, HEAD or TEST. Every agent that may step can be the one that steps next (the turns are the model's free
input, log entry 4); with no command in progress and no host access to make the block waits, nothing but that record of
turns changing. -/
def Obligations.StepMovesTheNamedAgentOrWaits : Prop :=
  (∀ s : State,
    (Agent.host ∈ enabledAgents s ↔
      ∃ op rest, s.host.pending = op :: rest ∧ (op = .wait → s.engine.phase = .idle)) ∧
    (Agent.engine ∈ enabledAgents s ↔ s.engine.phase = .exec ∨ s.engine.phase = .search ∧
      ((∀ v ∈ s.search.workers, v.phase = .idle) ∨ (∀ v ∈ s.search.workers, v.phase = .exited))) ∧
    (∀ w, Agent.worker w ∈ enabledAgents s ↔ s.engine.phase = .search ∧
      ∃ v, s.search.workers[w]? = some v ∧ (v.phase = .init ∨ v.phase = .head ∨ v.phase = .test))) ∧
  (∀ (s : State) (a : Agent) (rest : List Agent), s.env.turns = a :: rest → a ∈ enabledAgents s →
    step s = agentStep a s.turnUsed) ∧
  (∀ s : State, s.engine.phase = .idle → s.host.pending = [] → step s = .next s.turnUsed)

/-- R24, R29: from any state, the step after a command's word has been placed (the model's stand-in for a fetch, log
entry 6) runs that command on the state its acceptance leaves: CURCMD and CURWMODE latched, DONE clear, the phase its
opcode's, the workers IDLE. -/
def Obligations.PlacedWordIsTheNextCommandRun : Prop :=
  ∀ (s : State) (i : Instr), i.WellFormed = true →
    step (s.withFetchWord 32 (encode i).toNat) =
      exec i { s.idleWorkers with
        status := { s.status with done := false }
        engine :=
          { phase := if opField (encode i) = 0x30 then .search else .exec
            curCmd := encode i
            curWmode := s.ctrl.wmode } }

/-! ### Construction, copy and comparison (R77 to R81) -/

/-- R77, R78, R79: LDI writes the immediate, LDS the scalar and MOV the source; nothing else changes. -/
def Obligations.LoadsAndCopyWriteTheirOperand : Prop :=
  ∀ (s : State) (d a : Reg) (imm : Imm14), RegsOk s →
    (∃ t, exec (.ldi d imm) s = .next t ∧ Wrote s t d imm.toNat) ∧
    (∃ t, exec (.lds d) s = .next t ∧ Wrote s t d s.scalar) ∧
    (∃ t, exec (.mov d a) s = .next t ∧ Wrote s t d (s.reg a))

/-- R80, R81: CMP and CMPS set LT, EQ, GT by the order of the two values, exactly one of them, and write nothing else. -/
def Obligations.ComparisonsSetExactlyOneOrderFlag : Prop :=
  ∀ (s : State) (a b : Reg),
    (∃ t, exec (.cmp a b) s = .next t ∧
      WroteFlags s t { s.flags with
        lt := decide (s.reg a < s.reg b), eq := decide (s.reg a = s.reg b), gt := decide (s.reg b < s.reg a) } ∧
      [t.flags.lt, t.flags.eq, t.flags.gt].count true = 1) ∧
    (∃ t, exec (.cmps a) s = .next t ∧
      WroteFlags s t { s.flags with
        lt := decide (s.reg a < s.scalar), eq := decide (s.reg a = s.scalar), gt := decide (s.scalar < s.reg a) } ∧
      [t.flags.lt, t.flags.eq, t.flags.gt].count true = 1)

/-! ### Addition, subtraction, multiplication (R82 to R87) -/

/-- R82, R84: ADD and ADDS write the exact sum, or raise CapacityExceeded (class 5) where it does not fit. -/
def Obligations.AdditionIsExactOrExceedsCapacity : Prop :=
  ∀ (s : State) (d a b : Reg), s.params.Valid →
    (s.reg a + s.reg b < s.params.capacity →
      ∃ t, exec (.add d a b) s = .next t ∧ Wrote s t d (s.reg a + s.reg b)) ∧
    (s.params.capacity ≤ s.reg a + s.reg b → ∃ t, exec (.add d a b) s = .next t ∧ Raised s t 5 0) ∧
    (s.reg a + s.scalar < s.params.capacity →
      ∃ t, exec (.adds d a) s = .next t ∧ Wrote s t d (s.reg a + s.scalar)) ∧
    (s.params.capacity ≤ s.reg a + s.scalar → ∃ t, exec (.adds d a) s = .next t ∧ Raised s t 5 0)

/-- R83, R85: SUB and SUBS write the exact difference, or raise SUB_UNDERFLOW (class 1, detail 5). -/
def Obligations.SubtractionIsExactOrUnderflows : Prop :=
  ∀ (s : State) (d a b : Reg), RegsOk s →
    (s.reg b ≤ s.reg a → ∃ t v, exec (.sub d a b) s = .next t ∧ v + s.reg b = s.reg a ∧ Wrote s t d v) ∧
    (s.reg a < s.reg b → ∃ t, exec (.sub d a b) s = .next t ∧ Raised s t 1 5) ∧
    (s.scalar ≤ s.reg a → ∃ t v, exec (.subs d a) s = .next t ∧ v + s.scalar = s.reg a ∧ Wrote s t d v) ∧
    (s.reg a < s.scalar → ∃ t, exec (.subs d a) s = .next t ∧ Raised s t 1 5)

/-- R86, R87: MUL and MULS write the exact product, or raise CapacityExceeded where it does not fit; for factors whose
lengths add to more than CAP + 1 it never does. -/
def Obligations.MultiplicationIsExactOrExceedsCapacity : Prop :=
  ∀ (s : State) (d a b : Reg), s.params.Valid →
    (s.reg a * s.reg b < s.params.capacity →
      ∃ t, exec (.mul d a b) s = .next t ∧ Wrote s t d (s.reg a * s.reg b)) ∧
    (s.params.capacity ≤ s.reg a * s.reg b → ∃ t, exec (.mul d a b) s = .next t ∧ Raised s t 5 0) ∧
    (s.reg a * s.scalar < s.params.capacity →
      ∃ t, exec (.muls d a) s = .next t ∧ Wrote s t d (s.reg a * s.scalar)) ∧
    (s.params.capacity ≤ s.reg a * s.scalar → ∃ t, exec (.muls d a) s = .next t ∧ Raised s t 5 0) ∧
    (s.reg a ≠ 0 → s.reg b ≠ 0 → s.params.CAP + 1 < len s.params (s.reg a) + len s.params (s.reg b) →
      ∃ t, exec (.mul d a b) s = .next t ∧ Raised s t 5 0)

/-! ### Shifts and bits (R88 to R93) -/

/-- R88: SHR writes ⌊a / 2^k⌋ for k up to the limb width, and raises SHIFT_TOO_LARGE (class 1, detail 3) above it. -/
def Obligations.ShiftRightUpToOneLimbWidth : Prop :=
  ∀ (s : State) (d a : Reg) (imm : Imm14), RegsOk s →
    (imm.toNat ≤ s.params.W → ∃ t, exec (.shr d a imm) s = .next t ∧ Wrote s t d (s.reg a / 2 ^ imm.toNat)) ∧
    (s.params.W < imm.toNat → ∃ t, exec (.shr d a imm) s = .next t ∧ Raised s t 1 3)

/-- R89, R90: SHLL writes a·B^k, and raises CapacityExceeded exactly when a ≠ 0 and len(a) + k > CAP; SHRL writes
⌊a / B^k⌋. -/
def Obligations.LimbShiftsMoveWholeLimbs : Prop :=
  ∀ (s : State) (d a : Reg) (imm : Imm14), RegsOk s →
    (s.reg a = 0 ∨ len s.params (s.reg a) + imm.toNat ≤ s.params.CAP →
      ∃ t, exec (.shll d a imm) s = .next t ∧ Wrote s t d (s.reg a * s.params.B ^ imm.toNat)) ∧
    (s.reg a ≠ 0 ∧ s.params.CAP < len s.params (s.reg a) + imm.toNat →
      ∃ t, exec (.shll d a imm) s = .next t ∧ Raised s t 5 0) ∧
    (∃ t, exec (.shrl d a imm) s = .next t ∧ Wrote s t d (s.reg a / s.params.B ^ imm.toNat))

/-- R91: BTST sets T to bit b of the value, and an index at or above msb(a) reads 0. -/
def Obligations.BitTestReadsTheIndexedBit : Prop :=
  ∀ (s : State) (a : Reg) (imm : Imm14),
    (∃ t, exec (.btst a imm) s = .next t ∧
      WroteFlags s t { s.flags with t := (s.reg a).testBit imm.toNat }) ∧
    (s.params.Valid → msb s.params (s.reg a) ≤ imm.toNat →
      ∃ t, exec (.btst a imm) s = .next t ∧ t.flags.t = false)

/-- R92: below CAP·W, BSET writes the value that has bit b set and every other bit as the source; at or above it raises
CapacityExceeded. -/
def Obligations.BitSetSetsOneBitOrExceedsCapacity : Prop :=
  ∀ (s : State) (d a : Reg) (imm : Imm14), RegsOk s →
    (imm.toNat < s.params.CAP * s.params.W →
      ∃ t v, exec (.bset d a imm) s = .next t ∧ Wrote s t d v ∧
        ∀ j, v.testBit j = (decide (j = imm.toNat) || (s.reg a).testBit j)) ∧
    (s.params.CAP * s.params.W ≤ imm.toNat → ∃ t, exec (.bset d a imm) s = .next t ∧ Raised s t 5 0)

/-- R9, R93: MSB writes the least b with a < 2^b, which is 0 for 0. -/
def Obligations.MsbWritesTheBitLength : Prop :=
  ∀ (s : State) (d a : Reg), RegsOk s →
    ∃ t v, exec (.msb d a) s = .next t ∧ Wrote s t d v ∧ s.reg a < 2 ^ v ∧ ∀ c, s.reg a < 2 ^ c → v ≤ c

/-! ### Division (R94 to R101) -/

/-- R94, R97, R98, R99: for a non-zero divisor DIV, MOD and DIVREM write the quotient and remainder that R94 fixes;
DIVREM's two writes happen together, from sources read first; a zero divisor raises DIV_BY_ZERO (class 1, detail 1), and
a DIVREM term with one destination, which no word encodes, raises DEST_CONFLICT (class 4, detail 3), as the model
chooses (log entry 21). -/
def Obligations.DivisionWritesQuotientAndRemainder : Prop :=
  ∀ (s : State) (d e a b : Reg), RegsOk s →
    (s.reg b ≠ 0 → ∃ q r, s.reg a = q * s.reg b + r ∧ r < s.reg b ∧
      (∃ t, exec (.div d a b) s = .next t ∧ Wrote s t d q) ∧
      (∃ t, exec (.mod d a b) s = .next t ∧ Wrote s t d r) ∧
      (d ≠ e → ∃ t, exec (.divrem d e a b) s = .next t ∧ t.reg d = q ∧ t.reg e = r ∧
        t.written[d] = true ∧ t.written[e] = true ∧
        (∀ v : Reg, v ≠ d → v ≠ e → t.x[v] = s.x[v] ∧ t.written[v] = s.written[v]) ∧
        t = { s.ended with x := t.x, written := t.written })) ∧
    (s.reg b = 0 →
      (∃ t, exec (.div d a b) s = .next t ∧ Raised s t 1 1) ∧
      (∃ t, exec (.mod d a b) s = .next t ∧ Raised s t 1 1) ∧
      (d ≠ e → ∃ t, exec (.divrem d e a b) s = .next t ∧ Raised s t 1 1)) ∧
    (∃ t, exec (.divrem d d a b) s = .next t ∧ Raised s t 4 3)

/-- R100, R101: DIVS and MODS divide by SCALAR; a zero SCALAR raises DIV_BY_ZERO. -/
def Obligations.ScalarDivisionWritesQuotientOrRemainder : Prop :=
  ∀ (s : State) (d a : Reg), RegsOk s →
    (s.scalar ≠ 0 → ∃ q r, s.reg a = q * s.scalar + r ∧ r < s.scalar ∧
      (∃ t, exec (.divs d a) s = .next t ∧ Wrote s t d q) ∧
      (∃ t, exec (.mods d a) s = .next t ∧ Wrote s t d r)) ∧
    (s.scalar = 0 →
      (∃ t, exec (.divs d a) s = .next t ∧ Raised s t 1 1) ∧
      (∃ t, exec (.mods d a) s = .next t ∧ Raised s t 1 1))

/-- R95, R96, C2, C7: the engine's corrected Algorithm D gives divmod(a, d) for every divisor of at least two limbs, its
correction check never failing, and the single-limb walk gives it for every non-zero divisor below B. -/
def Obligations.DivisionEngineAlgorithmsComputeDivmod : Prop :=
  ∀ (p : Params) (a d : Nat), p.Valid →
    (2 ≤ len p d → knuth p a d = .ok (a / d, a % d)) ∧
    (1 ≤ d → d < p.B → shortDivide p a d (len p a) 0 0 = (a / d, a % d))

/-! ### Montgomery (R102 to R108) -/

/-- R102, R104: MSETUP on an odd register sets MCTX to its context, valid, with the inverse of m modulo R, and writes
nothing else; on an even one it raises EVEN_MODULUS (class 1, detail 2) and MCTX keeps its value. -/
def Obligations.MsetupBuildsTheContext : Prop :=
  ∀ (s : State) (a : Reg),
    (s.reg a % 2 = 1 → s.params.Valid → ∃ t, exec (.msetup a) s = .next t ∧ t = { s.ended with mctx := t.mctx } ∧
      t.mctx.valid = true ∧ t.mctx.m = s.reg a ∧ t.mctx.k = len s.params (s.reg a) ∧
      t.mctx.R = s.params.B ^ t.mctx.k ∧ s.reg a * t.mctx.minv % t.mctx.R = 1 ∧
      1 ≤ t.mctx.minv ∧ t.mctx.minv < t.mctx.R) ∧
    (s.reg a % 2 = 0 → ∃ t, exec (.msetup a) s = .next t ∧ Raised s t 1 2)

/-- R105: MTOM writes x·R mod m, or raises NO_MONT_CONTEXT (class 1, detail 8) without a context. -/
def Obligations.MtomConvertsToMontgomeryForm : Prop :=
  ∀ (s : State) (d a : Reg), RegsOk s → MctxOk s →
    (s.mctx.valid = true → ∃ t, exec (.mtom d a) s = .next t ∧ Wrote s t d (s.reg a * s.mctx.R % s.mctx.m)) ∧
    (s.mctx.valid = false → ∃ t, exec (.mtom d a) s = .next t ∧ Raised s t 1 8)

/-- R103, R106: MMUL on inputs below m writes the residue a·b·R^(-1) mod m; on any inputs it writes the exact value of
R103, which times R is a·b modulo m, or raises CapacityExceeded where that does not fit; without a context it raises
NO_MONT_CONTEXT. -/
def Obligations.MmulIsTheMontgomeryProduct : Prop :=
  ∀ (s : State) (d a b : Reg), RegsOk s → MctxOk s →
    (s.mctx.valid = true → s.reg a < s.mctx.m → s.reg b < s.mctx.m →
      ∃ t v, exec (.mmul d a b) s = .next t ∧ Wrote s t d v ∧ v < s.mctx.m ∧
        v * s.mctx.R % s.mctx.m = s.reg a * s.reg b % s.mctx.m) ∧
    (s.mctx.valid = true → montmul s.mctx (s.reg a) (s.reg b) < s.params.capacity →
      ∃ t, exec (.mmul d a b) s = .next t ∧ Wrote s t d (montmul s.mctx (s.reg a) (s.reg b)) ∧
        t.reg d * s.mctx.R % s.mctx.m = s.reg a * s.reg b % s.mctx.m) ∧
    (s.mctx.valid = true → s.params.capacity ≤ montmul s.mctx (s.reg a) (s.reg b) →
      ∃ t, exec (.mmul d a b) s = .next t ∧ Raised s t 5 0) ∧
    (s.mctx.valid = false → ∃ t, exec (.mmul d a b) s = .next t ∧ Raised s t 1 8)

/-- R107: MRED writes montmul(a, 1), never exceeds the capacity, and for a < m·R gives a·R^(-1) mod m; without a context
it raises NO_MONT_CONTEXT. -/
def Obligations.MredConvertsOutAndAlwaysFits : Prop :=
  ∀ (s : State) (d a : Reg), RegsOk s → MctxOk s →
    (s.mctx.valid = true → ∃ t v, exec (.mred d a) s = .next t ∧ Wrote s t d v ∧ v = montmul s.mctx (s.reg a) 1 ∧
      (s.reg a < s.mctx.m * s.mctx.R → v < s.mctx.m ∧ v * s.mctx.R % s.mctx.m = s.reg a % s.mctx.m)) ∧
    (s.mctx.valid = false → ∃ t, exec (.mred d a) s = .next t ∧ Raised s t 1 8)

/-- R108: MEXP writes base^exp mod m for every base, exponent and odd modulus, and raises EVEN_MODULUS for an even one;
MCTX is untouched. -/
def Obligations.MexpIsModularExponentiation : Prop :=
  ∀ (s : State) (d a b c : Reg), RegsOk s →
    (s.reg c % 2 = 1 →
      ∃ t, exec (.mexp d a b c) s = .next t ∧ Wrote s t d (s.reg a ^ s.reg b % s.reg c)) ∧
    (s.reg c % 2 = 0 → ∃ t, exec (.mexp d a b c) s = .next t ∧ Raised s t 1 2)

/-! ### Primality (R109 to R115) -/

/-- R9, R40: TABLE is the list of the first NSIEVE primes in increasing order. -/
def Obligations.SieveTableIsTheFirstPrimes : Prop :=
  ∀ p : Params, p.Valid → p.table = (List.range p.NSIEVE).map (Nat.nth Nat.Prime)

/-- R109, R113: SIEVE sets P exactly when no table prime other than n divides n, and writes nothing else. -/
def Obligations.SieveFindsTablePrimeDivisors : Prop :=
  ∀ (s : State) (a : Reg), s.params.Valid →
    ∃ t, exec (.sieve a) s = .next t ∧ WroteFlags s t { s.flags with p := t.flags.p } ∧
      (t.flags.p = true ↔ ∀ q ∈ s.params.table, q ∣ s.reg a → q = s.reg a)

/-- R110, R114: for odd n ≥ 3 with n − 1 = e·2^k and e odd, MRROUND sets P exactly when a^e mod n is 1 or some
a^(e·2^j), j < k, is n − 1 modulo n; for other n it raises MR_DOMAIN (class 1, detail 7). -/
def Obligations.MrroundIsTheStrongPrimeTest : Prop :=
  ∀ (s : State) (a b : Reg), RegsOk s →
    (∀ e k, 3 ≤ s.reg a → s.reg a % 2 = 1 → s.reg a - 1 = e * 2 ^ k → e % 2 = 1 →
      ∃ t, exec (.mrround a b) s = .next t ∧ WroteFlags s t { s.flags with p := t.flags.p } ∧
        (t.flags.p = true ↔ s.reg b ^ e % s.reg a = 1 ∨
          ∃ j, j < k ∧ s.reg b ^ (e * 2 ^ j) % s.reg a = s.reg a - 1)) ∧
    (s.reg a < 3 ∨ s.reg a % 2 = 0 → ∃ t, exec (.mrround a b) s = .next t ∧ Raised s t 1 7)

/-- R9, R110, R111, R112, R115: ISPRIME always completes and writes P alone, the verdict of is_prime, besides the draws it
takes; P is 1 on every prime, for every draw and both witness modes, so P = 0 proves the number composite or below 2; the
step-1 cases are exact. is_prime of an odd n > 3, whether ISPRIME or a worker's TEST calls it: a table prime is accepted and a
number with another table prime as divisor rejected, neither taking a draw; on any other, the verdict is 1 exactly when each
of the ITER(msb n) witnesses drawn in turn from [2, 32769] (mode 0, SOURCE) or [2, n − 2] (mode 1, FULL) passes the
strong-prime test, and the draws end with the first witness that fails (the free inputs are the model's: log entry 3). -/
def Obligations.IsprimeAcceptsPrimesAndRunsTheWitnessRounds : Prop :=
  (∀ (s : State) (a : Reg), RegsOk s → ∃ t, exec (.isprime a) s = .next t ∧
    t = { s.ended with
      flags := { s.flags with p := t.flags.p }
      env := { s.env with entropy := t.env.entropy, freeCount := t.env.freeCount } } ∧
    (t.flags.p, t.env) = isPrime s.params (s.reg a) s.engine.curWmode s.env ∧
    ((s.reg a).Prime → t.flags.p = true) ∧ (s.reg a < 2 → t.flags.p = false) ∧
    (2 < s.reg a → s.reg a % 2 = 0 → t.flags.p = false)) ∧
  (∀ (p : Params) (n : Nat) (mode : Bool) (e : Env), p.Valid → 3 < n → n % 2 = 1 →
    (n ∈ p.table → isPrime p n mode e = (true, e)) ∧
    (∀ q ∈ p.table, q ∣ n → q ≠ n → isPrime p n mode e = (false, e)) ∧
    (∀ b iter hi, (∀ q ∈ p.table, ¬ q ∣ n) → 2 ^ (b - 1) ≤ n → n < 2 ^ b →
      iter = (if b < 100 then 50 else if b < 256 then 27 else if b < 512 then 15 else if b < 768 then 8
        else if b < 1024 then 4 else 2) →
      hi = (if mode = true then n - 2 else 32769) →
      ((isPrime p n mode e).1 = true ↔ ∀ a ∈ (drawsInTurn 2 hi iter e).1, StrongPass n a) ∧
      ((isPrime p n mode e).1 = true → (isPrime p n mode e).2 = (drawsInTurn 2 hi iter e).2) ∧
      ((isPrime p n mode e).1 = false → ∃ k, k < iter ∧ (∀ a ∈ (drawsInTurn 2 hi k e).1, StrongPass n a) ∧
        ¬ StrongPass n (draw 2 hi (drawsInTurn 2 hi k e).2).1 ∧
        (isPrime p n mode e).2 = (drawsInTurn 2 hi (k + 1) e).2)))

/-- R112 (exact below P1²), R115: with the default table ISPRIME is exact below 7063898209, whatever the draws; with any
table it is exact below the square of any bound up to which the table holds every prime. -/
def Obligations.IsprimeIsExactBelowTheTableSquare : Prop :=
  ∀ (s : State) (a : Reg), RegsOk s →
    (s.params.NSIEVE = 8192 → s.reg a < 7063898209 →
      ∃ t, exec (.isprime a) s = .next t ∧ (t.flags.p = true ↔ (s.reg a).Prime)) ∧
    (∀ bound, (∀ q, q.Prime → q < bound → q ∈ s.params.table) → s.reg a < bound * bound →
      ∃ t, exec (.isprime a) s = .next t ∧ (t.flags.p = true ↔ (s.reg a).Prime))

/-! ### The prime search (R116 to R123) -/

/-- R116, R117: PSEARCH's start step releases every worker with found and cancel false for a legal digit count, and
raises SEARCH_WIDTH (class 1, detail 6) for h = 0 or h > HMAX. -/
def Obligations.PsearchStartReleasesTheWorkers : Prop :=
  ∀ (s : State) (d : Reg) (imm : Imm14),
    (imm ≠ 0 → imm.toNat ≤ (s.params.CAP * s.params.W - 1) / 4 →
      ∃ t, exec (.psearch d imm) s = .next t ∧
        t = { s with
          engine := { s.engine with phase := .search }
          search := { s.search with found := false, cancel := false, workers := t.search.workers } } ∧
        t.search.workers.length = s.search.workers.length ∧ (∀ v ∈ t.search.workers, v.phase = .init)) ∧
    (imm = 0 ∨ (s.params.CAP * s.params.W - 1) / 4 < imm.toNat →
      ∃ t, exec (.psearch d imm) s = .next t ∧ Raised s t 1 6)

/-- R118, R119: INIT gives the worker an h-digit start with bit 0 set, first digit 8 to F, and every such start can be
drawn; HEAD reads the cancellation token. No other worker and nothing else is written. -/
def Obligations.WorkerInitAndHeadSteps : Prop :=
  ∀ (s : State) (w : Nat) (v : Worker), s.search.workers[w]? = some v →
    (v.phase = .init → 1 ≤ s.searchDigits →
      (∃ start, 8 * 16 ^ (s.searchDigits - 1) ≤ start ∧ start ≤ 16 ^ s.searchDigits - 1 ∧
        workerStep w s = { s with
          env := (workerStep w s).env
          search := { s.search with
            workers := s.search.workers.set w ⟨.head, if start % 2 = 1 then start else start + 1⟩ } }) ∧
      (∀ start, 8 * 16 ^ (s.searchDigits - 1) ≤ start → start ≤ 16 ^ s.searchDigits - 1 →
        ∃ a, (workerStep w { s with env := { s.env with entropy := [a] } }).search.workers[w]? =
          some ⟨.head, if start % 2 = 1 then start else start + 1⟩)) ∧
    (v.phase = .head →
      workerStep w s = { s with search := { s.search with
        workers := s.search.workers.set w ⟨if s.search.cancel then .exited else .test, v.cand⟩ } })

/-- R120, R121, R35: TEST decides by is_prime of the candidate; a prime is published if none is yet, the token is set and
the worker exits; otherwise the worker goes on with the next odd number. An error of the call would set WERR, add one to
WERRCNT up to 0xFFFFFFFF and go on likewise. -/
def Obligations.WorkerTestPublishesLogsOrMovesOn : Prop :=
  ∀ (s : State) (w : Nat) (v : Worker),
    (s.search.workers[w]? = some v → v.phase = .test →
      (isPrime s.params v.cand s.engine.curWmode s.env).1 = true ∧
        workerStep w s = { s with
          env := (isPrime s.params v.cand s.engine.curWmode s.env).2
          search :=
            { found := true
              value := if s.search.found = true then s.search.value else v.cand
              cancel := true
              workers := s.search.workers.set w ⟨.exited, v.cand⟩ } } ∨
      (isPrime s.params v.cand s.engine.curWmode s.env).1 = false ∧
        workerStep w s = { s with
          env := (isPrime s.params v.cand s.engine.curWmode s.env).2
          search := { s.search with workers := s.search.workers.set w ⟨.head, v.cand + 2⟩ } }) ∧
    afterTest w v .raised s = { s with
      status := { s.status with werr := true }
      werrCnt := BitVec.ofNat 32 (min (s.werrCnt.toNat + 1) (2 ^ 32 - 1))
      search := { s.search with workers := s.search.workers.set w ⟨.head, v.cand + 2⟩ } }

/-- R120 (first writer wins): once a value is published, no step of the same search changes it. -/
def Obligations.PublishedValueIsWrittenOnce : Prop :=
  ∀ s t : State, s.engine.phase = .search → s.searchUnstarted = false → s.search.found = true →
    step s = .next t → t.engine.phase = .search → t.search.found = true ∧ t.search.value = s.search.value

/-- R122, R123: when every worker has exited, the finish step writes the published value to x[D], marks it written and sets
P, DONE and IDLE; it never raises. The value lies strictly between 2^(4h-1) and 2^(4h+1) and is one is_prime accepted, so no
table prime other than it divides it; below 7063898209 with the default table, and for h ≤ 4 with any, it is prime. -/
def Obligations.PsearchFinishCommitsAValueInRange : Prop :=
  ∀ s : State, Inv s → s.engine.phase = .search → s.searchUnstarted = false → s.searchEnded = true →
    ∃ t, engineStep s = .next t ∧
      t.reg (dField s.engine.curCmd) = s.search.value ∧ t.written[dField s.engine.curCmd] = true ∧
      t.flags = { s.flags with p := true } ∧
      (∀ r : Reg, r ≠ dField s.engine.curCmd → t.x[r] = s.x[r] ∧ t.written[r] = s.written[r]) ∧
      (∀ v ∈ t.search.workers, v.phase = .idle) ∧
      t = { s.ended with
        x := t.x
        written := t.written
        flags := t.flags
        search := { s.search with workers := t.search.workers } } ∧
      2 ^ (4 * s.searchDigits - 1) < s.search.value ∧ s.search.value < 2 ^ (4 * s.searchDigits + 1) ∧
      (∃ e, (isPrime s.params s.search.value s.engine.curWmode e).1 = true) ∧
      (∀ q ∈ s.params.table, q ∣ t.reg (dField s.engine.curCmd) → q = t.reg (dField s.engine.curCmd)) ∧
      (s.params.NSIEVE = 8192 → t.reg (dField s.engine.curCmd) < 7063898209 →
        (t.reg (dField s.engine.curCmd)).Prime) ∧
      (s.searchDigits ≤ 4 → (t.reg (dField s.engine.curCmd)).Prime)

/-- R116, R123: from every state in which a legal PSEARCH starts, some interleaving of the agents (a list of turns, log
entry 4) ends the search, the destination holding the found value and marked written, in range, with P, DONE and IDLE, and
every other register as before. -/
def Obligations.PsearchCanAlwaysComplete : Prop :=
  ∀ (s : State) (d : Reg) (imm : Imm14), Inv s → s.engine.phase = .search → s.searchUnstarted = true →
    s.engine.curCmd = encode (.psearch d imm) → imm ≠ 0 → imm.toNat ≤ s.params.HMAX →
    ∃ t0, exec (.psearch d imm) s = .next t0 ∧
      ∃ (turns : List Agent) (t : State),
        run turns.length { t0 with env := { t0.env with turns := turns } } = .next t ∧
        t.engine.phase = .idle ∧ t.status.done = true ∧ t.status.err = false ∧ t.flags.p = true ∧
        t.search.found = true ∧ t.reg d = t.search.value ∧ t.written[d] = true ∧
        2 ^ (4 * imm.toNat - 1) < t.reg d ∧ t.reg d < 2 ^ (4 * imm.toNat + 1) ∧
        (∀ r : Reg, r ≠ d → t.x[r] = s.x[r])

/-! ### Whole-machine rules over all commands -/

/-- R41, R76: every command answers a next state; every one but PSEARCH, whose exec is its start step (log entry 16), then
has DONE set and the engine IDLE. -/
def Obligations.EveryCommandAnswersAndAllButPsearchComplete : Prop :=
  ∀ (i : Instr) (s : State), ∃ t, exec i s = .next t ∧
    ((∀ d imm, i ≠ .psearch d imm) → t.status.done = true ∧ t.engine.phase = .idle)

/-- R21, R25, R26, R39, R135: which command can write what. A command writes no register but its destinations; no
command writes SCALAR, CTRL, WERRCNT, OVR, WERR, the command latches or anything outside the block; MCTX is MSETUP's; LT,
EQ, GT are the comparisons', T is BTST's and P the primality commands'; the search state is PSEARCH's; draws are
ISPRIME's. PSEARCH's exec is its start step. -/
def Obligations.CommandsWriteOnlyTheirOwnState : Prop :=
  ∀ (i : Instr) (s t : State), exec i s = .next t →
    t.params = s.params ∧ t.scalar = s.scalar ∧ t.ctrl = s.ctrl ∧ t.werrCnt = s.werrCnt ∧
    t.status.ovr = s.status.ovr ∧ t.status.werr = s.status.werr ∧ t.engine.curCmd = s.engine.curCmd ∧
    t.engine.curWmode = s.engine.curWmode ∧ t.host = s.host ∧ t.env.turns = s.env.turns ∧
    (∀ r : Reg, r ∉ destinations i → t.x[r] = s.x[r] ∧ t.written[r] = s.written[r]) ∧
    ((∀ a, i ≠ .msetup a) → t.mctx = s.mctx) ∧
    ((∀ a b, i ≠ .cmp a b) → (∀ a, i ≠ .cmps a) →
      t.flags.lt = s.flags.lt ∧ t.flags.eq = s.flags.eq ∧ t.flags.gt = s.flags.gt) ∧
    ((∀ a imm, i ≠ .btst a imm) → t.flags.t = s.flags.t) ∧
    ((∀ a, i ≠ .sieve a) → (∀ a b, i ≠ .mrround a b) → (∀ a, i ≠ .isprime a) → t.flags.p = s.flags.p) ∧
    ((∀ d imm, i ≠ .psearch d imm) → t.search = s.search) ∧
    ((∀ a, i ≠ .isprime a) → t.env = s.env)

/-- R125, R127: errors are precise. A command that sets ERR has written nothing but the error status, with its own word
in ERRCMD. -/
def Obligations.ErrorsArePrecise : Prop :=
  ∀ (i : Instr) (s t : State), exec i s = .next t → s.status.err = false → t.status.err = true →
    ∃ cls detail, Raised s t cls detail

/-- R34: a WMODE write during a command affects only later commands, and no other CTRL bit matters to one: not to any
command's exec, nor to any engine step (an illegal word's and the finish step of PSEARCH among them), nor to any worker step
of a search in progress, whose tests use the latched witness mode. -/
def Obligations.ControlRegisterDoesNotAffectTheCommandInProgress : Prop :=
  (∀ (i : Instr) (s t : State) (c : Ctrl), exec i s = .next t →
    exec i { s with ctrl := c } = .next { t with ctrl := c }) ∧
  (∀ (s t : State) (c : Ctrl), engineStep s = .next t →
    engineStep { s with ctrl := c } = .next { t with ctrl := c }) ∧
  (∀ (s : State) (w : Nat) (c : Ctrl), workerStep w { s with ctrl := c } = { workerStep w s with ctrl := c })

/-- R127, R129: while ERR = 1 and no command is in progress no command starts, and ERRCODE and ERRCMD keep the first error
until it is cleared as a whole. -/
def Obligations.FirstErrorIsKeptUntilCleared : Prop :=
  ∀ s t : State, s.engine.phase = .idle → s.status.err = true → step s = .next t →
    t.engine.phase = .idle ∧
    ((t.status.err = true ∧ t.error = s.error) ∨ (t.status.err = false ∧ t.error = ErrorRegs.cleared))

/-- R131, R132: a command that ends with IE_DONE set, or raises with IE_ERR set, drives irq: every command's exec but
PSEARCH's start, PSEARCH's SEARCH_WIDTH error, its finish step, and every engine step that ends a command (an illegal word's
as well); writing 1 to DONE and ERR releases it in the same host step. -/
def Obligations.CompletionDrivesTheInterruptLine : Prop :=
  (∀ (i : Instr) (s t : State), (∀ d imm, i ≠ .psearch d imm) → exec i s = .next t →
    irq t = (s.ctrl.ieDone || (t.status.err && s.ctrl.ieErr))) ∧
  (∀ (s : State) (d : Reg) (imm : Imm14), imm = 0 ∨ s.params.HMAX < imm.toNat →
    ∃ t, exec (.psearch d imm) s = .next t ∧ irq t = (s.ctrl.ieDone || s.ctrl.ieErr)) ∧
  (∀ s : State, s.engine.phase = .search → s.searchUnstarted = false → s.searchEnded = true →
    ∃ t, engineStep s = .next t ∧ irq t = (s.ctrl.ieDone || (t.status.err && s.ctrl.ieErr))) ∧
  (∀ s t : State, s.engine.phase ≠ .idle → engineStep s = .next t → t.engine.phase = .idle →
    irq t = (s.ctrl.ieDone || (t.status.err && s.ctrl.ieErr))) ∧
  (∀ (s : State) (v : Word), v.getLsbD 1 = true → v.getLsbD 2 = true → irq (hostWrites s 0x00C v) = false)

/-- R10: a draw (the model's form of one: log entry 3) is always a member of its set, every member can be drawn, and a
draw changes no turn. -/
def Obligations.DrawsRangeOverTheirWholeSet : Prop :=
  ∀ (lo hi : Nat) (e : Env), lo ≤ hi →
    lo ≤ (draw lo hi e).1 ∧ (draw lo hi e).1 ≤ hi ∧ (draw lo hi e).2.turns = e.turns ∧
    ∀ v, lo ≤ v → v ≤ hi → ∃ a, (draw lo hi { e with entropy := [a] }).1 = v

/-! ### The host register space (R26 to R38, R45 to R53) -/

/-- R29: a CMD write is accepted exactly when BUSY and ERR are 0, and STATUS.BUSY then reads 1; otherwise it sets OVR
and does nothing else. CMD reads 0. -/
def Obligations.CommandWriteIsAcceptedOrSetsOvr : Prop :=
  ∀ (s : State) (c : Word),
    (s.engine.phase = .idle → s.status.err = false →
      hostWrites s 0x008 c = { s with
        status := { s.status with done := false }
        engine :=
          { phase := if c.toNat / 2 ^ 26 = 0x30 then .search else .exec
            curCmd := c
            curWmode := s.ctrl.wmode } } ∧
        (hostReads (hostWrites s 0x008 c) 0x00C).getLsbD 0 = true) ∧
    (s.engine.phase ≠ .idle ∨ s.status.err = true →
      hostWrites s 0x008 c = { s with status := { s.status with ovr := true } }) ∧
    hostReads s 0x008 = 0

/-- R30: STATUS reads the stored bits and the flags at their places while idle, and a write clears exactly the W1C bits
written 1, ERRCODE and ERRCMD going with ERR; every other bit ignores the write. -/
def Obligations.StatusReadsAndWriteOneToClear : Prop :=
  ∀ (s : State) (v : Word),
    (s.engine.phase = .idle → hostReads s 0x00C = BitVec.ofNat 32
      (s.status.done.toNat * 2 ^ 1 + s.status.err.toNat * 2 ^ 2 + s.status.ovr.toNat * 2 ^ 3 +
        s.status.werr.toNat * 2 ^ 4 + s.flags.lt.toNat * 2 ^ 8 + s.flags.eq.toNat * 2 ^ 9 +
        s.flags.gt.toNat * 2 ^ 10 + s.flags.t.toNat * 2 ^ 11 + s.flags.p.toNat * 2 ^ 12)) ∧
    hostWrites s 0x00C v = { s with
      status := { done := if v.getLsbD 1 then false else s.status.done
                  err := if v.getLsbD 2 then false else s.status.err
                  ovr := if v.getLsbD 3 then false else s.status.ovr
                  werr := if v.getLsbD 4 then false else s.status.werr }
      error := if v.getLsbD 2 then ErrorRegs.cleared else s.error }

/-- R33, R51: SCALAR_LO reads bits 31:0 of SCALAR and (W = 64) SCALAR_HI bits 63:32, BUSY or not; with BUSY = 0 a write
to either replaces those 32 bits, reads return them, and nothing else changes; SCALAR_HI is read-as-zero, write-ignored
when W = 32; with BUSY = 1 a write to bits of SCALAR only sets OVR. -/
def Obligations.ScalarHalvesReadAndWrite : Prop :=
  ∀ (s : State) (v : Word), RegsOk s →
    hostReads s 0x018 = BitVec.ofNat 32 (s.scalar % 2 ^ 32) ∧
    (s.params.W = 64 → hostReads s 0x01C = BitVec.ofNat 32 (s.scalar / 2 ^ 32)) ∧
    (s.engine.phase = .idle →
      (hostWrites s 0x018 v = { s with scalar := s.scalar / 2 ^ 32 * 2 ^ 32 + v.toNat } ∧
        hostReads (hostWrites s 0x018 v) 0x018 = v) ∧
      (s.params.W = 64 → hostWrites s 0x01C v = { s with scalar := s.scalar % 2 ^ 32 + v.toNat * 2 ^ 32 } ∧
        hostReads (hostWrites s 0x01C v) 0x01C = v) ∧
      (s.params.W = 32 → hostWrites s 0x01C v = s)) ∧
    (s.params.W = 32 → hostReads s 0x01C = 0) ∧
    (s.engine.phase ≠ .idle →
      hostWrites s 0x018 v = { s with status := { s.status with ovr := true } } ∧
      (s.params.W = 64 → hostWrites s 0x01C v = { s with status := { s.status with ovr := true } }))

/-- R34, R142, R143: a CTRL write without SRST replaces IE_DONE, IE_ERR and WMODE and nothing else, and the register
reads them at bits 0, 1 and 3 with every other bit 0. One with SRST = 1 ends any command without committing it: everything
but the operand registers, their marks and SCALAR takes its reset value, whatever the other bits hold, and CTRL reads 0. -/
def Obligations.ControlWriteAndSoftReset : Prop :=
  ∀ (s : State) (v : Word),
    (v.getLsbD 2 = false →
      hostWrites s 0x020 v = { s with
        ctrl := { ieDone := v.getLsbD 0, ieErr := v.getLsbD 1, wmode := v.getLsbD 3 } } ∧
      hostReads (hostWrites s 0x020 v) 0x020 = v &&& 0x0000000B) ∧
    (v.getLsbD 2 = true →
      ∃ t, hostWrites s 0x020 v = t ∧
        t.params = s.params ∧ t.x = s.x ∧ t.written = s.written ∧ t.scalar = s.scalar ∧ t.host = s.host ∧
        t.env.turns = s.env.turns ∧ t.env.entropy = s.env.entropy ∧
        t.status = ⟨false, false, false, false⟩ ∧ t.flags = ⟨false, false, false, false, false⟩ ∧
        t.error = ⟨0, 0, 0⟩ ∧ t.ctrl = ⟨false, false, false⟩ ∧ t.werrCnt = 0 ∧ t.engine = ⟨.idle, 0, false⟩ ∧
        t.mctx.valid = false ∧ t.search.found = false ∧ t.search.cancel = false ∧
        t.search.workers.length = s.params.NWORK ∧ (∀ w ∈ t.search.workers, w.phase = .idle) ∧
        hostReads t 0x020 = 0)

/-- R141, R142, R144: a hardware reset (the host-side event `rst`, log entry 9), whatever was in progress, leaves every register the spec gives a reset value at
that value, no operand register written, nothing pending in the engine and the interrupt line low. -/
def Obligations.HardwareResetState : Prop :=
  ∀ (s : State) (rest : List HostOp), s.host.pending = .rst :: rest → s.params.Valid →
    ∃ t, hostStep s = .next t ∧ RegsOk t ∧ t.params = s.params ∧
      (∀ r : Reg, t.written[r] = false) ∧ t.scalar = 0 ∧
      t.status = ⟨false, false, false, false⟩ ∧ t.flags = ⟨false, false, false, false, false⟩ ∧
      t.error = ⟨0, 0, 0⟩ ∧ t.ctrl = ⟨false, false, false⟩ ∧ t.werrCnt = 0 ∧ t.engine = ⟨.idle, 0, false⟩ ∧
      t.mctx.valid = false ∧ t.search.found = false ∧ t.search.cancel = false ∧
      (∀ w ∈ t.search.workers, w.phase = .idle) ∧ irq t = false ∧ t.host.pending = rest

/-- R38, R50: with BUSY = 0 a write to window word k replaces exactly bits 32k to 32k+31 of the value and marks the
register; a read returns those bits; beyond CAP·W/32 the word is read-as-zero, write-ignored. -/
def Obligations.WindowWordReadsAndWrites : Prop :=
  ∀ (s : State) (r : Reg) (k : Nat) (u : Word), RegsOk s → s.engine.phase = .idle → k < 1024 →
    (k < s.params.windowWords →
      hostReads s (0x1000 * (r.val + 1) + 4 * k) = BitVec.ofNat 32 (s.reg r / 2 ^ (32 * k)) ∧
      ∃ t, hostWrites s (0x1000 * (r.val + 1) + 4 * k) u = t ∧
        t.reg r + (s.reg r / 2 ^ (32 * k) % 2 ^ 32) * 2 ^ (32 * k) = s.reg r + u.toNat * 2 ^ (32 * k) ∧
        t.written[r] = true ∧
        (∀ v : Reg, v ≠ r → t.x[v] = s.x[v] ∧ t.written[v] = s.written[v]) ∧
        t = { s with x := t.x, written := t.written }) ∧
    (s.params.windowWords ≤ k →
      hostReads s (0x1000 * (r.val + 1) + 4 * k) = 0 ∧ hostWrites s (0x1000 * (r.val + 1) + 4 * k) u = s)

/-- R50, R75: LOADV then READV returns the value: run from an idle block, the accesses of LOADV leave it in the register,
and the reads of READV reply its words (the lists of accesses and of replies are the model's, log entry 7). -/
def Obligations.LoadvThenReadvReturnsTheValue : Prop :=
  ∀ (s : State) (r : Reg) (a : Nat), RegsOk s → s.engine.phase = .idle → s.env.turns = [] → s.host.replies = [] →
    a < s.params.capacity → s.host.pending = loadv s.params r a ++ readv s.params r →
    ∃ t, run (2 * s.params.windowWords) s = .next t ∧ t.reg r = a ∧ t.host.pending = [] ∧
      wordsValue t.host.replies.reverse = a

/-- R37: VLEN[v] reads the least L with x[v] < B^L. -/
def Obligations.VlenReadsTheSignificantLength : Prop :=
  ∀ (s : State) (r : Reg), RegsOk s → s.engine.phase = .idle →
    ∃ L, L ≤ s.params.CAP ∧ hostReads s (0x40 + 4 * r.val) = BitVec.ofNat 32 L ∧
      s.reg r < s.params.B ^ L ∧ ∀ M, s.reg r < s.params.B ^ M → L ≤ M

/-- R51: while BUSY, operand writes and CMD writes only set OVR, and a read of an operand window word or of VLEN can
return any 32-bit value, a read of STATUS any flag bits beside its defined bits. -/
def Obligations.BusyBlockHidesAndProtectsOperands : Prop :=
  ∀ (s : State) (r : Reg) (k : Nat) (u : Word), s.engine.phase ≠ .idle → k < s.params.windowWords → k < 1024 →
    hostWrites s (0x1000 * (r.val + 1) + 4 * k) u = { s with status := { s.status with ovr := true } } ∧
    hostWrites s 0x008 u = { s with status := { s.status with ovr := true } } ∧
    (∃ a, hostReads { s with env := { s.env with entropy := [a] } } (0x1000 * (r.val + 1) + 4 * k) = u) ∧
    (∃ a, hostReads { s with env := { s.env with entropy := [a] } } (0x40 + 4 * r.val) = u) ∧
    (∀ n, n < 32 → ∃ a, hostReads { s with env := { s.env with entropy := [a] } } 0x00C = BitVec.ofNat 32
      (1 + s.status.done.toNat * 2 + s.status.err.toNat * 4 + s.status.ovr.toNat * 8 + s.status.werr.toNat * 16 +
        n * 2 ^ 8))

/-- R46: an access inside the block that is not 32 bits wide or not at a multiple of 4 is a bus error (the model's fault,
log entry 13); every aligned 32-bit access inside it is carried out, BUSY or not: a read replies what stands at its offset
and a write leaves what writing that offset leaves, the access being off the host's list (log entry 7). -/
def Obligations.BusErrorExactlyOnNonWordAccess : Prop :=
  ∀ (s : State) (rest : List HostOp) (width addr : Nat) (v : Word),
    s.params.BASE ≤ addr → addr < s.params.BASE + 2 ^ 17 →
    (s.host.pending = .read width addr :: rest ∨ s.host.pending = .write width addr v :: rest →
      width ≠ 4 ∨ (addr - s.params.BASE) % 4 ≠ 0 → hostStep s = .fault .busError) ∧
    (s.host.pending = .read width addr :: rest → width = 4 → (addr - s.params.BASE) % 4 = 0 →
      ∃ t, hostStep s = .next t ∧
        t = reply (readLocation (locate (addr - s.params.BASE)) { s with host := { s.host with pending := rest } }) ∧
        t.host.pending = rest ∧
        t.host.replies =
          hostReads { s with host := { s.host with pending := rest } } (addr - s.params.BASE) :: s.host.replies) ∧
    (s.host.pending = .write width addr v :: rest → width = 4 → (addr - s.params.BASE) % 4 = 0 →
      ∃ t, hostStep s = .next t ∧
        t = hostWrites { s with host := { s.host with pending := rest } } (addr - s.params.BASE) v ∧
        t.host.pending = rest)

/-- R52: no read has a side effect: it changes no state of the block, and while idle not even a draw is taken. -/
def Obligations.ReadsHaveNoSideEffect : Prop :=
  ∀ (s : State) (off : Nat),
    (readLocation (locate off) s).2 = { s with env := (readLocation (locate off) s).2.env } ∧
    (readLocation (locate off) s).2.env.turns = s.env.turns ∧
    (s.engine.phase = .idle → (readLocation (locate off) s).2 = s)

/-- R48, R49: writes to read-only registers and to reserved offsets change nothing, and reads of CMD and of reserved
offsets return 0, at every such offset of the map, BUSY or not. -/
def Obligations.ReadOnlyAndReservedOffsets : Prop :=
  ∀ (s : State) (off : Nat) (v : Word), off < 2 ^ 17 → off % 4 = 0 →
    (off = 0x000 ∨ off = 0x004 ∨ off = 0x010 ∨ off = 0x014 ∨ off = 0x028 ∨ (0x040 ≤ off ∧ off < 0x080) →
      hostWrites s off v = s) ∧
    ((0x02C ≤ off ∧ off < 0x040) ∨ (0x080 ≤ off ∧ off < 0x1000) ∨ 0x11000 ≤ off →
      hostWrites s off v = s ∧ hostReads s off = 0) ∧
    hostReads s 0x008 = 0

/-- R27, R28, R31, R32, R35, R36: ID, CFG and SIEVECFG read the identity word and the parameters in their fields, ERRCODE
its two fields, all other bits 0; ERRCMD reads the failing word, WERRCNT its count, and any write to WERRCNT clears it and
nothing else. -/
def Obligations.IdentificationAndErrorRegistersRead : Prop :=
  ∀ (s : State) (v : Word), s.params.Valid →
    hostReads s 0x000 = 0x52534131 ∧
    bits (hostReads s 0x004) 7 0 = s.params.W ∧ bits (hostReads s 0x004) 15 8 = s.params.CAP ∧
    bits (hostReads s 0x004) 20 16 = 16 ∧ bits (hostReads s 0x004) 23 21 = 0 ∧
    bits (hostReads s 0x004) 29 24 = s.params.NWORK ∧ bits (hostReads s 0x004) 31 30 = 0 ∧
    bits (hostReads s 0x028) 13 0 = s.params.NSIEVE ∧ bits (hostReads s 0x028) 31 14 = 0 ∧
    bits (hostReads s 0x010) 7 0 = s.error.cls.toNat ∧ bits (hostReads s 0x010) 15 8 = s.error.detail.toNat ∧
    bits (hostReads s 0x010) 31 16 = 0 ∧ hostReads s 0x014 = s.error.cmd ∧
    hostReads s 0x024 = s.werrCnt ∧ hostWrites s 0x024 v = { s with werrCnt := 0 }

/-! ### Invariants -/

/-- The state right after reset meets the invariant. -/
def Obligations.ResetStateMeetsTheInvariant : Prop := Inv State.reset

/-- R6, R21, R26: no step changes a parameter, from any state, or leaves a register, SCALAR or the worker list out of its
range. That the parameters stand in State is log entry 2's choice. -/
def Obligations.StepsKeepRegistersInRange : Prop :=
  Preserved RegsOk ∧ ∀ s t : State, step s = .next t → t.params = s.params

/-- R29, R30, R126, R127: every step keeps the error status coherent; only codes R126 assigns are ever recorded, and
never KNUTH_CORRECTION. -/
def Obligations.StepsKeepTheErrorStatusCoherent : Prop := Preserved ErrorOk

/-- R20, R25, R39, R42, R117 to R123: every step of every agent keeps the whole invariant: registers in range, the error
status coherent, at most one order flag set, a valid Montgomery context right for its modulus, the prime search coherent;
in particular no prime is ever stepped over, a published value is one is_prime accepted with no other table prime dividing
it, and a worker exits only after a publication. -/
def Obligations.StepsKeepTheInvariant : Prop := Preserved Inv
end

