-- ==== Sys2Proof/Laws/Numbers.lean ====
section
/-! SUPPORT. What the number helpers compute: the capacity as a power of two, the words of a value and the value of
words, and the significant length. -/

namespace Sys2Proof

theorem Params.B_pos (p : Params) : 0 < p.B := Nat.two_pow_pos _

theorem Params.capacity_pos (p : Params) : 0 < p.capacity := Nat.pow_pos p.B_pos

theorem Params.capacity_eq (p : Params) : p.capacity = 2 ^ (p.W * p.CAP) := by
  rw [capacity, B, ← pow_mul]

theorem Params.Valid.W_pos {p : Params} (h : p.Valid) : 0 < p.W := by
  obtain ⟨hw, _⟩ := h
  omega

theorem Params.Valid.CAP_pos {p : Params} (h : p.Valid) : 1 ≤ p.CAP := h.2.1.1

/-- The window of a register is exactly as wide as the register: 32 bits a word (R38). -/
theorem Params.Valid.windowBits {p : Params} (h : p.Valid) : 32 * p.windowWords = p.W * p.CAP := by
  obtain ⟨hw | hw, _⟩ := h <;> rw [windowWords, hw] <;> omega

theorem Params.Valid.capacity_eq_words {p : Params} (h : p.Valid) : p.capacity = 2 ^ (32 * p.windowWords) := by
  rw [p.capacity_eq, h.windowBits]

/-- A limb fits a register: `B ≤ B^CAP`. -/
theorem Params.Valid.B_le_capacity {p : Params} (h : p.Valid) : p.B ≤ p.capacity := by
  rw [capacity]
  exact Nat.le_self_pow (by have := h.CAP_pos; omega) _

/-- Every immediate fits a register: `2^14 < B`. -/
theorem Params.Valid.imm_lt_capacity {p : Params} (h : p.Valid) (imm : BitVec 14) : imm.toNat < p.capacity := by
  refine lt_of_lt_of_le ?_ h.B_le_capacity
  have h14 : imm.toNat < 2 ^ 14 := imm.isLt
  obtain ⟨hw | hw, _⟩ := h <;> rw [B, hw] <;> omega

@[simp] theorem length_wordsOf (n v : Nat) : (wordsOf n v).length = n := by
  induction n generalizing v with
  | zero => rfl
  | succ n ih => simp [wordsOf, ih]

/-- The value of the n low words of v is v modulo 2^(32n). -/
theorem wordsValue_wordsOf (n v : Nat) : wordsValue (wordsOf n v) = v % 2 ^ (32 * n) := by
  induction n generalizing v with
  | zero => simp [wordsOf, wordsValue, Nat.mod_one]
  | succ n ih =>
    rw [wordsOf, wordsValue, ih, BitVec.toNat_ofNat, Nat.mul_succ, Nat.add_comm, Nat.pow_add, Nat.mul_comm (2 ^ (32 * n)),
      Nat.add_comm, Nat.mod_mul]

theorem wordsValue_lt (ws : List Word) : wordsValue ws < 2 ^ (32 * ws.length) := by
  induction ws with
  | nil => simp [wordsValue]
  | cons w ws ih =>
    have hw : w.toNat < 2 ^ 32 := w.isLt
    rw [wordsValue, List.length_cons, Nat.mul_succ, Nat.pow_add]
    omega

/-- Word k of the value of a word list is the list's k-th word. -/
theorem wordOf_wordsValue (ws : List Word) (k : Nat) (h : k < ws.length) : wordOf (wordsValue ws) k = ws[k].toNat := by
  induction ws generalizing k with
  | nil => simp at h
  | cons w ws ih =>
    have hw : w.toNat < 2 ^ 32 := w.isLt
    cases k with
    | zero => simp only [wordOf, wordsValue, List.getElem_cons_zero]; omega
    | succ k =>
      have hk : k < ws.length := by simpa using h
      have hd : (w.toNat + 2 ^ 32 * wordsValue ws) / 2 ^ (32 * (k + 1)) = wordsValue ws / 2 ^ (32 * k) := by
        rw [Nat.mul_succ, Nat.add_comm (32 * k), Nat.pow_add, ← Nat.div_div_eq_div_mul]
        congr 1
        omega
      rw [wordOf, wordsValue, hd, List.getElem_cons_succ, ← ih k hk, wordOf]

/-- Replacing the k-th word of a list exchanges that word's share of the value. -/
theorem wordsValue_set (ws : List Word) (k : Nat) (u : Word) (h : k < ws.length) :
    wordsValue (ws.set k u) + ws[k].toNat * 2 ^ (32 * k) = wordsValue ws + u.toNat * 2 ^ (32 * k) := by
  induction ws generalizing k with
  | nil => simp at h
  | cons w ws ih =>
    cases k with
    | zero => simp only [List.set_cons_zero, wordsValue, List.getElem_cons_zero]; omega
    | succ k =>
      have hk := ih k (by simpa using h)
      have hp : 2 ^ (32 * (k + 1)) = 2 ^ 32 * 2 ^ (32 * k) := by rw [Nat.mul_succ, Nat.add_comm, Nat.pow_add]
      simp only [List.set_cons_succ, wordsValue, List.getElem_cons_succ, hp]
      nlinarith [hk]

/-- `x < B^len(x)` (R9). -/
theorem lt_pow_len (p : Params) (h : 0 < p.W) (x : Nat) : x < p.B ^ len p x := by
  rw [len, Params.B, ← pow_mul]
  split
  · simp [*]
  · refine lt_of_lt_of_le Nat.lt_log2_self (Nat.pow_le_pow_right (by decide) ?_)
    have := Nat.div_add_mod (Nat.log2 x) p.W
    have := Nat.mod_lt (Nat.log2 x) h
    rw [Nat.mul_add]
    omega

/-- `len(x)` is the least such length (R9). -/
theorem len_le (p : Params) (x L : Nat) (h : x < p.B ^ L) : len p x ≤ L := by
  rw [len]
  split
  · exact Nat.zero_le _
  · rename_i hx
    rw [Params.B, ← pow_mul] at h
    have hl : Nat.log2 x < p.W * L := (Nat.log2_lt hx).2 h
    have hd : Nat.log2 x / p.W < L := Nat.div_lt_of_lt_mul hl
    omega

end Sys2Proof
end

