-- ==== Sys2Proof/Laws/State.lean ====
section
/-! SUPPORT. One lemma per field of State per shared update, true by `rfl`, so that no proof unfolds a record update. -/

namespace Sys2Proof.Machine

variable (s : State)

/-! A register write: `setReg`. -/

@[simp] theorem setReg_params (r : Reg) (v : Nat) : (s.setReg r v).params = s.params := rfl
@[simp] theorem setReg_x (r : Reg) (v : Nat) : (s.setReg r v).x = s.x.set r (wordsOf s.params.windowWords v) := rfl
@[simp] theorem setReg_written (r : Reg) (v : Nat) : (s.setReg r v).written = s.written.set r true := rfl
@[simp] theorem setReg_scalar (r : Reg) (v : Nat) : (s.setReg r v).scalar = s.scalar := rfl
@[simp] theorem setReg_status (r : Reg) (v : Nat) : (s.setReg r v).status = s.status := rfl
@[simp] theorem setReg_flags (r : Reg) (v : Nat) : (s.setReg r v).flags = s.flags := rfl
@[simp] theorem setReg_error (r : Reg) (v : Nat) : (s.setReg r v).error = s.error := rfl
@[simp] theorem setReg_ctrl (r : Reg) (v : Nat) : (s.setReg r v).ctrl = s.ctrl := rfl
@[simp] theorem setReg_werrCnt (r : Reg) (v : Nat) : (s.setReg r v).werrCnt = s.werrCnt := rfl
@[simp] theorem setReg_engine (r : Reg) (v : Nat) : (s.setReg r v).engine = s.engine := rfl
@[simp] theorem setReg_mctx (r : Reg) (v : Nat) : (s.setReg r v).mctx = s.mctx := rfl
@[simp] theorem setReg_search (r : Reg) (v : Nat) : (s.setReg r v).search = s.search := rfl
@[simp] theorem setReg_host (r : Reg) (v : Nat) : (s.setReg r v).host = s.host := rfl
@[simp] theorem setReg_env (r : Reg) (v : Nat) : (s.setReg r v).env = s.env := rfl

/-! The end of a command: `complete`. -/

@[simp] theorem complete_params : (complete s).params = s.params := rfl
@[simp] theorem complete_x : (complete s).x = s.x := rfl
@[simp] theorem complete_written : (complete s).written = s.written := rfl
@[simp] theorem complete_scalar : (complete s).scalar = s.scalar := rfl
@[simp] theorem complete_status : (complete s).status = { s.status with done := true } := rfl
@[simp] theorem complete_flags : (complete s).flags = s.flags := rfl
@[simp] theorem complete_error : (complete s).error = s.error := rfl
@[simp] theorem complete_ctrl : (complete s).ctrl = s.ctrl := rfl
@[simp] theorem complete_werrCnt : (complete s).werrCnt = s.werrCnt := rfl
@[simp] theorem complete_engine : (complete s).engine = { s.engine with phase := .idle } := rfl
@[simp] theorem complete_mctx : (complete s).mctx = s.mctx := rfl
@[simp] theorem complete_search : (complete s).search = s.search := rfl
@[simp] theorem complete_host : (complete s).host = s.host := rfl
@[simp] theorem complete_env : (complete s).env = s.env := rfl

/-! An error: `raise`. -/

@[simp] theorem raise_params (e : CmdError) : (raise e s).params = s.params := rfl
@[simp] theorem raise_x (e : CmdError) : (raise e s).x = s.x := rfl
@[simp] theorem raise_written (e : CmdError) : (raise e s).written = s.written := rfl
@[simp] theorem raise_scalar (e : CmdError) : (raise e s).scalar = s.scalar := rfl
@[simp] theorem raise_status (e : CmdError) : (raise e s).status = { s.status with err := true, done := true } := rfl
@[simp] theorem raise_flags (e : CmdError) : (raise e s).flags = s.flags := rfl
@[simp] theorem raise_error (e : CmdError) :
    (raise e s).error = { cls := e.cls, detail := e.detail, cmd := s.engine.curCmd } := rfl
@[simp] theorem raise_ctrl (e : CmdError) : (raise e s).ctrl = s.ctrl := rfl
@[simp] theorem raise_werrCnt (e : CmdError) : (raise e s).werrCnt = s.werrCnt := rfl
@[simp] theorem raise_engine (e : CmdError) : (raise e s).engine = { s.engine with phase := .idle } := rfl
@[simp] theorem raise_mctx (e : CmdError) : (raise e s).mctx = s.mctx := rfl
@[simp] theorem raise_search (e : CmdError) : (raise e s).search = s.search := rfl
@[simp] theorem raise_host (e : CmdError) : (raise e s).host = s.host := rfl
@[simp] theorem raise_env (e : CmdError) : (raise e s).env = s.env := rfl

/-! Acknowledging an error: `clearError`. -/

@[simp] theorem clearError_params : (clearError s).params = s.params := rfl
@[simp] theorem clearError_x : (clearError s).x = s.x := rfl
@[simp] theorem clearError_written : (clearError s).written = s.written := rfl
@[simp] theorem clearError_scalar : (clearError s).scalar = s.scalar := rfl
@[simp] theorem clearError_status : (clearError s).status = { s.status with err := false } := rfl
@[simp] theorem clearError_flags : (clearError s).flags = s.flags := rfl
@[simp] theorem clearError_error : (clearError s).error = .cleared := rfl
@[simp] theorem clearError_ctrl : (clearError s).ctrl = s.ctrl := rfl
@[simp] theorem clearError_werrCnt : (clearError s).werrCnt = s.werrCnt := rfl
@[simp] theorem clearError_engine : (clearError s).engine = s.engine := rfl
@[simp] theorem clearError_mctx : (clearError s).mctx = s.mctx := rfl
@[simp] theorem clearError_search : (clearError s).search = s.search := rfl
@[simp] theorem clearError_host : (clearError s).host = s.host := rfl
@[simp] theorem clearError_env : (clearError s).env = s.env := rfl

/-! A rejected host write: `setOvr`. -/

@[simp] theorem setOvr_params : (setOvr s).params = s.params := rfl
@[simp] theorem setOvr_x : (setOvr s).x = s.x := rfl
@[simp] theorem setOvr_written : (setOvr s).written = s.written := rfl
@[simp] theorem setOvr_scalar : (setOvr s).scalar = s.scalar := rfl
@[simp] theorem setOvr_status : (setOvr s).status = { s.status with ovr := true } := rfl
@[simp] theorem setOvr_flags : (setOvr s).flags = s.flags := rfl
@[simp] theorem setOvr_error : (setOvr s).error = s.error := rfl
@[simp] theorem setOvr_ctrl : (setOvr s).ctrl = s.ctrl := rfl
@[simp] theorem setOvr_werrCnt : (setOvr s).werrCnt = s.werrCnt := rfl
@[simp] theorem setOvr_engine : (setOvr s).engine = s.engine := rfl
@[simp] theorem setOvr_mctx : (setOvr s).mctx = s.mctx := rfl
@[simp] theorem setOvr_search : (setOvr s).search = s.search := rfl
@[simp] theorem setOvr_host : (setOvr s).host = s.host := rfl
@[simp] theorem setOvr_env : (setOvr s).env = s.env := rfl

/-! Accepting a command: `accept`. -/

@[simp] theorem accept_params (c : Word) : (accept c s).params = s.params := rfl
@[simp] theorem accept_x (c : Word) : (accept c s).x = s.x := rfl
@[simp] theorem accept_written (c : Word) : (accept c s).written = s.written := rfl
@[simp] theorem accept_scalar (c : Word) : (accept c s).scalar = s.scalar := rfl
@[simp] theorem accept_status (c : Word) : (accept c s).status = { s.status with done := false } := rfl
@[simp] theorem accept_flags (c : Word) : (accept c s).flags = s.flags := rfl
@[simp] theorem accept_error (c : Word) : (accept c s).error = s.error := rfl
@[simp] theorem accept_ctrl (c : Word) : (accept c s).ctrl = s.ctrl := rfl
@[simp] theorem accept_werrCnt (c : Word) : (accept c s).werrCnt = s.werrCnt := rfl
@[simp] theorem accept_engine (c : Word) :
    (accept c s).engine = { phase := phaseOf c, curCmd := c, curWmode := s.ctrl.wmode } := rfl
@[simp] theorem accept_mctx (c : Word) : (accept c s).mctx = s.mctx := rfl
@[simp] theorem accept_search (c : Word) : (accept c s).search = s.search := rfl
@[simp] theorem accept_host (c : Word) : (accept c s).host = s.host := rfl
@[simp] theorem accept_env (c : Word) : (accept c s).env = s.env := rfl

/-! A worker update: `setWorker`. -/

@[simp] theorem setWorker_params (w : Nat) (v : Worker) : (s.setWorker w v).params = s.params := rfl
@[simp] theorem setWorker_x (w : Nat) (v : Worker) : (s.setWorker w v).x = s.x := rfl
@[simp] theorem setWorker_written (w : Nat) (v : Worker) : (s.setWorker w v).written = s.written := rfl
@[simp] theorem setWorker_scalar (w : Nat) (v : Worker) : (s.setWorker w v).scalar = s.scalar := rfl
@[simp] theorem setWorker_status (w : Nat) (v : Worker) : (s.setWorker w v).status = s.status := rfl
@[simp] theorem setWorker_flags (w : Nat) (v : Worker) : (s.setWorker w v).flags = s.flags := rfl
@[simp] theorem setWorker_error (w : Nat) (v : Worker) : (s.setWorker w v).error = s.error := rfl
@[simp] theorem setWorker_ctrl (w : Nat) (v : Worker) : (s.setWorker w v).ctrl = s.ctrl := rfl
@[simp] theorem setWorker_werrCnt (w : Nat) (v : Worker) : (s.setWorker w v).werrCnt = s.werrCnt := rfl
@[simp] theorem setWorker_engine (w : Nat) (v : Worker) : (s.setWorker w v).engine = s.engine := rfl
@[simp] theorem setWorker_mctx (w : Nat) (v : Worker) : (s.setWorker w v).mctx = s.mctx := rfl
@[simp] theorem setWorker_search (w : Nat) (v : Worker) :
    (s.setWorker w v).search = { s.search with workers := s.search.workers.set w v } := rfl
@[simp] theorem setWorker_host (w : Nat) (v : Worker) : (s.setWorker w v).host = s.host := rfl
@[simp] theorem setWorker_env (w : Nat) (v : Worker) : (s.setWorker w v).env = s.env := rfl

/-! The release of the workers: `idleWorkers`. -/

@[simp] theorem idleWorkers_params : s.idleWorkers.params = s.params := rfl
@[simp] theorem idleWorkers_x : s.idleWorkers.x = s.x := rfl
@[simp] theorem idleWorkers_written : s.idleWorkers.written = s.written := rfl
@[simp] theorem idleWorkers_scalar : s.idleWorkers.scalar = s.scalar := rfl
@[simp] theorem idleWorkers_status : s.idleWorkers.status = s.status := rfl
@[simp] theorem idleWorkers_flags : s.idleWorkers.flags = s.flags := rfl
@[simp] theorem idleWorkers_error : s.idleWorkers.error = s.error := rfl
@[simp] theorem idleWorkers_ctrl : s.idleWorkers.ctrl = s.ctrl := rfl
@[simp] theorem idleWorkers_werrCnt : s.idleWorkers.werrCnt = s.werrCnt := rfl
@[simp] theorem idleWorkers_engine : s.idleWorkers.engine = s.engine := rfl
@[simp] theorem idleWorkers_mctx : s.idleWorkers.mctx = s.mctx := rfl
@[simp] theorem idleWorkers_search :
    s.idleWorkers.search = { s.search with workers := s.search.workers.map (fun w => { w with phase := .idle }) } := rfl
@[simp] theorem idleWorkers_host : s.idleWorkers.host = s.host := rfl
@[simp] theorem idleWorkers_env : s.idleWorkers.env = s.env := rfl

/-! The use of a turn: `turnUsed`. -/

@[simp] theorem turnUsed_params : s.turnUsed.params = s.params := rfl
@[simp] theorem turnUsed_x : s.turnUsed.x = s.x := rfl
@[simp] theorem turnUsed_written : s.turnUsed.written = s.written := rfl
@[simp] theorem turnUsed_scalar : s.turnUsed.scalar = s.scalar := rfl
@[simp] theorem turnUsed_status : s.turnUsed.status = s.status := rfl
@[simp] theorem turnUsed_flags : s.turnUsed.flags = s.flags := rfl
@[simp] theorem turnUsed_error : s.turnUsed.error = s.error := rfl
@[simp] theorem turnUsed_ctrl : s.turnUsed.ctrl = s.ctrl := rfl
@[simp] theorem turnUsed_werrCnt : s.turnUsed.werrCnt = s.werrCnt := rfl
@[simp] theorem turnUsed_engine : s.turnUsed.engine = s.engine := rfl
@[simp] theorem turnUsed_mctx : s.turnUsed.mctx = s.mctx := rfl
@[simp] theorem turnUsed_search : s.turnUsed.search = s.search := rfl
@[simp] theorem turnUsed_host : s.turnUsed.host = s.host := rfl
@[simp] theorem turnUsed_env : s.turnUsed.env = { s.env with turns := s.env.turns.tail } := rfl

/-! The end of a command, in the claims' terms: `ended`. -/

@[simp] theorem ended_params : s.ended.params = s.params := rfl
@[simp] theorem ended_x : s.ended.x = s.x := rfl
@[simp] theorem ended_written : s.ended.written = s.written := rfl
@[simp] theorem ended_scalar : s.ended.scalar = s.scalar := rfl
@[simp] theorem ended_status : s.ended.status = { s.status with done := true } := rfl
@[simp] theorem ended_flags : s.ended.flags = s.flags := rfl
@[simp] theorem ended_error : s.ended.error = s.error := rfl
@[simp] theorem ended_ctrl : s.ended.ctrl = s.ctrl := rfl
@[simp] theorem ended_werrCnt : s.ended.werrCnt = s.werrCnt := rfl
@[simp] theorem ended_engine : s.ended.engine = { s.engine with phase := .idle } := rfl
@[simp] theorem ended_mctx : s.ended.mctx = s.mctx := rfl
@[simp] theorem ended_search : s.ended.search = s.search := rfl
@[simp] theorem ended_host : s.ended.host = s.host := rfl
@[simp] theorem ended_env : s.ended.env = s.env := rfl

end Sys2Proof.Machine
end

