-- ==== Sys2Proof/Laws/Ops.lean ====
section
/-! SUPPORT. What the shared operations do: the register file after a write, the two ends of a commit, and the draws. -/

namespace Sys2Proof.Machine

/-! ### The register file -/

theorem reg_eq (s : State) (r : Reg) : s.reg r = wordsValue s.x[r] := rfl

/-- Every register is below the capacity (R21). -/
theorem RegsOk.reg_lt {s : State} (h : RegsOk s) (r : Reg) : s.reg r < s.params.capacity := by
  rw [h.1.capacity_eq_words, reg_eq, ← h.2.1 r]
  exact wordsValue_lt _

theorem x_setReg_of_ne {s : State} {r q : Reg} (v : Nat) (h : q ≠ r) : (s.setReg r v).x[q] = s.x[q] := by
  simp only [setReg_x]
  exact Vector.getElem_set_ne _ _ (fun e => h (Fin.ext e.symm))

theorem written_setReg_of_ne {s : State} {r q : Reg} (v : Nat) (h : q ≠ r) :
    (s.setReg r v).written[q] = s.written[q] := by
  simp only [setReg_written]
  exact Vector.getElem_set_ne _ _ (fun e => h (Fin.ext e.symm))

@[simp] theorem written_setReg_self (s : State) (r : Reg) (v : Nat) : (s.setReg r v).written[r] = true := by
  simp

@[simp] theorem x_setReg_self (s : State) (r : Reg) (v : Nat) :
    (s.setReg r v).x[r] = wordsOf s.params.windowWords v := by
  simp

theorem reg_setReg_of_ne {s : State} {r q : Reg} (v : Nat) (h : q ≠ r) : (s.setReg r v).reg q = s.reg q := by
  rw [reg_eq, reg_eq, x_setReg_of_ne v h]

/-- A register reads back the value written, where it fits (R21). -/
theorem reg_setReg_self {s : State} (h : s.params.Valid) (r : Reg) {v : Nat} (hv : v < s.params.capacity) :
    (s.setReg r v).reg r = v := by
  rw [reg_eq, x_setReg_self, wordsValue_wordsOf, Nat.mod_eq_of_lt]
  rwa [← h.capacity_eq_words]

/-- Every register write keeps the register file in its form. -/
theorem RegsOk.setReg {s : State} (h : RegsOk s) (r : Reg) (v : Nat) : RegsOk (s.setReg r v) := by
  refine ⟨h.1, fun q => ?_, h.2.2.1, h.2.2.2⟩
  by_cases hq : q = r
  · subst hq
    simp
  · rw [x_setReg_of_ne v hq]
    exact h.2.1 q

theorem RegsOk.setRegs {s : State} (h : RegsOk s) (ws : List (Reg × Nat)) : RegsOk (s.setRegs ws) := by
  induction ws generalizing s with
  | nil => exact h
  | cons w ws ih => exact ih (h.setReg w.1 w.2)

@[simp] theorem setRegs_nil (s : State) : s.setRegs [] = s := rfl

@[simp] theorem setRegs_cons (s : State) (r : Reg) (v : Nat) (ws : List (Reg × Nat)) :
    s.setRegs ((r, v) :: ws) = (s.setReg r v).setRegs ws := rfl

/-- A list of register writes changes registers and marks only. -/
theorem setRegs_eq (s : State) (ws : List (Reg × Nat)) :
    s.setRegs ws = { s with x := (s.setRegs ws).x, written := (s.setRegs ws).written } := by
  induction ws generalizing s with
  | nil => rfl
  | cons w ws ih => rw [setRegs_cons, ih]; rfl

/-- A register that no write names keeps its contents and mark. -/
theorem setRegs_frame (s : State) (ws : List (Reg × Nat)) (q : Reg) (h : ∀ w ∈ ws, w.1 ≠ q) :
    (s.setRegs ws).x[q] = s.x[q] ∧ (s.setRegs ws).written[q] = s.written[q] := by
  induction ws generalizing s with
  | nil => exact ⟨rfl, rfl⟩
  | cons w ws ih =>
    have hq : q ≠ w.1 := (h w (by simp)).symm
    obtain ⟨hx, hw⟩ := ih (s.setReg w.1 w.2) (fun v hv => h v (by simp [hv]))
    rw [setRegs_cons]
    exact ⟨hx.trans (x_setReg_of_ne _ hq), hw.trans (written_setReg_of_ne _ hq)⟩

/-! ### Completing, raising, committing -/

/-- `complete` and the claims' `State.ended` are the same state. -/
theorem complete_eq_ended (s : State) : complete s = s.ended := rfl

/-- What raising an error leaves, in the claims' terms (R127). -/
theorem raise_raised (e : CmdError) (s : State) : Raised s (raise e s) e.cls e.detail := rfl

/-- A completed register write, in the claims' terms. -/
theorem wrote_of_complete {s : State} (h : s.params.Valid) (d : Reg) {v : Nat} (hv : v < s.params.capacity) :
    Wrote s (complete (s.setReg d v)) d v :=
  ⟨reg_setReg_self h d hv, by simp, fun _ hr => ⟨x_setReg_of_ne v hr, written_setReg_of_ne v hr⟩, rfl⟩

theorem commit_of_fits {s : State} {ws : List (Reg × Nat)} (fl : Flags)
    (h : ∀ w ∈ ws, w.2 < s.params.capacity) : commit ws fl s = complete { s.setRegs ws with flags := fl } := by
  rw [commit, if_pos]
  simpa using h

theorem commit_of_exceeds {s : State} {ws : List (Reg × Nat)} (fl : Flags)
    (h : ∃ w ∈ ws, s.params.capacity ≤ w.2) : commit ws fl s = raise .capacityExceeded s := by
  rw [commit, if_neg]
  simpa using h

/-- Everything a commit can do (R11): all of it, or CapacityExceeded and nothing. -/
theorem commit_cases (ws : List (Reg × Nat)) (fl : Flags) (s : State) :
    ((∀ w ∈ ws, w.2 < s.params.capacity) ∧ commit ws fl s = complete { s.setRegs ws with flags := fl }) ∨
    ((∃ w ∈ ws, s.params.capacity ≤ w.2) ∧ commit ws fl s = raise .capacityExceeded s) := by
  by_cases h : ∀ w ∈ ws, w.2 < s.params.capacity
  · exact .inl ⟨h, commit_of_fits fl h⟩
  · have h' : ∃ w ∈ ws, s.params.capacity ≤ w.2 := by simpa using h
    exact .inr ⟨h', commit_of_exceeds fl h'⟩

/-- Whatever a commit decides, the command ends: DONE is set and the engine is IDLE (R41). -/
theorem commit_ends (ws : List (Reg × Nat)) (fl : Flags) (s : State) :
    (commit ws fl s).status.done = true ∧ (commit ws fl s).engine.phase = .idle := by
  obtain ⟨_, h⟩ | ⟨_, h⟩ := commit_cases ws fl s <;> rw [h] <;> exact ⟨rfl, rfl⟩

/-- Whatever a commit decides, it leaves everything but registers, flags, the error status and the phase (R11, R127). -/
theorem commit_frame (ws : List (Reg × Nat)) (fl : Flags) (s : State) :
    (commit ws fl s).params = s.params ∧ (commit ws fl s).scalar = s.scalar ∧ (commit ws fl s).ctrl = s.ctrl ∧
      (commit ws fl s).werrCnt = s.werrCnt ∧ (commit ws fl s).mctx = s.mctx ∧ (commit ws fl s).search = s.search ∧
      (commit ws fl s).host = s.host ∧ (commit ws fl s).env = s.env := by
  obtain ⟨_, h⟩ | ⟨_, h⟩ := commit_cases ws fl s <;> rw [h]
  · rw [setRegs_eq]
    exact ⟨rfl, rfl, rfl, rfl, rfl, rfl, rfl, rfl⟩
  · exact ⟨rfl, rfl, rfl, rfl, rfl, rfl, rfl, rfl⟩

theorem commitReg_of_fits {s : State} (d : Reg) {v : Nat} (h : v < s.params.capacity) :
    commitReg d v s = complete (s.setReg d v) := by
  rw [commitReg, commit_of_fits]
  · rfl
  · simpa using h

theorem commitReg_of_exceeds {s : State} (d : Reg) {v : Nat} (h : s.params.capacity ≤ v) :
    commitReg d v s = raise .capacityExceeded s := by
  rw [commitReg, commit_of_exceeds]
  simpa using h

/-- A commit of flags alone never fails. -/
theorem commitFlags_eq (fl : Flags) (s : State) : commitFlags fl s = complete { s with flags := fl } := by
  rw [commitFlags, commit_of_fits]
  · rfl
  · simp

/-! ### Draws -/

/-- A draw is a member of its set, and takes nothing but an answer or a free value (R10). -/
theorem draw_spec (lo hi : Nat) (e : Env) (h : lo ≤ hi) :
    lo ≤ (draw lo hi e).1 ∧ (draw lo hi e).1 ≤ hi ∧ (draw lo hi e).2.turns = e.turns := by
  have hpos : 0 < hi + 1 - lo := by omega
  unfold draw
  split
  · rename_i a rest _
    have := Nat.mod_lt a hpos
    exact ⟨by simp, by simp only; omega, rfl⟩
  · have := Nat.mod_lt (Config.free e.freeCount) hpos
    exact ⟨by simp, by simp only; omega, rfl⟩

/-- The entropy source's next answer decides the draw. -/
theorem draw_of_entropy (lo hi a : Nat) (rest : List Nat) (e : Env) (h : e.entropy = a :: rest) :
    draw lo hi e = (lo + a % (hi + 1 - lo), { e with entropy := rest }) := by
  unfold draw
  rw [h]

end Sys2Proof.Machine
end

