-- ==== Sys2Proof/Laws/Bus.lean ====
section
/-! SUPPORT. Everything a host access can do. -/

namespace Sys2Proof.Machine

/-- A bus access either lies outside the block, or is no word access, or acts on its location (R46). -/
theorem onBus_cases (width addr : Nat) (s : State) (act : Location → State) :
    ((addr < s.params.BASE ∨ s.params.BASE + 2 ^ Config.ADDRW ≤ addr) ∧
      onBus width addr s act = .refused .outsideBlock) ∨
    (s.params.BASE ≤ addr ∧ addr < s.params.BASE + 2 ^ Config.ADDRW ∧
      (width ≠ 4 ∨ (addr - s.params.BASE) % 4 ≠ 0) ∧ onBus width addr s act = .fault .busError) ∨
    (s.params.BASE ≤ addr ∧ addr < s.params.BASE + 2 ^ Config.ADDRW ∧ width = 4 ∧ (addr - s.params.BASE) % 4 = 0 ∧
      onBus width addr s act = .next (act (locate (addr - s.params.BASE)))) := by
  unfold onBus
  by_cases h : addr < s.params.BASE ∨ s.params.BASE + 2 ^ Config.ADDRW ≤ addr
  · exact .inl ⟨h, if_pos h⟩
  · rw [if_neg h]
    by_cases ha : width ≠ 4 ∨ (addr - s.params.BASE) % 4 ≠ 0
    · exact .inr (.inl ⟨by omega, by omega, ha, if_pos ha⟩)
    · exact .inr (.inr ⟨by omega, by omega, by omega, by omega, if_neg ha⟩)

/-- A bus access that answers a next state acted on some location. -/
theorem onBus_next {width addr : Nat} {s t : State} {act : Location → State} (h : onBus width addr s act = .next t) :
    ∃ l, t = act l := by
  obtain ⟨_, hb⟩ | ⟨_, _, _, hb⟩ | ⟨_, _, _, _, hb⟩ := onBus_cases width addr s act
  · rw [hb] at h; cases h
  · rw [hb] at h; cases h
  · rw [hb] at h; cases h; exact ⟨_, rfl⟩

theorem readStatus_env (s : State) : ∃ e, (readStatus s).2 = { s with env := e } := by
  unfold readStatus
  split
  · exact ⟨_, rfl⟩
  · exact ⟨s.env, rfl⟩

theorem readOperandView_env (v : Nat) (s : State) : ∃ e, (readOperandView v s).2 = { s with env := e } := by
  unfold readOperandView
  split
  · exact ⟨_, rfl⟩
  · exact ⟨s.env, rfl⟩

/-- A read changes nothing but the free inputs (R52). -/
theorem readLocation_env (l : Location) (s : State) : ∃ e, (readLocation l s).2 = { s with env := e } := by
  cases l with
  | status => exact readStatus_env s
  | vlen r => exact readOperandView_env _ s
  | window r k => exact readOperandView_env _ s
  | ident => exact ⟨s.env, rfl⟩
  | cfg => exact ⟨s.env, rfl⟩
  | cmd => exact ⟨s.env, rfl⟩
  | errCode => exact ⟨s.env, rfl⟩
  | errCmd => exact ⟨s.env, rfl⟩
  | scalarLo => exact ⟨s.env, rfl⟩
  | scalarHi => exact ⟨s.env, rfl⟩
  | ctrl => exact ⟨s.env, rfl⟩
  | werrCnt => exact ⟨s.env, rfl⟩
  | sieveCfg => exact ⟨s.env, rfl⟩
  | reserved => exact ⟨s.env, rfl⟩

/-- Everything a host write can do to the block (R29, R30, R33, R34, R35, R49 to R51). -/
inductive Written (s : State) : State → Prop where
  | ignored : Written s s
  | rejected (h : s.busy = true ∨ s.status.err = true) : Written s (setOvr s)
  | accepted (c : Word) (hb : s.busy = false) (he : s.status.err = false) : Written s (accept c s)
  | status (v : Word) : Written s (writeStatus v s)
  | reset : Written s (softReset s)
  | control (c : Ctrl) : Written s { s with ctrl := c }
  | errorCount : Written s { s with werrCnt := 0 }
  | scalar (k : Nat) (v : Word) (hb : s.busy = false) (hk : k = 0 ∨ s.params.W = 64) :
      Written s { s with scalar := replaceWord s.scalar k v.toNat }
  | window (r : Reg) (k : Nat) (v : Word) (hb : s.busy = false) (hk : k < s.params.windowWords) :
      Written s { s with x := s.x.set r (s.x[r].set k v), written := s.written.set r true }

theorem writeLocation_written (l : Location) (v : Word) (s : State) : Written s (writeLocation l v s) := by
  cases l with
  | cmd =>
    simp only [writeLocation, writeCmd]
    split
    · rename_i h
      exact .rejected (by simpa using h)
    · rename_i h
      simp only [Bool.or_eq_true, not_or, Bool.not_eq_true] at h
      exact .accepted v h.1 h.2
  | status => exact .status v
  | scalarLo =>
    simp only [writeLocation, writeScalar]
    split
    · exact .rejected (.inl ‹_›)
    · exact .scalar 0 v ((Bool.not_eq_true _).mp ‹_›) (.inl rfl)
  | scalarHi =>
    simp only [writeLocation, writeScalar]
    split
    · exact .rejected (.inl ‹_›)
    · split
      · exact .scalar 1 v ((Bool.not_eq_true _).mp ‹_›) ‹_›
      · exact .ignored
  | ctrl =>
    simp only [writeLocation, writeCtrl]
    split
    · exact .reset
    · exact .control _
  | werrCnt => exact .errorCount
  | window r k =>
    simp only [writeLocation, writeWindow]
    split
    · exact .rejected (.inl ‹_›)
    · split
      · exact .window r k v ((Bool.not_eq_true _).mp ‹_›) ‹_›
      · exact .ignored
  | ident => exact .ignored
  | cfg => exact .ignored
  | errCode => exact .ignored
  | errCmd => exact .ignored
  | sieveCfg => exact .ignored
  | vlen r => exact .ignored
  | reserved => exact .ignored

/-- No write of a location touches the host's list or its replies. -/
@[simp] theorem writeLocation_host (l : Location) (v : Word) (s : State) : (writeLocation l v s).host = s.host := by
  have h := writeLocation_written l v s
  generalize writeLocation l v s = t at h
  cases h <;> first | rfl | (simp only [writeStatus]; split <;> rfl)

/-- A window write keeps the register file in its form. -/
theorem RegsOk.window {s : State} (h : RegsOk s) (r : Reg) (k : Nat) (v : Word) :
    RegsOk { s with x := s.x.set r (s.x[r].set k v), written := s.written.set r true } := by
  refine ⟨h.1, fun q => ?_, h.2.2.1, h.2.2.2⟩
  by_cases hq : q = r
  · subst hq
    simpa using h.2.1 q
  · have hx : (s.x.set r (s.x[r].set k v))[q] = s.x[q] := Vector.getElem_set_ne _ _ (fun e => hq (Fin.ext e.symm))
    simpa only [hx] using h.2.1 q

/-- Everything a host step that answers a next state does, `s1` being the state with the access taken off the list:
it reads a location, writes one, ends a WAIT, resets the block, or has nothing to do. -/
theorem hostStep_cases {s t : State} (h : hostStep s = .next t) :
    (s.host.pending = [] ∧ t = s) ∨
    ∃ op rest, s.host.pending = op :: rest ∧
      ((∃ l, t = reply (readLocation l { s with host := { s.host with pending := rest } })) ∨
        (∃ l v, t = writeLocation l v { s with host := { s.host with pending := rest } }) ∨
        t = hardReset { s with host := { s.host with pending := rest } }) := by
  unfold hostStep at h
  split at h
  · cases h
    exact .inl ⟨‹_›, rfl⟩
  · rename_i op rest hp
    refine .inr ⟨op, rest, hp, ?_⟩
    cases op with
    | read width addr => exact .inl (onBus_next h)
    | write width addr v =>
      obtain ⟨l, hl⟩ := onBus_next h
      exact .inr (.inl ⟨l, v, hl⟩)
    | wait => cases h; exact .inl ⟨.status, rfl⟩
    | rst => cases h; exact .inr (.inr rfl)

end Sys2Proof.Machine
end

