-- ==== Sys2Proof/Laws/Exec.lean ====
section
/-! SUPPORT. Everything the engine's step on a decoded command can do, said once. -/

namespace Sys2Proof.Machine

/-- The four ways a command's engine step can end, apart from PSEARCH's start: an error, a commit of registers and
flags, a new Montgomery context, or a verdict with its draws. -/
inductive Ends (i : Instr) (s : State) : State → Prop where
  | raised (e : CmdError) (h : e ≠ .knuthCorrection) : Ends i s (raise e s)
  | committed (ws : List (Reg × Nat)) (fl : Flags) (hd : ∀ w ∈ ws, w.1 ∈ destinations i)
      (hv : ∀ w ∈ ws, w.2 < s.params.capacity) : Ends i s (complete { s.setRegs ws with flags := fl })
  | context (a : Reg) (hi : i = .msetup a) (ho : s.reg a % 2 = 1) :
      Ends i s (complete { s with mctx := mctx s.params (s.reg a) })
  | verdict (a : Reg) (hi : i = .isprime a) :
      Ends i s (complete { s with
        flags := s.flags.withP (isPrime s.params (s.reg a) s.engine.curWmode s.env).1
        env := (isPrime s.params (s.reg a) s.engine.curWmode s.env).2 })
  | started (d : Reg) (imm : Imm14) (hi : i = .psearch d imm) (hz : imm.toNat ≠ 0) (hm : imm.toNat ≤ s.params.HMAX) :
      Ends i s { s with
        engine := { s.engine with phase := .search }
        search := { s.search with
          found := false, cancel := false, workers := s.search.workers.map (fun w => { w with phase := .init }) } }

theorem ends_commitReg {i : Instr} {d : Reg} (v : Nat) (s : State) (h : destinations i = [d]) :
    Ends i s (commitReg d v s) := by
  by_cases hv : v < s.params.capacity
  · rw [commitReg, commit_of_fits _ (by simpa using hv)]
    exact .committed [(d, v)] s.flags (by simp [h]) (by simpa using hv)
  · rw [commitReg_of_exceeds d (by omega)]
    exact .raised _ (by decide)

theorem ends_commitFlags {i : Instr} (fl : Flags) (s : State) : Ends i s (commitFlags fl s) := by
  rw [commitFlags_eq]
  exact .committed [] fl (by simp) (by simp)

/-- Everything `exec` can do: it always answers a next state, one of those `Ends` lists. -/
theorem exec_ends (i : Instr) (s : State) : ∃ t, exec i s = .next t ∧ Ends i s t := by
  cases i with
  | ldi d imm => exact ⟨_, rfl, ends_commitReg _ s rfl⟩
  | lds d => exact ⟨_, rfl, ends_commitReg _ s rfl⟩
  | mov d a => exact ⟨_, rfl, ends_commitReg _ s rfl⟩
  | cmp a b => exact ⟨_, rfl, ends_commitFlags _ s⟩
  | cmps a => exact ⟨_, rfl, ends_commitFlags _ s⟩
  | add d a b => exact ⟨_, rfl, ends_commitReg _ s rfl⟩
  | sub d a b =>
    refine ⟨_, rfl, ?_⟩
    rw [subtract]
    split
    · exact .raised _ (by decide)
    · exact ends_commitReg _ s rfl
  | adds d a => exact ⟨_, rfl, ends_commitReg _ s rfl⟩
  | subs d a =>
    refine ⟨_, rfl, ?_⟩
    rw [subtract]
    split
    · exact .raised _ (by decide)
    · exact ends_commitReg _ s rfl
  | mul d a b => exact ⟨_, rfl, ends_commitReg _ s rfl⟩
  | muls d a => exact ⟨_, rfl, ends_commitReg _ s rfl⟩
  | shr d a imm =>
    refine ⟨_, rfl, ?_⟩
    split
    · exact .raised _ (by decide)
    · exact ends_commitReg _ s rfl
  | shll d a imm => exact ⟨_, rfl, ends_commitReg _ s rfl⟩
  | shrl d a imm => exact ⟨_, rfl, ends_commitReg _ s rfl⟩
  | btst a imm => exact ⟨_, rfl, ends_commitFlags _ s⟩
  | bset d a imm => exact ⟨_, rfl, ends_commitReg _ s rfl⟩
  | msb d a => exact ⟨_, rfl, ends_commitReg _ s rfl⟩
  | div d a b =>
    refine ⟨_, rfl, ?_⟩
    split
    · exact .raised _ (by decide)
    · exact ends_commitReg _ s rfl
  | mod d a b =>
    refine ⟨_, rfl, ?_⟩
    split
    · exact .raised _ (by decide)
    · exact ends_commitReg _ s rfl
  | divrem q r a b =>
    refine ⟨_, rfl, ?_⟩
    split
    · exact .raised _ (by decide)
    split
    · exact .raised _ (by decide)
    obtain ⟨hv, hc⟩ | ⟨_, hc⟩ :=
      commit_cases [(q, (divmod (s.reg a) (s.reg b)).1), (r, (divmod (s.reg a) (s.reg b)).2)] s.flags s
    · rw [hc]
      exact .committed _ _ (by simp [destinations]) hv
    · rw [hc]
      exact .raised _ (by decide)
  | divs d a =>
    refine ⟨_, rfl, ?_⟩
    split
    · exact .raised _ (by decide)
    · exact ends_commitReg _ s rfl
  | mods d a =>
    refine ⟨_, rfl, ?_⟩
    split
    · exact .raised _ (by decide)
    · exact ends_commitReg _ s rfl
  | msetup a =>
    refine ⟨_, rfl, ?_⟩
    split
    · exact .raised _ (by decide)
    · exact .context a rfl (by omega)
  | mtom d a =>
    refine ⟨_, rfl, ?_⟩
    split
    · exact .raised _ (by decide)
    · exact ends_commitReg _ s rfl
  | mmul d a b =>
    refine ⟨_, rfl, ?_⟩
    split
    · exact .raised _ (by decide)
    · exact ends_commitReg _ s rfl
  | mred d a =>
    refine ⟨_, rfl, ?_⟩
    split
    · exact .raised _ (by decide)
    · exact ends_commitReg _ s rfl
  | mexp d a b c =>
    refine ⟨_, rfl, ?_⟩
    split
    · exact .raised _ (by decide)
    · exact ends_commitReg _ s rfl
  | sieve a => exact ⟨_, rfl, ends_commitFlags _ s⟩
  | mrround a b =>
    refine ⟨_, rfl, ?_⟩
    split
    · exact .raised _ (by decide)
    · exact ends_commitFlags _ s
  | isprime a =>
    refine ⟨_, rfl, ?_⟩
    rw [commitFlags_eq]
    exact .verdict a rfl
  | psearch d imm =>
    refine ⟨_, rfl, ?_⟩
    split
    · exact .raised _ (by decide)
    · rename_i h
      simp only [immValue, not_or, not_lt] at h
      exact .started d imm rfl h.1 h.2

/-! ### The multiplication strategy -/

theorem raise_withStrategy (e : CmdError) (s : State) (k : Option Nat) :
    raise e (s.withStrategy k) = (raise e s).withStrategy k := rfl

theorem setRegs_withStrategy (s : State) (ws : List (Reg × Nat)) (k : Option Nat) :
    (s.withStrategy k).setRegs ws = (s.setRegs ws).withStrategy k := by
  induction ws generalizing s with
  | nil => rfl
  | cons w ws ih => exact ih (s.setReg w.1 w.2)

theorem commit_withStrategy (ws : List (Reg × Nat)) (fl : Flags) (s : State) (k : Option Nat) :
    commit ws fl (s.withStrategy k) = (commit ws fl s).withStrategy k := by
  obtain ⟨hv, hc⟩ | ⟨hv, hc⟩ := commit_cases ws fl s
  · rw [hc, commit_of_fits (s := s.withStrategy k) fl hv, setRegs_withStrategy]
    rfl
  · rw [hc, commit_of_exceeds (s := s.withStrategy k) fl hv, raise_withStrategy]

/-- An error check in front of two ends that both ignore the strategy. -/
theorem ite_withStrategy {c : Prop} [Decidable c] {a b a' b' : State} {k : Option Nat} (ha : a' = a.withStrategy k)
    (hb : b' = b.withStrategy k) : (if c then a' else b') = (if c then a else b).withStrategy k := by
  split
  · exact ha
  · exact hb

theorem mrRounds_withStrategy (p : Params) (k : Option Nat) (n : Nat) (mode : Bool) (count : Nat) (e : Env) :
    mrRounds { p with KTHRESH := k } n mode count e = mrRounds p n mode count e := by
  induction count generalizing e with
  | zero => rfl
  | succ count ih =>
    simp only [mrRounds, ih]
    rfl

theorem isPrime_withStrategy (p : Params) (k : Option Nat) (n : Nat) (mode : Bool) (e : Env) :
    isPrime { p with KTHRESH := k } n mode e = isPrime p n mode e := by
  simp only [isPrime, mrRounds_withStrategy]
  rfl

/-- No command's result, flag or error depends on the multiplication strategy (R7): with another Karatsuba threshold the
same command leaves the same state, the threshold apart. -/
theorem exec_withStrategy (i : Instr) (s t : State) (k : Option Nat) (h : exec i s = .next t) :
    exec i (s.withStrategy k) = .next (t.withStrategy k) := by
  have key : ∀ {u v : State}, Host.Outcome.next (φ := Fault) (ρ := Refusal) u = .next t → v = u.withStrategy k →
      Host.Outcome.next (φ := Fault) (ρ := Refusal) v = .next (t.withStrategy k) := by
    intro u v hu hv
    cases hu
    rw [hv]
  cases i with
  | ldi d imm => exact key h (commit_withStrategy _ _ s k)
  | lds d => exact key h (commit_withStrategy _ _ s k)
  | mov d a => exact key h (commit_withStrategy _ _ s k)
  | cmp a b => exact key h (commit_withStrategy _ _ s k)
  | cmps a => exact key h (commit_withStrategy _ _ s k)
  | add d a b => exact key h (commit_withStrategy _ _ s k)
  | sub d a b => exact key h (ite_withStrategy rfl (commit_withStrategy _ _ s k))
  | adds d a => exact key h (commit_withStrategy _ _ s k)
  | subs d a => exact key h (ite_withStrategy rfl (commit_withStrategy _ _ s k))
  | mul d a b => exact key h (commit_withStrategy _ _ s k)
  | muls d a => exact key h (commit_withStrategy _ _ s k)
  | shr d a imm => exact key h (ite_withStrategy rfl (commit_withStrategy _ _ s k))
  | shll d a imm => exact key h (commit_withStrategy _ _ s k)
  | shrl d a imm => exact key h (commit_withStrategy _ _ s k)
  | btst a imm => exact key h (commit_withStrategy _ _ s k)
  | bset d a imm => exact key h (commit_withStrategy _ _ s k)
  | msb d a => exact key h (commit_withStrategy _ _ s k)
  | div d a b => exact key h (ite_withStrategy rfl (commit_withStrategy _ _ s k))
  | mod d a b => exact key h (ite_withStrategy rfl (commit_withStrategy _ _ s k))
  | divrem q r a b =>
    exact key h (ite_withStrategy rfl (ite_withStrategy rfl (commit_withStrategy _ _ s k)))
  | divs d a => exact key h (ite_withStrategy rfl (commit_withStrategy _ _ s k))
  | mods d a => exact key h (ite_withStrategy rfl (commit_withStrategy _ _ s k))
  | msetup a => exact key h (ite_withStrategy rfl rfl)
  | mtom d a => exact key h (ite_withStrategy rfl (commit_withStrategy _ _ s k))
  | mmul d a b => exact key h (ite_withStrategy rfl (commit_withStrategy _ _ s k))
  | mred d a => exact key h (ite_withStrategy rfl (commit_withStrategy _ _ s k))
  | mexp d a b c => exact key h (ite_withStrategy rfl (commit_withStrategy _ _ s k))
  | sieve a => exact key h (commit_withStrategy _ _ s k)
  | mrround a b => exact key h (ite_withStrategy rfl (commit_withStrategy _ _ s k))
  | isprime a =>
    refine key h ?_
    have hp : isPrime (s.withStrategy k).params ((s.withStrategy k).reg a) (s.withStrategy k).engine.curWmode
        (s.withStrategy k).env = isPrime s.params (s.reg a) s.engine.curWmode s.env := isPrime_withStrategy ..
    rw [hp]
    exact commit_withStrategy _ _ { s with env := (isPrime s.params (s.reg a) s.engine.curWmode s.env).2 } k
  | psearch d imm => exact key h (ite_withStrategy rfl rfl)

/-! ### The engine's step -/

/-- The engine's step on CURCMD either raises what the decoder rejects or executes the decoded command. -/
theorem runCommand_cases (s : State) :
    (∃ e, decode s.engine.curCmd = .error e ∧ runCommand s = .next (raise (illegalCommand e) s)) ∨
    (∃ i, decode s.engine.curCmd = .ok i ∧ runCommand s = exec i s) := by
  unfold runCommand
  cases h : decode s.engine.curCmd with
  | error e => exact .inl ⟨e, rfl, rfl⟩
  | ok i => exact .inr ⟨i, rfl, rfl⟩

theorem illegalCommand_ne_knuth (e : DecodeError) : illegalCommand e ≠ .knuthCorrection := by
  cases e <;> decide

end Sys2Proof.Machine
end

