-- ==== Sys2Proof/Laws/PerInstr.lean ====
section
/-! SUPPORT. What is proved of every command, one lemma a constructor: its word has its row's opcode and meets its row's
mask (R67, R69). -/

namespace Sys2Proof.Laws

/-- The number of an assembled word, where every field is in its range. -/
theorem toNat_assemble {op d a b c imm : Nat} (ho : op < 64) (hd : d < 16) (ha : a < 16) (hb : b < 16)
    (hc : c * 2 ^ 10 + imm < 2 ^ 14) : (assemble op d a b c imm).toNat =
      op * 2 ^ 26 + d * 2 ^ 22 + a * 2 ^ 18 + b * 2 ^ 14 + c * 2 ^ 10 + imm := by
  rw [assemble, BitVec.toNat_ofNat]
  omega

/-- The opcode of an assembled word. -/
theorem opField_assemble {op d a b c imm : Nat} (ho : op < 64) (hd : d < 16) (ha : a < 16) (hb : b < 16)
    (hc : c * 2 ^ 10 + imm < 2 ^ 14) : opField (assemble op d a b c imm) = op := by
  rw [opField, bits, toNat_assemble ho hd ha hb hc]
  omega

/-- Two words agree under a mask when they agree at each of its bits. -/
theorem masked_eq (n mask m : Nat)
    (h : ∀ k, k < 32 → ((n / 2 ^ k % 2 = 1 ∧ mask / 2 ^ k % 2 = 1) ↔ m / 2 ^ k % 2 = 1)) :
    BitVec.ofNat 32 n &&& BitVec.ofNat 32 mask = BitVec.ofNat 32 m := by
  apply BitVec.eq_of_getLsbD_eq
  intro k hk
  have hk' := h k hk
  simp only [BitVec.getLsbD_and, BitVec.getLsbD_ofNat, Nat.testBit_eq_decide_div_mod_eq, hk, decide_true,
    Bool.true_and, ← Bool.decide_and]
  exact decide_eq_decide.2 hk'

theorem masked_R3 {op d a b : Nat} (hd : d < 16) (ha : a < 16) (hb : b < 16) :
    assemble op d a b 0 0 &&& maskR3 = BitVec.ofNat 32 (op * 2 ^ 26) := by
  refine masked_eq _ 0xFC003FFF _ fun k hk => ?_
  interval_cases k <;> omega

theorem masked_R2 {op d a : Nat} (hd : d < 16) (ha : a < 16) :
    assemble op d a 0 0 0 &&& maskR2 = BitVec.ofNat 32 (op * 2 ^ 26) := by
  refine masked_eq _ 0xFC03FFFF _ fun k hk => ?_
  interval_cases k <;> omega

theorem masked_R1D {op d : Nat} (hd : d < 16) :
    assemble op d 0 0 0 0 &&& maskR1D = BitVec.ofNat 32 (op * 2 ^ 26) := by
  refine masked_eq _ 0xFC3FFFFF _ fun k hk => ?_
  interval_cases k <;> omega

theorem masked_C2 {op a b : Nat} (ha : a < 16) (hb : b < 16) :
    assemble op 0 a b 0 0 &&& maskC2 = BitVec.ofNat 32 (op * 2 ^ 26) := by
  refine masked_eq _ 0xFFC03FFF _ fun k hk => ?_
  interval_cases k <;> omega

theorem masked_C1 {op a : Nat} (ha : a < 16) :
    assemble op 0 a 0 0 0 &&& maskC1 = BitVec.ofNat 32 (op * 2 ^ 26) := by
  refine masked_eq _ 0xFFC3FFFF _ fun k hk => ?_
  interval_cases k <;> omega

theorem masked_I1 {op d imm : Nat} (hd : d < 16) (himm : imm < 2 ^ 14) :
    assemble op d 0 0 0 imm &&& maskI1 = BitVec.ofNat 32 (op * 2 ^ 26) := by
  refine masked_eq _ 0xFC3FC000 _ fun k hk => ?_
  interval_cases k <;> omega

theorem masked_I2 {op d a imm : Nat} (hd : d < 16) (ha : a < 16) (himm : imm < 2 ^ 14) :
    assemble op d a 0 0 imm &&& maskI2 = BitVec.ofNat 32 (op * 2 ^ 26) := by
  refine masked_eq _ 0xFC03C000 _ fun k hk => ?_
  interval_cases k <;> omega

theorem masked_IC {op a imm : Nat} (ha : a < 16) (himm : imm < 2 ^ 14) :
    assemble op 0 a 0 0 imm &&& maskIC = BitVec.ofNat 32 (op * 2 ^ 26) := by
  refine masked_eq _ 0xFFC3C000 _ fun k hk => ?_
  interval_cases k <;> omega

theorem masked_R4 {op d a b c : Nat} (hd : d < 16) (ha : a < 16) (hb : b < 16) (hc : c < 16) :
    assemble op d a b c 0 &&& maskR4 = BitVec.ofNat 32 (op * 2 ^ 26) := by
  refine masked_eq _ 0xFC0003FF _ fun k hk => ?_
  interval_cases k <;> omega

namespace OpcodeRow

/-- The command's word names a row of the opcode map and meets that row's mask, so the decoder reaches the row's own
fields (R69, R72). -/
def Statement (i : Instr) : Prop :=
  ∃ row ∈ opcodeTable, rowOf (opField (encode i)) = some row ∧ encode i &&& row.mask = row.matchWord

/-- A row found under a word's opcode, with the word meeting its mask, gives the statement. -/
theorem of_row {i : Instr} {op : Nat} (row : Row) (hop : opField (encode i) = op) (hrow : rowOf op = some row)
    (hmask : encode i &&& row.mask = row.matchWord) : Statement i :=
  ⟨row, List.mem_of_find?_eq_some hrow, by rw [hop]; exact hrow, hmask⟩

theorem ldi (d : Reg) (imm : Imm14) : Statement (.ldi d imm) :=
  of_row _ (opField_assemble (by decide) d.isLt (by decide) (by decide) (by have := imm.isLt; omega)) rfl
    (masked_I1 (op := 0x01) d.isLt imm.isLt)

theorem lds (d : Reg) : Statement (.lds d) :=
  of_row _ (opField_assemble (by decide) d.isLt (by decide) (by decide) (by omega)) rfl
    (masked_R1D (op := 0x02) d.isLt)

theorem mov (d a : Reg) : Statement (.mov d a) :=
  of_row _ (opField_assemble (by decide) d.isLt a.isLt (by decide) (by omega)) rfl
    (masked_R2 (op := 0x03) d.isLt a.isLt)

theorem cmp (a b : Reg) : Statement (.cmp a b) :=
  of_row _ (opField_assemble (by decide) (by decide) a.isLt b.isLt (by omega)) rfl
    (masked_C2 (op := 0x04) a.isLt b.isLt)

theorem cmps (a : Reg) : Statement (.cmps a) :=
  of_row _ (opField_assemble (by decide) (by decide) a.isLt (by decide) (by omega)) rfl
    (masked_C1 (op := 0x05) a.isLt)

theorem add (d a b : Reg) : Statement (.add d a b) :=
  of_row _ (opField_assemble (by decide) d.isLt a.isLt b.isLt (by omega)) rfl
    (masked_R3 (op := 0x08) d.isLt a.isLt b.isLt)

theorem sub (d a b : Reg) : Statement (.sub d a b) :=
  of_row _ (opField_assemble (by decide) d.isLt a.isLt b.isLt (by omega)) rfl
    (masked_R3 (op := 0x09) d.isLt a.isLt b.isLt)

theorem adds (d a : Reg) : Statement (.adds d a) :=
  of_row _ (opField_assemble (by decide) d.isLt a.isLt (by decide) (by omega)) rfl
    (masked_R2 (op := 0x0A) d.isLt a.isLt)

theorem subs (d a : Reg) : Statement (.subs d a) :=
  of_row _ (opField_assemble (by decide) d.isLt a.isLt (by decide) (by omega)) rfl
    (masked_R2 (op := 0x0B) d.isLt a.isLt)

theorem mul (d a b : Reg) : Statement (.mul d a b) :=
  of_row _ (opField_assemble (by decide) d.isLt a.isLt b.isLt (by omega)) rfl
    (masked_R3 (op := 0x0C) d.isLt a.isLt b.isLt)

theorem muls (d a : Reg) : Statement (.muls d a) :=
  of_row _ (opField_assemble (by decide) d.isLt a.isLt (by decide) (by omega)) rfl
    (masked_R2 (op := 0x0D) d.isLt a.isLt)

theorem shr (d a : Reg) (imm : Imm14) : Statement (.shr d a imm) :=
  of_row _ (opField_assemble (by decide) d.isLt a.isLt (by decide) (by have := imm.isLt; omega)) rfl
    (masked_I2 (op := 0x10) d.isLt a.isLt imm.isLt)

theorem shll (d a : Reg) (imm : Imm14) : Statement (.shll d a imm) :=
  of_row _ (opField_assemble (by decide) d.isLt a.isLt (by decide) (by have := imm.isLt; omega)) rfl
    (masked_I2 (op := 0x11) d.isLt a.isLt imm.isLt)

theorem shrl (d a : Reg) (imm : Imm14) : Statement (.shrl d a imm) :=
  of_row _ (opField_assemble (by decide) d.isLt a.isLt (by decide) (by have := imm.isLt; omega)) rfl
    (masked_I2 (op := 0x12) d.isLt a.isLt imm.isLt)

theorem btst (a : Reg) (imm : Imm14) : Statement (.btst a imm) :=
  of_row _ (opField_assemble (by decide) (by decide) a.isLt (by decide) (by have := imm.isLt; omega)) rfl
    (masked_IC (op := 0x13) a.isLt imm.isLt)

theorem bset (d a : Reg) (imm : Imm14) : Statement (.bset d a imm) :=
  of_row _ (opField_assemble (by decide) d.isLt a.isLt (by decide) (by have := imm.isLt; omega)) rfl
    (masked_I2 (op := 0x14) d.isLt a.isLt imm.isLt)

theorem msb (d a : Reg) : Statement (.msb d a) :=
  of_row _ (opField_assemble (by decide) d.isLt a.isLt (by decide) (by omega)) rfl
    (masked_R2 (op := 0x15) d.isLt a.isLt)

theorem div (d a b : Reg) : Statement (.div d a b) :=
  of_row _ (opField_assemble (by decide) d.isLt a.isLt b.isLt (by omega)) rfl
    (masked_R3 (op := 0x18) d.isLt a.isLt b.isLt)

theorem mod (d a b : Reg) : Statement (.mod d a b) :=
  of_row _ (opField_assemble (by decide) d.isLt a.isLt b.isLt (by omega)) rfl
    (masked_R3 (op := 0x19) d.isLt a.isLt b.isLt)

theorem divrem (q r a b : Reg) : Statement (.divrem q r a b) :=
  of_row _ (opField_assemble (by decide) q.isLt a.isLt b.isLt (by have := r.isLt; omega)) rfl
    (masked_R4 (op := 0x1A) q.isLt a.isLt b.isLt r.isLt)

theorem divs (d a : Reg) : Statement (.divs d a) :=
  of_row _ (opField_assemble (by decide) d.isLt a.isLt (by decide) (by omega)) rfl
    (masked_R2 (op := 0x1B) d.isLt a.isLt)

theorem mods (d a : Reg) : Statement (.mods d a) :=
  of_row _ (opField_assemble (by decide) d.isLt a.isLt (by decide) (by omega)) rfl
    (masked_R2 (op := 0x1C) d.isLt a.isLt)

theorem msetup (a : Reg) : Statement (.msetup a) :=
  of_row _ (opField_assemble (by decide) (by decide) a.isLt (by decide) (by omega)) rfl
    (masked_C1 (op := 0x20) a.isLt)

theorem mtom (d a : Reg) : Statement (.mtom d a) :=
  of_row _ (opField_assemble (by decide) d.isLt a.isLt (by decide) (by omega)) rfl
    (masked_R2 (op := 0x21) d.isLt a.isLt)

theorem mmul (d a b : Reg) : Statement (.mmul d a b) :=
  of_row _ (opField_assemble (by decide) d.isLt a.isLt b.isLt (by omega)) rfl
    (masked_R3 (op := 0x22) d.isLt a.isLt b.isLt)

theorem mred (d a : Reg) : Statement (.mred d a) :=
  of_row _ (opField_assemble (by decide) d.isLt a.isLt (by decide) (by omega)) rfl
    (masked_R2 (op := 0x23) d.isLt a.isLt)

theorem mexp (d a b c : Reg) : Statement (.mexp d a b c) :=
  of_row _ (opField_assemble (by decide) d.isLt a.isLt b.isLt (by have := c.isLt; omega)) rfl
    (masked_R4 (op := 0x24) d.isLt a.isLt b.isLt c.isLt)

theorem sieve (a : Reg) : Statement (.sieve a) :=
  of_row _ (opField_assemble (by decide) (by decide) a.isLt (by decide) (by omega)) rfl
    (masked_C1 (op := 0x28) a.isLt)

theorem mrround (a b : Reg) : Statement (.mrround a b) :=
  of_row _ (opField_assemble (by decide) (by decide) a.isLt b.isLt (by omega)) rfl
    (masked_C2 (op := 0x29) a.isLt b.isLt)

theorem isprime (a : Reg) : Statement (.isprime a) :=
  of_row _ (opField_assemble (by decide) (by decide) a.isLt (by decide) (by omega)) rfl
    (masked_C1 (op := 0x2A) a.isLt)

theorem psearch (d : Reg) (imm : Imm14) : Statement (.psearch d imm) :=
  of_row _ (opField_assemble (by decide) d.isLt (by decide) (by decide) (by have := imm.isLt; omega)) rfl
    (masked_I1 (op := 0x30) d.isLt imm.isLt)

end OpcodeRow

end Sys2Proof.Laws
end

