-- ==== Sys2Proof/Laws/Primality.lean ====
section
/-! SUPPORT. Everything the sieve and the witness rounds of is_prime can answer, said once. -/

namespace Sys2Proof.Machine

/-- The draws in turn end where the last of them leaves the free inputs. -/
theorem drawsInTurn_succ_snd (lo hi k : Nat) (e : Env) :
    (drawsInTurn lo hi (k + 1) e).2 = (draw lo hi (drawsInTurn lo hi k e).2).2 := by
  induction k generalizing e with
  | zero => rfl
  | succ k ih => rw [drawsInTurn, ih]; rfl

/-- The rounds of R112 step 3 pass on every one of the drawn witnesses, or end with the first that fails. -/
theorem mrRounds_cases (p : Params) (n : Nat) (mode : Bool) (count : Nat) (e : Env) :
    ((∀ a ∈ (drawsInTurn Config.WLO (witnessMax n mode) count e).1, mrRound p n a = true) ∧
      mrRounds p n mode count e = (true, (drawsInTurn Config.WLO (witnessMax n mode) count e).2)) ∨
    (∃ k, k < count ∧ (∀ a ∈ (drawsInTurn Config.WLO (witnessMax n mode) k e).1, mrRound p n a = true) ∧
      mrRound p n (draw Config.WLO (witnessMax n mode) (drawsInTurn Config.WLO (witnessMax n mode) k e).2).1 = false ∧
      (draw Config.WLO (witnessMax n mode) (drawsInTurn Config.WLO (witnessMax n mode) k e).2).1 ∈
        (drawsInTurn Config.WLO (witnessMax n mode) count e).1 ∧
      mrRounds p n mode count e = (false, (drawsInTurn Config.WLO (witnessMax n mode) (k + 1) e).2)) := by
  induction count generalizing e with
  | zero => exact .inl ⟨by simp [drawsInTurn], rfl⟩
  | succ count ih =>
    simp only [mrRounds]
    by_cases h : mrRound p n (draw Config.WLO (witnessMax n mode) e).1 = true
    · rw [if_pos h]
      obtain ⟨ha, hr⟩ | ⟨k, hk, ha, hf, hm, hr⟩ := ih (draw Config.WLO (witnessMax n mode) e).2
      · exact .inl ⟨by simpa [drawsInTurn, h] using ha, hr⟩
      · exact .inr ⟨k + 1, Nat.succ_lt_succ hk, by simpa [drawsInTurn, h] using ha, hf, List.mem_cons_of_mem _ hm, hr⟩
    · rw [if_neg h]
      exact .inr ⟨0, Nat.succ_pos _, by simp [drawsInTurn], (Bool.not_eq_true _).mp h, List.mem_cons_self, rfl⟩

/-- The sieve over a list that divides n by none of its numbers decides nothing (R109). -/
theorem sieveOver_undecided (n : Nat) (l : List Nat) (h : ∀ q ∈ l, ¬ q ∣ n) : sieveOver n l = .undecided := by
  induction l with
  | nil => rfl
  | cons q qs ih =>
    have hq := h q List.mem_cons_self
    have hn : q ≠ n := fun e => hq (e ▸ Nat.dvd_refl q)
    rw [sieveOver, if_neg hn, if_neg (fun e => hq (Nat.dvd_of_mod_eq_zero e))]
    exact ih fun r hr => h r (List.mem_cons_of_mem _ hr)

/-- A number the sieve over a list does not reject is in the list, or no number of the list divides it (R109). -/
theorem sieveOver_of_not_reject (n : Nat) (l : List Nat) (h : sieveOver n l ≠ .reject) :
    n ∈ l ∨ ∀ q ∈ l, ¬ q ∣ n := by
  induction l with
  | nil => exact .inr (by simp)
  | cons q qs ih =>
    rw [sieveOver] at h
    split at h
    · exact .inl (by simp [*])
    · split at h
      · exact absurd rfl h
      · rename_i h1 h2
        obtain hm | hd := ih h
        · exact .inl (List.mem_cons_of_mem _ hm)
        · refine .inr fun r hr => ?_
          obtain rfl | hr := List.mem_cons.1 hr
          · exact fun e => h2 (Nat.mod_eq_zero_of_dvd e)
          · exact hd r hr

end Sys2Proof.Machine
end

