-- ==== Sys2Proof/Laws/Step.lean ====
section
/-! SUPPORT. Which agent a step moves, said once, and the invariant principle over all steps. -/

namespace Sys2Proof.Machine

/-- Which agents may step does not depend on the free inputs. -/
theorem enabledAgents_env (s : State) (e : Env) : enabledAgents { s with env := e } = enabledAgents s := rfl

theorem freeChoice_mem (agents : List Agent) (e : Env) (a : Agent) (h : (freeChoice agents e).1 = some a) :
    a ∈ agents := by
  unfold freeChoice at h
  split at h
  · cases h
  · simpa using h.symm
  · exact List.mem_of_getElem? h

theorem freeChoice_none (agents : List Agent) (e : Env) (h : (freeChoice agents e).1 = none) : agents = [] := by
  unfold freeChoice at h
  split at h
  · rfl
  · cases h
  · rename_i a b rest
    simp only [List.getElem?_eq_none_iff] at h
    have := Nat.mod_lt (Config.free e.freeCount) (show 0 < (a :: b :: rest).length by simp)
    omega

/-- Everything the choice of an agent does (R20): it picks one that may step, or nobody where none may, and changes
nothing but the free inputs. -/
theorem chooseAgent_cases (s : State) :
    (∃ a e, chooseAgent s = (some a, { s with env := e }) ∧ a ∈ enabledAgents s) ∨
    (∃ e, chooseAgent s = (none, { s with env := e }) ∧ enabledAgents s = []) := by
  unfold chooseAgent
  split
  · cases h : (freeChoice (enabledAgents s) s.env).1 with
    | none => exact .inr ⟨(freeChoice (enabledAgents s) s.env).2, by simp [h], freeChoice_none _ _ h⟩
    | some a => exact .inl ⟨a, (freeChoice (enabledAgents s) s.env).2, by simp [h], freeChoice_mem _ _ _ h⟩
  · rename_i t rest _
    split
    · exact .inl ⟨t, _, rfl, ‹_›⟩
    · cases h : (freeChoice (enabledAgents s) { s.env with turns := rest }).1 with
      | none => exact .inr ⟨(freeChoice (enabledAgents s) { s.env with turns := rest }).2, by simp [h],
          freeChoice_none _ _ h⟩
      | some a => exact .inl ⟨a, (freeChoice (enabledAgents s) { s.env with turns := rest }).2, by simp [h],
          freeChoice_mem _ _ _ h⟩

/-- A turn named for an agent that may step is that agent's. -/
theorem step_of_turn {s : State} {a : Agent} {rest : List Agent} (ht : s.env.turns = a :: rest)
    (ha : a ∈ enabledAgents s) : step s = agentStep a { s with env := { s.env with turns := rest } } := by
  have h : chooseAgent s = (some a, { s with env := { s.env with turns := rest } }) := by
    unfold chooseAgent
    rw [ht]
    simp only [if_pos ha]
  rw [step, machineStep, h]

/-- Everything a step can be: the step of an agent that may step, or a wait; the free inputs may be used up. -/
theorem step_cases (s : State) :
    (∃ a e, a ∈ enabledAgents s ∧ step s = agentStep a { s with env := e }) ∨
    (∃ e, enabledAgents s = [] ∧ step s = .next { s with env := e }) := by
  obtain ⟨a, e, h, ha⟩ | ⟨e, h, hn⟩ := chooseAgent_cases s
  · exact .inl ⟨a, e, ha, by rw [step, machineStep, h]⟩
  · exact .inr ⟨e, hn, by rw [step, machineStep, h]⟩

/-- The invariant principle: what a change of the free inputs and every agent's step keep, every step keeps. -/
theorem preserved_of_agents {P : State → Prop} (henv : ∀ s e, P s → P { s with env := e })
    (hagent : ∀ s t a, a ∈ enabledAgents s → P s → agentStep a s = .next t → P t) : Preserved P := by
  intro s t hs h
  obtain ⟨a, e, ha, hstep⟩ | ⟨e, _, hstep⟩ := step_cases s
  · rw [hstep] at h
    exact hagent _ t a (by rwa [enabledAgents_env]) (henv s e hs) h
  · rw [hstep] at h
    cases h
    exact henv s e hs

/-- Everything the engine's step does (R20, R117, R122). -/
theorem engineStep_cases {s t : State} (h : engineStep s = .next t) :
    t = s ∨ (CommandPending s ∧ runCommand s = .next t) ∨
    (s.engine.phase = .search ∧ s.searchUnstarted = false ∧ s.searchEnded = true ∧ t = finishSearch s) := by
  unfold engineStep at h
  split at h
  · cases h; exact .inl rfl
  · exact .inr (.inl ⟨.inl ‹_›, h⟩)
  · split at h
    · exact .inr (.inl ⟨.inr ⟨‹_›, ‹_›⟩, h⟩)
    · split at h
      · cases h
        exact .inr (.inr ⟨‹_›, by simpa using ‹¬s.searchUnstarted = true›, ‹_›, rfl⟩)
      · cases h; exact .inl rfl

/-- Everything a worker's step does (R118 to R120). -/
theorem workerStep_cases (w : Nat) (s : State) :
    workerStep w s = s ∨ ∃ v, s.search.workers[w]? = some v ∧
      ((v.phase = .init ∧ workerStep w s = workerInit w s) ∨ (v.phase = .head ∧ workerStep w s = workerHead w v s) ∨
        (v.phase = .test ∧ workerStep w s = workerTest w v s)) := by
  unfold workerStep
  cases hw : s.search.workers[w]? with
  | none => exact .inl rfl
  | some v => cases hp : v.phase <;> simp [hp]

/-- Where only the engine may step, the step is the engine's. -/
theorem step_of_engine_alone {s : State} (ht : s.env.turns = []) (h : enabledAgents s = [.engine]) :
    step s = engineStep s := by
  have hc : chooseAgent s = (some .engine, s) := by
    unfold chooseAgent
    rw [ht, h]
    rfl
  rw [step, machineStep, hc]
  rfl

end Sys2Proof.Machine
end

