-- ==== Sys2Proof/Tests/Slice0.lean ====
section
/-! SUPPORT. The model's own tests: the well-formedness smoke test, words decoded as the spec writes them out, one-step
tests with the results spec/95_test_vectors.md prints, and a witness for the hypotheses of every statement. -/

namespace Sys2Proof.Tests

open Sys2Proof.Machine

/-! The kernel evaluates these theorems one after another: many evaluations at once would exhaust the memory. -/
set_option Elab.async false

/-! ### Small states -/

/-- A two-limb block of 32-bit limbs with two workers and the smallest sieve table. -/
def small : Params := { W := 32, CAP := 2, NWORK := 2, NSIEVE := 3512, BASE := 0, KTHRESH := none }

/-- The same with 64-bit limbs. -/
def small64 : Params := { small with W := 64 }

/-- The same with one limb a register. -/
def oneLimb : Params := { small with CAP := 1 }

/-- An idle block with every register zero. -/
def quiet (p : Params) : State :=
  { params := p
    x := Vector.replicate 16 (wordsOf p.windowWords 0)
    written := Vector.replicate 16 false
    scalar := 0
    status := .cleared
    flags := .cleared
    error := .cleared
    ctrl := .cleared
    werrCnt := 0
    engine := .cleared
    mctx := { valid := false, m := 0, k := 0, R := 0, minv := 0 }
    search := { found := false, value := 0, cancel := false, workers := List.replicate p.NWORK ⟨.idle, 0⟩ }
    host := { pending := [], replies := [] }
    env := { entropy := [], turns := [], freeCount := 0 } }

/-- A quiet block with some registers and SCALAR loaded. -/
def loaded (p : Params) (regs : List (Reg × Nat)) (scalar : Nat) : State :=
  { (quiet p).setRegs regs with scalar := scalar }

/-- The context of m = 7 at W = 32, with the numbers of spec/95 section 2.5. -/
def withContextOf7 (s : State) : State :=
  { s with mctx := { valid := true, m := 7, k := 1, R := 2 ^ 32, minv := 0xb6db6db7 } }

/-- The entropy source's next answers. -/
def withAnswers (answers : List Nat) (s : State) : State := { s with env := { s.env with entropy := answers } }

/-- The host's next accesses. -/
def asking (ops : List HostOp) (s : State) : State := { s with host := { s.host with pending := ops } }

/-- The block with word `c` accepted, nothing else changed. -/
def pending (c : Word) (s : State) : State := accept c s

/-- The one step that runs word `w` leaves these registers, this STATUS and this ERRCODE, with the word in ERRCMD on an
error and every register kept. -/
def shows (s : State) (w : Word) (regs : List (Reg × Nat)) (status code : Word) : Bool :=
  match step (s.withFetchWord 32 w.toNat) with
  | .next t =>
    regs.all (fun r => t.reg r.1 == r.2) && hostReads t 0x00C == status && hostReads t 0x010 == code &&
      (code == 0 || (t.x == s.x && hostReads t 0x014 == w))
  | .fault _ => false
  | .refused _ => false

/-! ### Well-formedness -/

theorem test_wellFormed_refuses_one_destination : (Instr.divrem 3 3 1 2).WellFormed = false := by decide

theorem test_wellFormed_accepts_two_destinations : (Instr.divrem 3 4 1 2).WellFormed = true := by decide

theorem test_decode_refuses_one_destination : decode 0x68C48C00 = .error .destConflict := by decide

/-! ### Decoding: words written out from R62, R67 and R73, as spec/95 and spec/30 print them -/

theorem test_decode_move_compare :
    decode 0x044000FF = .ok (.ldi 1 255) ∧ decode 0x09000000 = .ok (.lds 4) ∧ decode 0x0C840000 = .ok (.mov 2 1) ∧
    decode 0x10048000 = .ok (.cmp 1 2) ∧ decode 0x14040000 = .ok (.cmps 1) := by decide

theorem test_decode_add_sub :
    decode 0x20C48000 = .ok (.add 3 1 2) ∧ decode 0x24C48000 = .ok (.sub 3 1 2) ∧
    decode 0x28840000 = .ok (.adds 2 1) ∧ decode 0x2C840000 = .ok (.subs 2 1) := by decide

theorem test_decode_mul_shift_bit :
    decode 0x30C48000 = .ok (.mul 3 1 2) ∧ decode 0x34840000 = .ok (.muls 2 1) ∧
    decode 0x40840020 = .ok (.shr 2 1 32) ∧ decode 0x44843FFF = .ok (.shll 2 1 16383) ∧
    decode 0x48840001 = .ok (.shrl 2 1 1) ∧ decode 0x4C040007 = .ok (.btst 1 7) ∧
    decode 0x50840800 = .ok (.bset 2 1 2048) ∧ decode 0x54840000 = .ok (.msb 2 1) := by decide

theorem test_decode_division :
    decode 0x60C48000 = .ok (.div 3 1 2) ∧ decode 0x64C48000 = .ok (.mod 3 1 2) ∧
    decode 0x68C49000 = .ok (.divrem 3 4 1 2) ∧ decode 0x6C840000 = .ok (.divs 2 1) ∧
    decode 0x70C40000 = .ok (.mods 3 1) := by decide

theorem test_decode_montgomery :
    decode 0x800C0000 = .ok (.msetup 3) ∧ decode 0x85440000 = .ok (.mtom 5 1) ∧
    decode 0x89950000 = .ok (.mmul 6 5 4) ∧ decode 0x8DD80000 = .ok (.mred 7 6) ∧
    decode 0x91048C00 = .ok (.mexp 4 1 2 3) := by decide

theorem test_decode_primality_search :
    decode 0xA0040000 = .ok (.sieve 1) ∧ decode 0xA4048000 = .ok (.mrround 1 2) ∧
    decode 0xA8140000 = .ok (.isprime 5) ∧ decode 0xC04000C0 = .ok (.psearch 1 192) := by decide

theorem test_decode_rejects_by_name :
    decode 0 = .error .reservedOpcode ∧ decode 0xFC000000 = .error .reservedOpcode ∧
    decode 0x04440005 = .error .reservedField ∧ decode 0x10448000 = .error .reservedField := by decide

theorem test_encode_spec_words :
    encode (.divrem 3 4 1 2) = 0x68C49000 ∧ encode (.mexp 4 1 2 3) = 0x91048C00 ∧
    encode (.btst 1 7) = 0x4C040007 ∧ encode (.odd 2 1) = 0x50840000 := by decide

/-! ### One command, one step: start and end states of spec/95 section 2 -/

/-- LDI x1, 16383. -/
theorem test_ldi_loads_the_largest_immediate :
    shows (loaded small [] 0) 0x04403FFF [(1, 0x3fff)] 0x0002 0 = true := by decide +kernel

/-- LDS x4. -/
theorem test_lds_loads_a_full_limb :
    shows (loaded small [] 0xffffffff) 0x09000000 [(4, 0xffffffff)] 0x0002 0 = true := by decide +kernel

/-- LDS x4, W = 64. -/
theorem test_lds_loads_a_full_64_bit_limb :
    shows (loaded small64 [] 0xfedcba9876543210) 0x09000000 [(4, 0xfedcba9876543210)] 0x0002 0 = true := by decide +kernel

/-- MOV x2, x1. -/
theorem test_mov_copies :
    shows (loaded small [(1, 0x10000000000005)] 0) 0x0C840000 [(2, 0x10000000000005), (1, 0x10000000000005)] 0x0002 0 = true := by decide +kernel

/-- CMP x1, x2. -/
theorem test_cmp_less :
    shows (loaded small [(1, 0xff), (2, 0x100)] 0) 0x10048000 [] 0x0102 0 = true := by decide +kernel

/-- CMP x1, x2. -/
theorem test_cmp_longer_is_greater :
    shows (loaded small [(1, 0x100000000), (2, 0xffffffff)] 0) 0x10048000 [] 0x0402 0 = true := by decide +kernel

/-- CMPS x1. -/
theorem test_cmps_zero_equals_zero :
    shows (loaded small [(1, 0)] 0) 0x14040000 [] 0x0202 0 = true := by decide +kernel

/-- CMPS x1. -/
theorem test_cmps_longer_is_greater :
    shows (loaded small [(1, 0x100000000)] 0xffffffff) 0x14040000 [] 0x0402 0 = true := by decide +kernel

/-- ADD x3, x1, x2. -/
theorem test_add_carries_into_a_new_limb :
    shows (loaded small [(1, 0xffffffff), (2, 1)] 0) 0x20C48000 [(3, 0x100000000)] 0x0002 0 = true := by decide +kernel

/-- ADD x3, x1, x2. -/
theorem test_add_exceeds_capacity :
    shows (loaded small [(1, 0xffffffffffffffff), (2, 1), (3, 9)] 0) 0x20C48000 [(3, 9)] 0x0006 0x0005 = true := by decide +kernel

/-- SUB x3, x1, x2. -/
theorem test_sub_borrows_across_limbs :
    shows (loaded small [(1, 0x100000000), (2, 1)] 0) 0x24C48000 [(3, 0xffffffff)] 0x0002 0 = true := by decide +kernel

/-- SUB x3, x1, x2. -/
theorem test_sub_underflow_writes_nothing :
    shows (loaded small [(1, 1), (2, 2), (3, 9)] 0) 0x24C48000 [(3, 9)] 0x0006 0x0501 = true := by decide +kernel

/-- ADDS x2, x1. -/
theorem test_adds_carries :
    shows (loaded small [(1, 0xffffffff)] 2) 0x28840000 [(2, 0x100000001)] 0x0002 0 = true := by decide +kernel

/-- SUBS x2, x1. -/
theorem test_subs_subtracts_the_scalar :
    shows (loaded small [(1, 0x10001)] 1) 0x2C840000 [(2, 0x10000)] 0x0002 0 = true := by decide +kernel

/-- SUBS x2, x1. -/
theorem test_subs_underflow :
    shows (loaded small [(1, 3)] 4) 0x2C840000 [(1, 3)] 0x0006 0x0501 = true := by decide +kernel

/-- MUL x3, x1, x2. -/
theorem test_mul_full_limbs :
    shows (loaded small [(1, 0xffffffff), (2, 0xffffffff)] 0) 0x30C48000 [(3, 0xfffffffe00000001)] 0x0002 0 = true := by decide +kernel

/-- MUL x3, x1, x2, CAP = 1. -/
theorem test_mul_exceeds_one_limb :
    shows (loaded oneLimb [(1, 0xffffffff), (2, 0xffffffff)] 0) 0x30C48000 [(3, 0)] 0x0006 0x0005 = true := by decide +kernel

/-- MULS x2, x1. -/
theorem test_muls_multiplies_by_the_scalar :
    shows (loaded small [(1, 0x100)] 0x100) 0x34840000 [(2, 0x10000)] 0x0002 0 = true := by decide +kernel

/-- SHR x2, x1, 32. -/
theorem test_shr_by_the_limb_width :
    shows (loaded small [(1, 0x1000000000001)] 0) 0x40840020 [(2, 0x10000)] 0x0002 0 = true := by decide +kernel

/-- SHR x2, x1, 33. -/
theorem test_shr_beyond_the_limb_width :
    shows (loaded small [(1, 0x1000000000001)] 0) 0x40840021 [(2, 0)] 0x0006 0x0301 = true := by decide +kernel

/-- SHLL x2, x1, 1. -/
theorem test_shll_moves_a_limb :
    shows (loaded small [(1, 5)] 0) 0x44840001 [(2, 0x500000000)] 0x0002 0 = true := by decide +kernel

/-- SHLL x2, x1, 16383. -/
theorem test_shll_of_zero_always_fits :
    shows (loaded small [(1, 0)] 0) 0x44843FFF [(2, 0)] 0x0002 0 = true := by decide +kernel

/-- SHRL x2, x1, 1. -/
theorem test_shrl_drops_a_limb :
    shows (loaded small [(1, 0x500000007)] 0) 0x48840001 [(2, 5)] 0x0002 0 = true := by decide +kernel

/-- BTST x1, 7. -/
theorem test_btst_reads_a_set_bit :
    shows (loaded small [(1, 0x80)] 0) 0x4C040007 [] 0x0802 0 = true := by decide +kernel

/-- BTST x1, 7. -/
theorem test_btst_reads_a_clear_bit :
    shows (loaded small [(1, 0x7f)] 0) 0x4C040007 [] 0x0002 0 = true := by decide +kernel

/-- BSET x2, x1, 0. -/
theorem test_bset_sets_bit_zero :
    shows (loaded small [(1, 0x10)] 0) 0x50840000 [(2, 0x11)] 0x0002 0 = true := by decide +kernel

/-- BSET x2, x1, 64, CAP = 2. -/
theorem test_bset_one_past_the_capacity :
    shows (loaded small [(1, 0)] 0) 0x50840040 [(2, 0)] 0x0006 0x0005 = true := by decide +kernel

/-- MSB x2, x1. -/
theorem test_msb_of_a_full_limb :
    shows (loaded small [(1, 0xffffffff)] 0) 0x54840000 [(2, 32)] 0x0002 0 = true := by decide +kernel

/-- MSB x2, x1. -/
theorem test_msb_of_zero :
    shows (loaded small [(1, 0), (2, 7)] 0) 0x54840000 [(2, 0)] 0x0002 0 = true := by decide +kernel

/-- DIV x3, x1, x2. -/
theorem test_div_where_the_literal_loop_fails :
    shows (loaded small [(1, 0x300000000), (2, 0x200000000)] 0) 0x60C48000 [(3, 1)] 0x0002 0 = true := by decide +kernel

/-- DIV x3, x1, x2. -/
theorem test_div_by_zero :
    shows (loaded small [(1, 5)] 0) 0x60C48000 [(3, 0)] 0x0006 0x0101 = true := by decide +kernel

/-- MOD x3, x1, x2. -/
theorem test_mod_where_the_literal_loop_fails :
    shows (loaded small [(1, 0x300000000), (2, 0x200000000)] 0) 0x64C48000 [(3, 0x100000000)] 0x0002 0 = true := by decide +kernel

/-- DIVREM x1, x2, x1, x2. -/
theorem test_divrem_over_its_own_sources :
    shows (loaded small [(1, 100), (2, 7)] 0) 0x68448800 [(1, 14), (2, 2)] 0x0002 0 = true := by decide +kernel

/-- DIVREM x3, x3, x1, x2. -/
theorem test_divrem_with_one_destination :
    shows (loaded small [(1, 5), (2, 3)] 0) 0x68C48C00 [(3, 0)] 0x0006 0x0304 = true := by decide +kernel

/-- DIVS x2, x1. -/
theorem test_divs_divides_by_the_scalar :
    shows (loaded small [(1, 0x1000000000001)] 7) 0x6C840000 [(2, 0x249249249249)] 0x0002 0 = true := by decide +kernel

/-- MODS x2, x1. -/
theorem test_mods_remainder_by_the_scalar :
    shows (loaded small [(1, 0x1000000000001)] 7) 0x70840000 [(2, 2)] 0x0002 0 = true := by decide +kernel

/-- MODS x2, x1. -/
theorem test_mods_by_zero :
    shows (loaded small [(1, 5)] 0) 0x70840000 [(2, 0)] 0x0006 0x0101 = true := by decide +kernel

/-- MTOM x5, x1, context of 7. -/
theorem test_mtom_converts :
    shows (withContextOf7 (loaded small [(1, 3)] 0)) 0x85440000 [(5, 5)] 0x0002 0 = true := by decide +kernel

/-- MTOM x5, x1. -/
theorem test_mtom_without_context :
    shows (loaded small [(1, 3)] 0) 0x85440000 [(5, 0)] 0x0006 0x0801 = true := by decide +kernel

/-- MMUL x6, x5, x5, context of 7. -/
theorem test_mmul_multiplies :
    shows (withContextOf7 (loaded small [(5, 5)] 0)) 0x89954000 [(6, 1)] 0x0002 0 = true := by decide +kernel

/-- MMUL x6, x5, x5, context of 7. -/
theorem test_mmul_of_unreduced_inputs :
    shows (withContextOf7 (loaded small [(5, 0x10000000000)] 0)) 0x89954000 [(6, 0xfffffffffff9)] 0x0002 0 = true := by decide +kernel

/-- MRED x7, x6, context of 7. -/
theorem test_mred_converts_out :
    shows (withContextOf7 (loaded small [(6, 1)] 0)) 0x8DD80000 [(7, 2)] 0x0002 0 = true := by decide +kernel

/-- MEXP x4, x1, x2, x3. -/
theorem test_mexp_source_scenario :
    shows (loaded small [(1, 12345), (2, 7), (3, 0x10001)] 0) 0x91048C00 [(4, 0xa322)] 0x0002 0 = true := by decide +kernel

/-- MEXP x4, x1, x2, x3. -/
theorem test_mexp_zero_to_the_zero_mod_one :
    shows (loaded small [(1, 0), (2, 0), (3, 1), (4, 8)] 0) 0x91048C00 [(4, 0)] 0x0002 0 = true := by decide +kernel

/-- SIEVE x1. -/
theorem test_sieve_finds_a_factor :
    shows (loaded small [(1, 561)] 0) 0xA0040000 [] 0x0002 0 = true := by decide +kernel

/-- SIEVE x1. -/
theorem test_sieve_accepts_a_table_prime :
    shows (loaded small [(1, 2)] 0) 0xA0040000 [] 0x1002 0 = true := by decide +kernel

/-- MRROUND x1, x2. -/
theorem test_mrround_strong_pseudoprime :
    shows (loaded small [(1, 2047), (2, 2)] 0) 0xA4048000 [] 0x1002 0 = true := by decide +kernel

/-- MRROUND x1, x2. -/
theorem test_mrround_witness :
    shows (loaded small [(1, 2047), (2, 3)] 0) 0xA4048000 [] 0x0002 0 = true := by decide +kernel

/-- ISPRIME x1. -/
theorem test_isprime_table_composite :
    shows (loaded small [(1, 561)] 0) 0xA8040000 [] 0x0002 0 = true := by decide +kernel

/-- ISPRIME x1, every draw 31386. -/
theorem test_isprime_strong_liar_drawn_each_time :
    shows (withAnswers (List.replicate 50 31384) (loaded .reference [(1, 7063898209)] 0)) 0xA8040000 [] 0x1002 0 = true := by decide +kernel

/-- PSEARCH x1, 0. -/
theorem test_psearch_zero_digits :
    shows (loaded small [] 0) 0xC0400000 [(1, 0)] 0x0006 0x0601 = true := by decide +kernel

/-- word 0. -/
theorem test_illegal_zero_word :
    shows (loaded small [] 0) 0x00000000 [] 0x0006 0x0104 = true := by decide +kernel

/-- DIV x3, x1, x2 with C = 1. -/
theorem test_illegal_field_before_divisor :
    shows (loaded small [(1, 5)] 0) 0x60C48400 [] 0x0006 0x0204 = true := by decide +kernel

/-- `PSEARCH x1, 1`: the start step releases both workers and leaves the command in progress. -/
theorem test_psearch_starts :
    (match step ((loaded small [] 0).withFetchWord 32 0xC0400001) with
      | .next t => t.search.workers.map (·.phase) == [.init, .init] && t.busy
      | _ => false) = true := by decide +kernel

/-! ### The search's other steps, the bus and the resets (spec/95 sections 2.8 and 2.9) -/

/-- A search for one digit under way, its workers as given. -/
def searching (found : Bool) (value : Nat) (workers : List Worker) : State :=
  { pending 0xC0400001 (quiet small) with
    search := { found := found, value := value, cancel := found, workers := workers } }

/-- The draw of 14 starts the walk at 15. -/
theorem test_worker_init_sets_bit_zero :
    (workerStep 0 (withAnswers [6] (searching false 0 [⟨.init, 0⟩, ⟨.init, 0⟩]))).search.workers =
      [⟨.head, 15⟩, ⟨.init, 0⟩] := by decide +kernel

/-- 9 is composite: the walk goes to 11. -/
theorem test_worker_steps_over_composite :
    (workerStep 0 (searching false 0 [⟨.test, 9⟩, ⟨.head, 13⟩])).search.workers = [⟨.head, 11⟩, ⟨.head, 13⟩] := by
  decide +kernel

/-- Schedule D: 11 is found after 13 was published, and the value stays 13. -/
theorem test_first_writer_wins :
    (workerStep 0 (searching true 13 [⟨.test, 11⟩, ⟨.exited, 13⟩])).search =
      { found := true, value := 13, cancel := true, workers := [⟨.exited, 11⟩, ⟨.exited, 13⟩] } := by decide +kernel

/-- The finish step: x1 = 13, STATUS = 0x1002. -/
theorem test_finish_commits_the_value :
    (match step { searching true 13 [⟨.exited, 11⟩, ⟨.exited, 13⟩] with
        env := { entropy := [], turns := [.engine], freeCount := 0 } } with
      | .next t => t.reg 1 == 13 && hostReads t 0x00C == 0x1002
      | _ => false) = true := by decide +kernel

/-- B1 to B4: the identification registers of the reference blocks. -/
theorem test_identification :
    hostReads (quiet .reference) 0x000 = 0x52534131 ∧ hostReads (quiet .reference) 0x004 = 0x04104020 ∧
      hostReads (quiet .reference64) 0x004 = 0x04102040 ∧
      hostReads (quiet .reference) 0x028 = 0x00002000 := by decide

/-- B9, B10: a misaligned read and a 16-bit read are bus errors. -/
theorem test_bus_errors :
    (∃ t, hostStep (asking [.read 4 0x002] (quiet small)) = .fault t) ∧
      ∃ t, hostStep (asking [.read 2 0x00C] (quiet small)) = .fault t := ⟨⟨.busError, rfl⟩, ⟨.busError, rfl⟩⟩

/-- B11, B12: the windows of x1 and VLEN[1]. -/
theorem test_window_and_vlen :
    hostReads (hostWrites (hostWrites (quiet small) 0x2000 1) 0x2004 0x00010000) 0x044 = 2 ∧
      (hostWrites (hostWrites (quiet small) 0x2000 1) 0x2004 0x00010000).reg 1 = 0x1000000000001 ∧
      hostReads (hostWrites (hostWrites (quiet small) 0x2000 1) 0x2004 0) 0x044 = 1 := by decide +kernel

/-- B13: a window word beyond the capacity reads as zero and ignores writes. -/
theorem test_window_beyond_capacity :
    hostReads (hostWrites (quiet small) 0x2008 7) 0x2008 = 0 ∧ hostWrites (quiet small) 0x2008 7 = quiet small := by
  decide +kernel

/-- B15, B16: SCALAR's halves at both widths. -/
theorem test_scalar_halves :
    hostReads (hostWrites (quiet small) 0x01C 5) 0x01C = 0 ∧
      (hostWrites (hostWrites (quiet small64) 0x018 0x76543210) 0x01C 0xfedcba98).scalar = 0xfedcba9876543210 := by
  decide +kernel

/-- B17: CTRL keeps its stored bits only. -/
theorem test_control_write : hostReads (hostWrites (quiet small) 0x020 0xFFFFFFF3) 0x020 = 0x00000003 := by decide

/-- B22 to B24: writes while BUSY set OVR and do nothing else. -/
theorem test_writes_while_busy :
    hostWrites (pending 0x04400000 (quiet small)) 0x2000 9 = setOvr (pending 0x04400000 (quiet small)) ∧
      hostWrites (pending 0x04400000 (quiet small)) 0x018 9 = setOvr (pending 0x04400000 (quiet small)) ∧
      hostWrites (pending 0x04400000 (quiet small)) 0x008 9 = setOvr (pending 0x04400000 (quiet small)) := by
  decide +kernel

/-- B26: windows stay writable while ERR = 1. -/
theorem test_window_write_while_err :
    hostReads (hostWrites (raise .divByZero (loaded small [(1, 5)] 0)) 0x2000 6) 0x2000 = 6 := by decide +kernel

/-- B27: a soft reset after an error keeps x1 and SCALAR. -/
theorem test_soft_reset :
    (hostWrites (raise .divByZero (withContextOf7 (loaded small [(1, 5)] 9))) 0x020 4).reg 1 = 5 ∧
      (hostWrites (raise .divByZero (withContextOf7 (loaded small [(1, 5)] 9))) 0x020 4).scalar = 9 ∧
      hostReads (hostWrites (raise .divByZero (withContextOf7 (loaded small [(1, 5)] 9))) 0x020 4) 0x00C = 0 ∧
      (hostWrites (raise .divByZero (withContextOf7 (loaded small [(1, 5)] 9))) 0x020 4).mctx.valid = false := by
  decide +kernel

/-- Spec/95 section 1.3: the iteration counts at the boundaries of the table. -/
theorem test_iteration_counts :
    [99, 100, 127, 256, 512, 768, 769, 1024].map iterCount = [50, 27, 27, 15, 8, 4, 4, 2] := by decide

/-- Spec/95 section 2.5: the context of the three-limb modulus 2^64 + 13. -/
theorem test_context_of_three_limbs :
    mctx .reference (2 ^ 64 + 13) =
      { valid := true, m := 2 ^ 64 + 13, k := 3, R := 2 ^ 96, minv := 0xf0da21534ec4ec4ec4ec4ec5 } := by
  decide +kernel

/-- C2: the padded loop start gives the second pair of 90_conflicts.md its quotient. -/
theorem test_knuth_on_the_conflict_pair :
    (match knuth .reference 0xe049548e8a0a8c96 0xa02fdaa1ad864c44 with
      | .ok q => q.1 == 1
      | .error _ => false) = true := by decide +kernel

/-- R36, R9: the table of the default size ends with 84017. -/
theorem test_table_ends : Params.reference.table.getLast? = some 84017 := by decide +kernel

/-! ### Witnesses: states and operands that meet the hypotheses of the statements -/

theorem regsOk_of_decide {s : State} (h : decide (RegsOk s) = true) : RegsOk s := of_decide_eq_true h

theorem witness_DecodeOfEncodeIsIdentity :
    (Instr.divrem 15 0 15 15).WellFormed = true ∧ (Instr.psearch 15 16383).WellFormed = true := by decide

theorem witness_DecodedWordIsTheCommandsOnlyWord : decode 0x6BC7C000 = .ok (.divrem 15 0 1 15) := by decide

theorem witness_IllegalWordsRaiseIllegalCommand :
    (CommandPending (pending 0 (quiet small)) ∧ decode (pending 0 (quiet small)).engine.curCmd = .error .reservedOpcode) ∧
    (CommandPending (pending 0xC0420001 (quiet small)) ∧ ∃ row ∈ opcodeTable, opField 0xC0420001 = row.op ∧
      (0xC0420001 : Word) &&& row.mask ≠ row.matchWord) ∧
    (CommandPending (pending 0x68C48C00 (quiet small)) ∧ (0x68C48C00 : Word) &&& 0xFC0003FF = 0x68000000 ∧
      dField 0x68C48C00 = cField 0x68C48C00) := by decide

/-- The engine's turn with a host access waiting; the engine alone in EXEC; the engine alone at PSEARCH's start, the host
in a WAIT. -/
theorem witness_StepRunsTheDecodedCommand :
    (CommandPending (pending 0xC0400001 { asking [.wait] (quiet small) with env := ⟨[], [.engine], 0⟩ }) ∧
      (pending 0xC0400001 { asking [.wait] (quiet small) with env := ⟨[], [.engine], 0⟩ }).env.turns = .engine :: [] ∧
      decode 0xC0400001 = .ok (.psearch 1 1)) ∧
    (CommandPending (pending 0x04400000 (quiet small)) ∧ (pending 0x04400000 (quiet small)).host.pending = [] ∧
      decode 0x04400000 = .ok (.ldi 1 0)) ∧
    (CommandPending (pending 0xC0400001 (asking [.wait] (quiet small))) ∧
      (pending 0xC0400001 (asking [.wait] (quiet small))).host.pending.head? = some .wait) := by decide

/-- Turns of a worker, of the host in a WAIT and of the host with BUSY = 1, a WAIT with BUSY = 1 that may not step, a turn
of the engine, and an idle block. -/
theorem witness_StepMovesTheNamedAgentOrWaits :
    (Agent.worker 1 ∈ enabledAgents { searching false 0 [⟨.exited, 0⟩, ⟨.init, 0⟩] with
      env := ⟨[], [.worker 1], 0⟩ }) ∧
    (Agent.host ∈ enabledAgents { asking [.wait] (quiet small) with env := ⟨[], [.host], 0⟩ }) ∧
    (Agent.host ∈ enabledAgents { asking [.write 4 0x020 4] (pending 0x04400000 (quiet small)) with
      env := ⟨[], [.host], 0⟩ }) ∧
    (Agent.host ∉ enabledAgents (asking [.wait] (pending 0x04400000 (quiet small)))) ∧
    (Agent.engine ∈ enabledAgents { searching true 13 [⟨.exited, 11⟩, ⟨.exited, 13⟩] with
      env := ⟨[], [.engine], 0⟩ }) ∧
    ((quiet small).engine.phase = .idle ∧ (quiet small).host.pending = []) := by decide

theorem witness_PlacedWordIsTheNextCommandRun : (Instr.divrem 3 4 1 2).WellFormed = true := by decide

theorem witness_LoadsAndCopyWriteTheirOperand : RegsOk (loaded small [(1, 5)] 0xffffffff) := by decide +kernel

theorem witness_AdditionIsExactOrExceedsCapacity :
    (loaded small [(1, 2 ^ 64 - 2), (2, 1)] 1).params.Valid ∧
    (loaded small [(1, 2 ^ 64 - 2), (2, 1)] 1).reg 1 + (loaded small [(1, 2 ^ 64 - 2), (2, 1)] 1).reg 2 + 1 =
      small.capacity ∧
    (loaded small [(1, 2 ^ 64 - 1), (2, 1)] 1).reg 1 + (loaded small [(1, 2 ^ 64 - 1), (2, 1)] 1).reg 2 =
      small.capacity ∧
    (loaded small [(1, 2 ^ 64 - 2)] 1).reg 1 + (loaded small [(1, 2 ^ 64 - 2)] 1).scalar + 1 = small.capacity ∧
    (loaded small [(1, 2 ^ 64 - 1)] 1).reg 1 + (loaded small [(1, 2 ^ 64 - 1)] 1).scalar = small.capacity := by
  decide +kernel

theorem witness_SubtractionIsExactOrUnderflows :
    RegsOk (loaded small [(1, 5), (2, 5)] 5) ∧
    (loaded small [(1, 5), (2, 5)] 5).reg 2 ≤ (loaded small [(1, 5), (2, 5)] 5).reg 1 ∧
    (loaded small [(1, 5), (2, 5)] 5).scalar ≤ (loaded small [(1, 5), (2, 5)] 5).reg 1 ∧
    RegsOk (loaded small [(1, 5), (2, 6)] 6) ∧
    (loaded small [(1, 5), (2, 6)] 6).reg 1 < (loaded small [(1, 5), (2, 6)] 6).reg 2 ∧
    (loaded small [(1, 5), (2, 6)] 6).reg 1 < (loaded small [(1, 5), (2, 6)] 6).scalar := by decide +kernel

theorem witness_MultiplicationIsExactOrExceedsCapacity :
    (loaded small [(1, 2 ^ 32), (2, 2 ^ 32 - 1)] (2 ^ 32 - 1)).params.Valid ∧
    (loaded small [(1, 2 ^ 32), (2, 2 ^ 32 - 1)] 0).reg 1 * (loaded small [(1, 2 ^ 32), (2, 2 ^ 32 - 1)] 0).reg 2 <
      small.capacity ∧
    (loaded small [(1, 2 ^ 32), (2, 2 ^ 32)] 0).reg 1 * (loaded small [(1, 2 ^ 32), (2, 2 ^ 32)] 0).reg 2 =
      small.capacity ∧
    (loaded small [(1, 2 ^ 32)] (2 ^ 32 - 1)).reg 1 * (loaded small [(1, 2 ^ 32)] (2 ^ 32 - 1)).scalar <
      small.capacity ∧
    small.capacity ≤ (loaded small [(1, 2 ^ 33)] (2 ^ 31)).reg 1 * (loaded small [(1, 2 ^ 33)] (2 ^ 31)).scalar ∧
    (loaded small [(1, 2 ^ 32)] 0).reg 1 ≠ 0 ∧
    small.CAP + 1 < len small ((loaded small [(1, 2 ^ 32)] 0).reg 1) + len small ((loaded small [(1, 2 ^ 32)] 0).reg 1) := by
  decide +kernel

theorem witness_ShiftRightUpToOneLimbWidth :
    RegsOk (loaded small [(1, 5)] 0) ∧ (32 : Imm14).toNat ≤ (loaded small [(1, 5)] 0).params.W ∧
      (loaded small [(1, 5)] 0).params.W < (33 : Imm14).toNat := by decide +kernel

theorem witness_LimbShiftsMoveWholeLimbs :
    RegsOk (loaded small [(1, 5)] 0) ∧ (loaded small [(1, 5)] 0).reg 2 = 0 ∧
      len small ((loaded small [(1, 5)] 0).reg 1) + (1 : Imm14).toNat ≤ small.CAP ∧
      (loaded small [(1, 5)] 0).reg 1 ≠ 0 ∧
      small.CAP < len small ((loaded small [(1, 5)] 0).reg 1) + (2 : Imm14).toNat := by decide +kernel

theorem witness_BitTestReadsTheIndexedBit :
    (loaded small [(1, 5)] 0).params.Valid ∧ msb small ((loaded small [(1, 5)] 0).reg 1) ≤ (3 : Imm14).toNat := by
  decide +kernel

theorem witness_BitSetSetsOneBitOrExceedsCapacity :
    RegsOk (loaded small [(1, 5)] 0) ∧ (63 : Imm14).toNat < small.CAP * small.W ∧
      small.CAP * small.W ≤ (64 : Imm14).toNat := by decide +kernel

theorem witness_MsbWritesTheBitLength : RegsOk (loaded small [(1, 0)] 0) := by decide +kernel

theorem witness_DivisionWritesQuotientAndRemainder :
    RegsOk (loaded small [(1, 100), (2, 7)] 0) ∧ (loaded small [(1, 100), (2, 7)] 0).reg 2 ≠ 0 ∧ (1 : Reg) ≠ 2 ∧
      (loaded small [(1, 100), (2, 7)] 0).reg 3 = 0 := by decide +kernel

theorem witness_ScalarDivisionWritesQuotientOrRemainder :
    RegsOk (loaded small [(1, 100)] 7) ∧ (loaded small [(1, 100)] 7).scalar ≠ 0 ∧
      RegsOk (loaded small [(1, 100)] 0) ∧ (loaded small [(1, 100)] 0).scalar = 0 := by decide +kernel

theorem witness_DivisionEngineAlgorithmsComputeDivmod :
    Params.reference.Valid ∧ 2 ≤ len .reference (2 ^ 32) ∧ 1 ≤ 2 ^ 32 - 1 ∧ 2 ^ 32 - 1 < Params.reference.B := by
  decide +kernel

theorem witness_MsetupBuildsTheContext :
    (loaded small [(1, 1)] 0).params.Valid ∧ (loaded small [(1, 1)] 0).reg 1 % 2 = 1 ∧
      (loaded small [(1, 1)] 0).reg 2 % 2 = 0 := by decide +kernel

/-- The context of 7 meets R39. -/
theorem context_of_7_ok : MctxOk (withContextOf7 (loaded small [(1, 6), (2, 2 ^ 64 - 1)] 0)) := by
  unfold MctxOk
  decide +kernel

/-- No context meets R39 too. -/
theorem no_context_ok : MctxOk (loaded small [(1, 6)] 0) := by
  unfold MctxOk
  decide +kernel

theorem witness_MtomConvertsToMontgomeryForm :
    (RegsOk (withContextOf7 (loaded small [(1, 6), (2, 2 ^ 64 - 1)] 0)) ∧
      MctxOk (withContextOf7 (loaded small [(1, 6), (2, 2 ^ 64 - 1)] 0)) ∧
      (withContextOf7 (loaded small [(1, 6), (2, 2 ^ 64 - 1)] 0)).mctx.valid = true) ∧
    (RegsOk (loaded small [(1, 6)] 0) ∧ MctxOk (loaded small [(1, 6)] 0) ∧
      (loaded small [(1, 6)] 0).mctx.valid = false) :=
  ⟨⟨by decide +kernel, context_of_7_ok, by decide +kernel⟩, ⟨by decide +kernel, no_context_ok, by decide +kernel⟩⟩

/-- Reduced inputs, inputs whose product exceeds the capacity after reduction by R, and no context. -/
theorem witness_MmulIsTheMontgomeryProduct :
    (RegsOk (withContextOf7 (loaded small [(1, 6), (2, 2 ^ 64 - 1)] 0)) ∧
      MctxOk (withContextOf7 (loaded small [(1, 6), (2, 2 ^ 64 - 1)] 0))) ∧
    ((withContextOf7 (loaded small [(1, 6), (2, 2 ^ 64 - 1)] 0)).reg 1 < 7 ∧
      montmul (withContextOf7 (quiet small)).mctx 6 6 < small.capacity ∧
      small.capacity ≤ montmul (withContextOf7 (quiet small)).mctx
        ((withContextOf7 (loaded small [(1, 6), (2, 2 ^ 64 - 1)] 0)).reg 2)
        ((withContextOf7 (loaded small [(1, 6), (2, 2 ^ 64 - 1)] 0)).reg 2)) ∧
    (RegsOk (loaded small [(1, 6)] 0) ∧ MctxOk (loaded small [(1, 6)] 0) ∧
      (loaded small [(1, 6)] 0).mctx.valid = false) :=
  ⟨⟨by decide +kernel, context_of_7_ok⟩, by decide +kernel, by decide +kernel, no_context_ok, by decide +kernel⟩

theorem witness_MredConvertsOutAndAlwaysFits :
    (RegsOk (withContextOf7 (loaded small [(1, 6), (2, 2 ^ 64 - 1)] 0)) ∧
      MctxOk (withContextOf7 (loaded small [(1, 6), (2, 2 ^ 64 - 1)] 0)) ∧
      (withContextOf7 (loaded small [(1, 6), (2, 2 ^ 64 - 1)] 0)).reg 1 < 7 * 2 ^ 32) ∧
    (RegsOk (loaded small [(1, 6)] 0) ∧ MctxOk (loaded small [(1, 6)] 0) ∧
      (loaded small [(1, 6)] 0).mctx.valid = false) :=
  ⟨⟨by decide +kernel, context_of_7_ok, by decide +kernel⟩, by decide +kernel, no_context_ok, by decide +kernel⟩

theorem witness_MexpIsModularExponentiation :
    RegsOk (loaded small [(3, 1)] 0) ∧ (loaded small [(3, 1)] 0).reg 3 % 2 = 1 ∧
      (loaded small [(3, 1)] 0).reg 4 % 2 = 0 := by decide +kernel

theorem witness_SieveTableIsTheFirstPrimes :
    small.Valid ∧ Params.reference.Valid ∧ ({ small with NSIEVE := 9592 } : Params).Valid := by decide

theorem witness_SieveFindsTablePrimeDivisors : (loaded small [(1, 2)] 0).params.Valid := by decide

theorem witness_MrroundIsTheStrongPrimeTest :
    RegsOk (loaded small [(1, 3), (2, 2)] 0) ∧ 3 ≤ (loaded small [(1, 3), (2, 2)] 0).reg 1 ∧
      (loaded small [(1, 3), (2, 2)] 0).reg 1 % 2 = 1 ∧
      (loaded small [(1, 3), (2, 2)] 0).reg 1 - 1 = 1 * 2 ^ 1 ∧ 1 % 2 = 1 ∧
      (loaded small [(1, 3), (2, 2)] 0).reg 2 < 3 := by decide +kernel

theorem witness_IsprimeAcceptsPrimesAndRunsTheWitnessRounds :
    RegsOk (loaded small [(1, 2), (2, 1), (3, 4)] 0) ∧ ((loaded small [(1, 2), (2, 1), (3, 4)] 0).reg 1).Prime ∧
      (loaded small [(1, 2), (2, 1), (3, 4)] 0).reg 2 < 2 ∧ 2 < (loaded small [(1, 2), (2, 1), (3, 4)] 0).reg 3 ∧
      (loaded small [(1, 2), (2, 1), (3, 4)] 0).reg 3 % 2 = 0 := by
  refine ⟨by decide +kernel, ?_, by decide +kernel, by decide +kernel, by decide +kernel⟩
  rw [show (loaded small [(1, 2), (2, 1), (3, 4)] 0).reg 1 = 2 by decide +kernel]
  exact Nat.prime_two

/-- For the rounds: the least prime above the table, which no table prime divides, in either mode; a table prime; and a
number with a table prime as divisor. -/
theorem witness_IsprimeAcceptsPrimesAndRunsTheWitnessRounds_rounds :
    small.Valid ∧ (∀ q ∈ small.table, ¬ q ∣ 32771) ∧ 2 ^ (16 - 1) ≤ 32771 ∧ 32771 < 2 ^ 16 ∧ 32771 % 2 = 1 ∧
      5 ∈ small.table ∧ 3 ∈ small.table ∧ 3 ∣ 9 ∧ 3 ≠ 9 := by decide +kernel

/-- The greatest number of the first clause, and for the second a bound whose primes the table holds. -/
theorem witness_IsprimeIsExactBelowTheTableSquare :
    (RegsOk (loaded .reference [(1, 7063898208)] 0) ∧ (loaded .reference [(1, 7063898208)] 0).params.NSIEVE = 8192 ∧
      (loaded .reference [(1, 7063898208)] 0).reg 1 < 7063898209) ∧
    (RegsOk (loaded small [(1, 15)] 0) ∧ (∀ q, q.Prime → q < 4 → q ∈ (loaded small [(1, 15)] 0).params.table) ∧
      (loaded small [(1, 15)] 0).reg 1 < 4 * 4) := by
  refine ⟨by decide +kernel, by decide +kernel, ?_, by decide +kernel⟩
  intro q hq hlt
  interval_cases q
  · exact absurd hq (by decide)
  · exact absurd hq (by decide)
  · decide +kernel
  · decide +kernel

theorem witness_PsearchStartReleasesTheWorkers :
    (1 : Imm14) ≠ 0 ∧ (1 : Imm14).toNat ≤ (small.CAP * small.W - 1) / 4 ∧
      (15 : Imm14).toNat ≤ (small.CAP * small.W - 1) / 4 ∧
      (small.CAP * small.W - 1) / 4 < (16 : Imm14).toNat := by decide

theorem witness_WorkerInitAndHeadSteps :
    ((searching false 0 [⟨.init, 0⟩, ⟨.head, 13⟩]).search.workers[0]? = some ⟨.init, 0⟩ ∧
      1 ≤ (searching false 0 [⟨.init, 0⟩, ⟨.head, 13⟩]).searchDigits ∧
      8 * 16 ^ ((searching false 0 [⟨.init, 0⟩, ⟨.head, 13⟩]).searchDigits - 1) ≤ 8 ∧
      8 ≤ 16 ^ (searching false 0 [⟨.init, 0⟩, ⟨.head, 13⟩]).searchDigits - 1) ∧
    (searching false 0 [⟨.init, 0⟩, ⟨.head, 13⟩]).search.workers[1]? = some ⟨.head, 13⟩ := by decide +kernel

theorem witness_WorkerTestPublishesLogsOrMovesOn :
    (searching false 0 [⟨.test, 9⟩, ⟨.head, 13⟩]).search.workers[0]? = some ⟨.test, 9⟩ := by decide +kernel

/-- A published value, and a step of the same search. -/
theorem witness_PublishedValueIsWrittenOnce :
    let s := { searching true 13 [⟨.test, 11⟩, ⟨.exited, 13⟩] with env := ⟨[], [.worker 0], 0⟩ }
    s.engine.phase = .search ∧ s.searchUnstarted = false ∧ s.search.found = true ∧
      ∃ t, step s = .next t ∧ t.engine.phase = .search := by
  refine ⟨by decide +kernel, by decide +kernel, by decide +kernel, _, rfl, by decide +kernel⟩

/-- 11 and 13 are candidates of the one-digit search that starts at 10, and at 12. -/
theorem candidates_of_one_digit : Candidate 1 11 ∧ Candidate 1 13 := by
  refine ⟨⟨by decide, 10, by decide, by decide, by decide, fun n h1 h2 => ?_⟩,
    ⟨by decide, 12, by decide, by decide, by decide, fun n h1 h2 => ?_⟩⟩ <;>
  · interval_cases n
    norm_num

/-- A quiet block meets the invariant. -/
theorem quiet_inv : Inv (quiet small) where
  regs := by decide +kernel
  error := ⟨fun _ => rfl, fun h => absurd h (by decide), fun h => absurd h (by decide)⟩
  flags := by unfold FlagsOk; decide
  mctx := fun h => absurd h (by decide)
  search :=
    { idleOutside := fun _ => by decide
      phaseIsOpcode := ⟨fun h => absurd h (by decide), fun h => absurd h (by decide)⟩
      cancelIsFound := rfl
      started := fun h => absurd h (by decide) }

/-- A finished one-digit search meets the invariant. -/
theorem searched_inv : Inv (searching true 13 [⟨.exited, 11⟩, ⟨.exited, 13⟩]) where
  regs := by decide +kernel
  error := ⟨fun _ => rfl, fun h => absurd h (by decide), fun _ => ⟨rfl, rfl⟩⟩
  flags := by unfold FlagsOk; decide
  mctx := fun h => absurd h (by decide)
  search :=
    { idleOutside := fun h => absurd (by decide) h
      phaseIsOpcode := ⟨fun _ => by decide, fun h => absurd h (by decide)⟩
      cancelIsFound := rfl
      started := fun _ _ => ⟨⟨1, 1, by decide, by decide, by decide⟩, by decide, by decide,
        fun v hv h => by
          have he : v.phase = .exited := by revert v; decide
          simp [he] at h,
        fun _ => ⟨candidates_of_one_digit.2, ⟨⟨[], [], 0⟩, by decide +kernel⟩, by decide +kernel⟩⟩ }

theorem witness_PsearchFinishCommitsAValueInRange :
    Inv (searching true 13 [⟨.exited, 11⟩, ⟨.exited, 13⟩]) ∧
      (searching true 13 [⟨.exited, 11⟩, ⟨.exited, 13⟩]).engine.phase = .search ∧
      (searching true 13 [⟨.exited, 11⟩, ⟨.exited, 13⟩]).searchUnstarted = false ∧
      (searching true 13 [⟨.exited, 11⟩, ⟨.exited, 13⟩]).searchEnded = true :=
  ⟨searched_inv, by decide, by decide, by decide⟩

/-- A PSEARCH just accepted, its search not started. -/
theorem unstarted_inv : Inv (pending 0xC0400001 (quiet small)) where
  regs := by decide +kernel
  error := ⟨fun _ => rfl, fun h => absurd h (by decide), fun _ => ⟨rfl, rfl⟩⟩
  flags := by unfold FlagsOk; decide
  mctx := fun h => absurd h (by decide)
  search :=
    { idleOutside := fun h => absurd (by decide) h
      phaseIsOpcode := ⟨fun _ => by decide, fun h => absurd h (by decide)⟩
      cancelIsFound := rfl
      started := fun _ h => absurd h (by decide) }

theorem witness_PsearchCanAlwaysComplete :
    Inv (pending 0xC0400001 (quiet small)) ∧ (pending 0xC0400001 (quiet small)).engine.phase = .search ∧
      (pending 0xC0400001 (quiet small)).searchUnstarted = true ∧
      (pending 0xC0400001 (quiet small)).engine.curCmd = encode (.psearch 1 1) ∧ (1 : Imm14) ≠ 0 ∧
      (1 : Imm14).toNat ≤ small.HMAX :=
  ⟨unstarted_inv, by decide, by decide, by decide, by decide, by decide⟩

theorem witness_EveryCommandAnswersAndAllButPsearchComplete : ∀ d imm, Instr.ldi 1 5 ≠ .psearch d imm := by
  intro d imm h
  cases h

theorem witness_CommandsWriteOnlyTheirOwnState :
    ∃ t, exec (.mov 2 1) (loaded small [(1, 5)] 0) = .next t ∧ (3 : Reg) ∉ destinations (.mov 2 1) :=
  ⟨_, rfl, by decide⟩

theorem witness_ErrorsArePrecise :
    ∃ t, exec (.div 3 1 2) (loaded small [(1, 5)] 0) = .next t ∧ (loaded small [(1, 5)] 0).status.err = false ∧
      t.status.err = true := ⟨_, rfl, by decide, by decide +kernel⟩

theorem witness_ControlRegisterDoesNotAffectTheCommandInProgress :
    (∃ t, exec (.isprime 1) (loaded small [(1, 5)] 0) = .next t) ∧
      ∃ t, engineStep (searching true 13 [⟨.exited, 11⟩, ⟨.exited, 13⟩]) = .next t := ⟨⟨_, rfl⟩, _, rfl⟩

theorem witness_FirstErrorIsKeptUntilCleared :
    (raise .divByZero (quiet small)).engine.phase = .idle ∧ (raise .divByZero (quiet small)).status.err = true ∧
      ∃ t, step (raise .divByZero (asking [.write 4 0x00C 4] (quiet small))) = .next t :=
  ⟨by decide, by decide, _, rfl⟩

theorem witness_CompletionDrivesTheInterruptLine :
    (∀ d imm, Instr.div 3 1 2 ≠ .psearch d imm) ∧ (∃ t, exec (.div 3 1 2) (quiet small) = .next t) ∧
    ((0 : Imm14) = 0 ∧ small.HMAX < (16 : Imm14).toNat) ∧
    ((searching true 13 [⟨.exited, 11⟩, ⟨.exited, 13⟩]).engine.phase = .search ∧
      (searching true 13 [⟨.exited, 11⟩, ⟨.exited, 13⟩]).searchUnstarted = false ∧
      (searching true 13 [⟨.exited, 11⟩, ⟨.exited, 13⟩]).searchEnded = true) ∧
    (∃ t, (pending 0 (quiet small)).engine.phase ≠ .idle ∧ engineStep (pending 0 (quiet small)) = .next t ∧
      t.engine.phase = .idle) ∧
    BitVec.getLsbD (0x6 : Word) 1 = true ∧ BitVec.getLsbD (0x6 : Word) 2 = true := by
  refine ⟨?_, ⟨_, rfl⟩, by decide, by decide, ⟨_, by decide, rfl, by decide⟩, by decide⟩
  intro d imm h
  cases h

theorem witness_DrawsRangeOverTheirWholeSet :
    (2 : Nat) ≤ 2 ∧ Config.WLO ≤ Config.WHI ∧ Config.WLO ≤ 32769 ∧ 32769 ≤ Config.WHI := by decide

theorem witness_CommandWriteIsAcceptedOrSetsOvr :
    ((quiet small).engine.phase = .idle ∧ (quiet small).status.err = false) ∧
      (pending 0x04400000 (quiet small)).engine.phase ≠ .idle ∧
      (raise .divByZero (quiet small)).status.err = true := by decide

theorem witness_StatusReadsAndWriteOneToClear : (quiet small).engine.phase = .idle := by decide

theorem witness_ScalarHalvesReadAndWrite :
    (RegsOk (quiet small) ∧ (quiet small).engine.phase = .idle ∧ (quiet small).params.W = 32) ∧
      (RegsOk (quiet small64) ∧ (quiet small64).engine.phase = .idle ∧ (quiet small64).params.W = 64) ∧
      (RegsOk (pending 0x04400000 (quiet small)) ∧ (pending 0x04400000 (quiet small)).engine.phase ≠ .idle) := by
  decide +kernel

theorem witness_ControlWriteAndSoftReset :
    BitVec.getLsbD (0xFFFFFFFB : Word) 2 = false ∧ BitVec.getLsbD (0x4 : Word) 2 = true := by decide

theorem witness_HardwareResetState :
    (asking [.rst] (pending 0x04400000 (quiet small))).host.pending = .rst :: [] ∧ (quiet small).params.Valid := by
  decide

theorem witness_WindowWordReadsAndWrites :
    RegsOk (quiet small) ∧ (quiet small).engine.phase = .idle ∧ 1 < (quiet small).params.windowWords ∧
      (quiet small).params.windowWords ≤ 2 ∧ 2 < 1024 := by decide +kernel

theorem witness_LoadvThenReadvReturnsTheValue :
    RegsOk (asking (loadv small 1 (2 ^ 64 - 1) ++ readv small 1) (quiet small)) ∧
      (asking (loadv small 1 (2 ^ 64 - 1) ++ readv small 1) (quiet small)).engine.phase = .idle ∧
      (asking (loadv small 1 (2 ^ 64 - 1) ++ readv small 1) (quiet small)).env.turns = [] ∧
      (asking (loadv small 1 (2 ^ 64 - 1) ++ readv small 1) (quiet small)).host.replies = [] ∧
      2 ^ 64 - 1 < small.capacity := by decide +kernel

theorem witness_VlenReadsTheSignificantLength :
    RegsOk (loaded small [(1, 2 ^ 32)] 0) ∧ (loaded small [(1, 2 ^ 32)] 0).engine.phase = .idle := by decide +kernel

theorem witness_BusyBlockHidesAndProtectsOperands :
    (pending 0x04400000 (quiet small)).engine.phase ≠ .idle ∧ 1 < (quiet small).params.windowWords ∧ 1 < 1024 ∧
      31 < 32 := by decide

theorem witness_BusErrorExactlyOnNonWordAccess :
    ((asking [.read 2 0x00C] (quiet small)).host.pending = .read 2 0x00C :: [] ∧ 0x00C < 0 + 2 ^ 17) ∧
      (asking [.write 4 0x1FFFE 0] (quiet small)).host.pending = .write 4 0x1FFFE 0 :: [] ∧ (0x1FFFE - 0) % 4 ≠ 0 ∧
      (asking [.write 4 0x1FFFC 0] (quiet small)).host.pending = .write 4 0x1FFFC 0 :: [] ∧
      (0x1FFFC - 0) % 4 = 0 ∧
      (asking [.read 4 0x1FFFC, .wait] (quiet small)).host.pending = .read 4 0x1FFFC :: [.wait] := by decide

theorem witness_ReadsHaveNoSideEffect : (quiet small).engine.phase = .idle := by decide

theorem witness_ReadOnlyAndReservedOffsets :
    (0x028 < 2 ^ 17 ∧ 0x028 % 4 = 0) ∧ (0x07C < 2 ^ 17 ∧ 0x07C % 4 = 0 ∧ 0x040 ≤ 0x07C ∧ 0x07C < 0x080) ∧
      (0x02C ≤ 0x02C ∧ 0x03C < 0x040) ∧ (0x080 ≤ 0x080 ∧ 0xFFC < 0x1000) ∧ (0x11000 ≤ 0x11000 ∧ 0x1FFFC < 2 ^ 17) := by
  decide

theorem witness_IdentificationAndErrorRegistersRead :
    (quiet small).params.Valid ∧ (quiet { small with NWORK := 63, NSIEVE := 9592 }).params.Valid := by decide

/-- The steps of the preserved invariants: a write of a window and a command from a state that meets them. -/
theorem witness_StepsKeepRegistersInRange :
    RegsOk (asking [.write 4 0x2000 7] (quiet small)) ∧
      ∃ t, step (asking [.write 4 0x2000 7] (quiet small)) = .next t := ⟨by decide +kernel, _, rfl⟩

theorem witness_StepsKeepTheErrorStatusCoherent :
    ErrorOk (pending 0x60C48000 (quiet small)) ∧ ∃ t, step (pending 0x60C48000 (quiet small)) = .next t :=
  ⟨⟨fun _ => rfl, fun h => absurd h (by decide), fun _ => ⟨rfl, rfl⟩⟩, _, rfl⟩

theorem witness_StepsKeepTheInvariant :
    Inv (pending 0xC0400001 (quiet small)) ∧ ∃ t, step (pending 0xC0400001 (quiet small)) = .next t :=
  ⟨unstarted_inv, _, rfl⟩

end Sys2Proof.Tests
end

section
/-! Proofs about the free inputs (R10). -/

namespace Sys2Proof.Machine

/-- Settles O43: `draw_spec` bounds every draw, and the answer `v - lo` of the entropy source gives the member `v`. -/
theorem drawsRangeOverTheirWholeSet : Obligations.DrawsRangeOverTheirWholeSet := by
  intro lo hi e h
  obtain ⟨hlo, hhi, hturns⟩ := draw_spec lo hi e h
  refine ⟨hlo, hhi, hturns, fun v hv hvhi => ⟨v - lo, ?_⟩⟩
  have hmod : (v - lo) % (hi + 1 - lo) = v - lo := Nat.mod_eq_of_lt (by omega)
  rw [draw_of_entropy lo hi (v - lo) [] { e with entropy := [v - lo] } rfl, hmod]
  exact Nat.add_sub_cancel' hv

end Sys2Proof.Machine
end

section
/-! The sieve table (R9, R40). The table's literals are compared with the primes by a walk over the numbers from 2 on,
which the kernel evaluates; the walk is proved to answer `true` for nothing but `Nat.nth Nat.Prime`. -/

namespace Sys2Proof.Machine

/-- The walk's test of primality, right from 2 up to 317²: `n` has no common factor with any number from 1 up to 316 and
below `n`. -/
def hasNoSmallFactor (n : Nat) : Bool :=
  (n.gcd (bif n.ble 316 then (n - 1).factorial else (316).factorial)).beq 1

theorem hasNoSmallFactor_iff_minFac {n : Nat} (h1 : n ≠ 1) :
    hasNoSmallFactor n = true ↔ (if n ≤ 316 then n - 1 else 316) < n.minFac := by
  rw [← Nat.coprime_factorial_iff h1, apply_ite Nat.factorial, hasNoSmallFactor, Nat.beq_eq, Nat.Coprime]
  simp only [cond_eq_ite, Nat.ble_eq]

theorem hasNoSmallFactor_iff_prime {n : Nat} (h2 : 2 ≤ n) (hn : n < 317 ^ 2) :
    hasNoSmallFactor n = true ↔ n.Prime := by
  rw [hasNoSmallFactor_iff_minFac (by omega)]
  constructor
  · intro hlt
    by_contra hp
    have hsq : n.minFac ^ 2 ≤ n := Nat.minFac_sq_le_self (by omega) hp
    have hmin : n.minFac < n := (Nat.not_prime_iff_minFac_lt h2).1 hp
    split at hlt
    · omega
    · have : 317 ^ 2 ≤ n.minFac ^ 2 := Nat.pow_le_pow_left hlt 2
      omega
  · intro hp
    rw [hp.minFac_eq]
    split <;> omega

/-- The walk: `l` lists, in order, the last `count` numbers below `hi` that pass the test. It counts down, so that the
kernel keeps the number under test a literal. -/
def listsPrimes (hi : Nat) : Nat → List Nat → Bool
  | 0, l => l.isEmpty
  | count + 1, l =>
    bif hasNoSmallFactor (hi - (count + 1)) then
      match l with
      | [] => false
      | q :: l => q.beq (hi - (count + 1)) && listsPrimes hi count l
    else listsPrimes hi count l

/-- A list the walk accepts holds the primes from the first one not below the walk's start on, by their indexes. -/
theorem eq_map_nth_of_listsPrimes {hi count : Nat} {l : List Nat} (h2 : 2 + count ≤ hi) (hhi : hi ≤ 317 ^ 2)
    (h : listsPrimes hi count l = true) :
    l = (List.range' (Nat.count Nat.Prime (hi - count)) l.length).map (Nat.nth Nat.Prime) := by
  induction count generalizing l with
  | zero =>
    obtain rfl : l = [] := by simpa [listsPrimes] using h
    rfl
  | succ count ih =>
    have hprime : hasNoSmallFactor (hi - (count + 1)) = true ↔ (hi - (count + 1)).Prime :=
      hasNoSmallFactor_iff_prime (by omega) (by omega)
    have hnext : hi - count = hi - (count + 1) + 1 := by omega
    rw [hnext, Nat.count_succ] at ih
    rw [listsPrimes.eq_def] at h
    cases hc : hasNoSmallFactor (hi - (count + 1)) with
    | true =>
      have hp : (hi - (count + 1)).Prime := hprime.1 hc
      simp only [hc, cond_true] at h
      rw [if_pos hp] at ih
      cases l with
      | nil => cases h
      | cons q l =>
        obtain ⟨hq, hl⟩ := (Bool.and_eq_true _ _).mp h
        rw [List.length_cons, List.range'_succ, List.map_cons, Nat.nth_count hp, ← ih (by omega) hl,
          Nat.eq_of_beq_eq_true hq]
    | false =>
      have hp : ¬ (hi - (count + 1)).Prime := fun hp => by simp [hprime.2 hp] at hc
      simp only [hc, cond_false] at h
      rw [if_neg hp] at ih
      exact ih (by omega) h

/-- The literals of the sieve store pass the walk over the numbers from 2 to 99999. -/
theorem listsPrimes_primesBelow100000 : listsPrimes 100000 99998 primesBelow100000 = true := by decide +kernel

theorem length_primesBelow100000 : primesBelow100000.length = 9592 := by decide +kernel

theorem primesBelow100000_eq : primesBelow100000 = (List.range 9592).map (Nat.nth Nat.Prime) := by
  have h := eq_map_nth_of_listsPrimes (by decide) (by decide) listsPrimes_primesBelow100000
  have h0 : Nat.count Nat.Prime (100000 - 99998) = 0 := by decide
  rwa [length_primesBelow100000, h0, ← List.range_eq_range'] at h

/-- Settles O26: every NSIEVE of R6 is at most the 9592 primes the model lists. -/
theorem sieveTableIsTheFirstPrimes : Obligations.SieveTableIsTheFirstPrimes := by
  intro p hp
  obtain ⟨_, _, _, _, _, hsieve⟩ := hp
  rw [Params.table, primesBelow100000_eq, ← List.map_take, List.take_range, Nat.min_eq_left hsieve]

end Sys2Proof.Machine
end

section
/-! No step changes a parameter, and every step keeps the registers, SCALAR and the worker list in range (R6, R21, R26).
One lemma an operation; the steps of the agents are put together from them. -/

namespace Sys2Proof.Machine

/-- What every step does: it changes no parameter, from any state, and keeps every range. -/
structure KeepsRanges (s t : State) : Prop where
  params : t.params = s.params
  regs : RegsOk s → RegsOk t

theorem KeepsRanges.refl (s : State) : KeepsRanges s s := ⟨rfl, id⟩

theorem KeepsRanges.trans {s t u : State} (h : KeepsRanges s t) (h' : KeepsRanges t u) : KeepsRanges s u :=
  ⟨h'.params.trans h.params, h'.regs ∘ h.regs⟩

/-- A change of nothing that a range speaks of. -/
theorem KeepsRanges.of_eq {s t : State} (hp : t.params = s.params) (hx : t.x = s.x) (hs : t.scalar = s.scalar)
    (hw : t.search.workers.length = s.search.workers.length) : KeepsRanges s t :=
  ⟨hp, fun h => by rwa [RegsOk, hp, hx, hs, hw]⟩

/-! ### Commits and the engine -/

theorem keepsRanges_setRegs (s : State) (ws : List (Reg × Nat)) : KeepsRanges s (s.setRegs ws) :=
  ⟨by rw [setRegs_eq], fun h => h.setRegs ws⟩

theorem keepsRanges_complete (s : State) (fl : Flags) : KeepsRanges s (complete { s with flags := fl }) :=
  .of_eq rfl rfl rfl rfl

theorem keepsRanges_raise (e : CmdError) (s : State) : KeepsRanges s (raise e s) := .of_eq rfl rfl rfl rfl

theorem keepsRanges_commit (ws : List (Reg × Nat)) (fl : Flags) (s : State) : KeepsRanges s (commit ws fl s) := by
  obtain ⟨_, hc⟩ | ⟨_, hc⟩ := commit_cases ws fl s
  · rw [hc]
    exact (keepsRanges_setRegs s ws).trans (keepsRanges_complete _ fl)
  · rw [hc]
    exact keepsRanges_raise _ s

theorem Ends.keepsRanges {i : Instr} {s t : State} (h : Ends i s t) : KeepsRanges s t := by
  cases h with
  | raised e _ => exact keepsRanges_raise e s
  | committed ws fl _ _ => exact (keepsRanges_setRegs s ws).trans (keepsRanges_complete _ fl)
  | context a _ _ => exact .of_eq rfl rfl rfl rfl
  | verdict a _ => exact .of_eq rfl rfl rfl rfl
  | started d imm _ _ _ => exact .of_eq rfl rfl rfl (List.length_map _)

theorem runCommand_keepsRanges {s t : State} (h : runCommand s = .next t) : KeepsRanges s t := by
  obtain ⟨e, _, hr⟩ | ⟨i, _, hr⟩ := runCommand_cases s
  · rw [hr] at h
    cases h
    exact keepsRanges_raise _ s
  · obtain ⟨u, hu, hends⟩ := exec_ends i s
    rw [hr, hu] at h
    cases h
    exact hends.keepsRanges

theorem keepsRanges_finishSearch (s : State) : KeepsRanges s (finishSearch s) :=
  have hidle : KeepsRanges s s.idleWorkers := .of_eq rfl rfl rfl (List.length_map _)
  hidle.trans (keepsRanges_commit _ _ _)

theorem engineStep_keepsRanges {s t : State} (h : engineStep s = .next t) : KeepsRanges s t := by
  obtain rfl | ⟨_, hr⟩ | ⟨_, _, _, rfl⟩ := engineStep_cases h
  · exact .refl _
  · exact runCommand_keepsRanges hr
  · exact keepsRanges_finishSearch s

/-! ### The workers -/

theorem keepsRanges_setWorker (s : State) (w : Nat) (v : Worker) : KeepsRanges s (s.setWorker w v) :=
  .of_eq rfl rfl rfl List.length_set

theorem keepsRanges_afterTest (w : Nat) (v : Worker) (r : TestResult) (s : State) :
    KeepsRanges s (afterTest w v r s) := by
  cases r with
  | verdict prime => cases prime <;> exact .of_eq rfl rfl rfl List.length_set
  | raised => exact .of_eq rfl rfl rfl List.length_set

theorem keepsRanges_workerStep (w : Nat) (s : State) : KeepsRanges s (workerStep w s) := by
  obtain h | ⟨v, _, ⟨_, h⟩ | ⟨_, h⟩ | ⟨_, h⟩⟩ := workerStep_cases w s <;> rw [h]
  · exact .refl s
  · exact .of_eq rfl rfl rfl List.length_set
  · exact keepsRanges_setWorker s w _
  · have hdraws : KeepsRanges s { s with env := (testCandidate s v.cand).2 } := .of_eq rfl rfl rfl rfl
    exact hdraws.trans (keepsRanges_afterTest w v _ _)

/-! ### The host -/

theorem keepsRanges_reply_readLocation (l : Location) (s : State) : KeepsRanges s (reply (readLocation l s)) := by
  obtain ⟨e, he⟩ := readLocation_env l s
  rw [reply, he]
  exact .of_eq rfl rfl rfl rfl

/-- Replacing one of its two words keeps SCALAR below B; the upper word exists at W = 64 only (R26, R33). -/
theorem replaceWord_lt_B {p : Params} (hp : p.Valid) {x : Nat} (hx : x < p.B) {k : Nat} (hk : k = 0 ∨ k = 1 ∧ p.W = 64)
    (u : Word) : replaceWord x k u.toNat < p.B := by
  have hu : u.toNat < 2 ^ 32 := u.isLt
  obtain ⟨hW, _⟩ := hp
  rw [Params.B] at hx ⊢
  unfold replaceWord wordOf
  obtain rfl | ⟨rfl, hW'⟩ := hk
  · obtain hW | hW := hW <;> rw [hW] at hx ⊢ <;> omega
  · rw [hW'] at hx ⊢
    omega

theorem keepsRanges_writeScalar {k : Nat} (hk : k ≤ 1) (v : Word) (s : State) : KeepsRanges s (writeScalar k v s) := by
  unfold writeScalar
  split
  · exact .of_eq rfl rfl rfl rfl
  split
  · refine ⟨rfl, fun ⟨hvalid, hx, hscalar, hw⟩ => ⟨hvalid, hx, replaceWord_lt_B hvalid hscalar ?_ v, hw⟩⟩
    omega
  · exact .refl s

theorem keepsRanges_writeStatus (v : Word) (s : State) : KeepsRanges s (writeStatus v s) := by
  unfold writeStatus
  split <;> exact .of_eq rfl rfl rfl rfl

theorem keepsRanges_softReset (s : State) : KeepsRanges s (softReset s) :=
  ⟨rfl, fun ⟨hvalid, hx, hscalar, _⟩ => ⟨hvalid, hx, hscalar, by simp [softReset, resetSearch]⟩⟩

theorem length_resetOperands (p : Params) (n : Nat) (r : Reg) : (resetOperands p n)[r].length = p.windowWords := by
  fin_cases r <;> simp [resetOperands, resetOperand]

theorem keepsRanges_hardReset (s : State) : KeepsRanges s (hardReset s) :=
  ⟨rfl, fun ⟨hvalid, _⟩ =>
    ⟨hvalid, length_resetOperands s.params _, s.params.B_pos, by simp [hardReset, State.resetWith, resetSearch]⟩⟩

theorem keepsRanges_writeCmd (c : Word) (s : State) : KeepsRanges s (writeCmd c s) := by
  unfold writeCmd
  split <;> exact .of_eq rfl rfl rfl rfl

theorem keepsRanges_writeCtrl (v : Word) (s : State) : KeepsRanges s (writeCtrl v s) := by
  unfold writeCtrl
  split
  · exact keepsRanges_softReset s
  · exact .of_eq rfl rfl rfl rfl

theorem keepsRanges_writeWindow (r : Reg) (k : Nat) (v : Word) (s : State) : KeepsRanges s (writeWindow r k v s) := by
  unfold writeWindow
  split
  · exact .of_eq rfl rfl rfl rfl
  split
  · exact ⟨rfl, fun h => h.window r k v⟩
  · exact .refl s

theorem keepsRanges_writeLocation (l : Location) (v : Word) (s : State) : KeepsRanges s (writeLocation l v s) := by
  cases l with
  | cmd => exact keepsRanges_writeCmd v s
  | status => exact keepsRanges_writeStatus v s
  | scalarLo => exact keepsRanges_writeScalar (by decide) v s
  | scalarHi => exact keepsRanges_writeScalar (by decide) v s
  | ctrl => exact keepsRanges_writeCtrl v s
  | werrCnt => exact .of_eq rfl rfl rfl rfl
  | window r k => exact keepsRanges_writeWindow r k v s
  | ident | cfg | errCode | errCmd | sieveCfg | vlen _ | reserved => exact .refl s

theorem hostStep_keepsRanges {s t : State} (h : hostStep s = .next t) : KeepsRanges s t := by
  obtain ⟨_, rfl⟩ | ⟨op, rest, _, hop⟩ := hostStep_cases h
  · exact .refl _
  have htaken : KeepsRanges s { s with host := { s.host with pending := rest } } := .of_eq rfl rfl rfl rfl
  obtain ⟨l, rfl⟩ | ⟨l, v, rfl⟩ | rfl := hop
  · exact htaken.trans (keepsRanges_reply_readLocation l _)
  · exact htaken.trans (keepsRanges_writeLocation l v _)
  · exact htaken.trans (keepsRanges_hardReset _)

/-! ### The step -/

theorem agentStep_keepsRanges {a : Agent} {s t : State} (h : agentStep a s = .next t) : KeepsRanges s t := by
  cases a with
  | host => exact hostStep_keepsRanges h
  | engine => exact engineStep_keepsRanges h
  | worker w =>
    cases h
    exact keepsRanges_workerStep w s

theorem step_keepsRanges {s t : State} (h : step s = .next t) : KeepsRanges s t := by
  have henv (e : Env) : KeepsRanges s { s with env := e } := .of_eq rfl rfl rfl rfl
  obtain ⟨a, e, _, hstep⟩ | ⟨e, _, hstep⟩ := step_cases s
  · rw [hstep] at h
    exact (henv e).trans (agentStep_keepsRanges h)
  · rw [hstep] at h
    cases h
    exact henv e

/-- Settles O58: both parts are what `step_keepsRanges` says of every step. -/
theorem stepsKeepRegistersInRange : Obligations.StepsKeepRegistersInRange :=
  ⟨fun _ _ hs h => (step_keepsRanges h).regs hs, fun _ _ h => (step_keepsRanges h).params⟩

end Sys2Proof.Machine
end

section
/-! The Montgomery context, product and exponentiator compute in the residues of an odd modulus (R9, R102, R103,
R108). -/

namespace Sys2Proof.Machine

/-! ### The bit length -/

/-- `msb(x)` counts the bits of x (R9): its top limb holds the bits above the whole limbs below it. -/
theorem msb_eq_log2_succ {p : Params} (hW : 0 < p.W) {x : Nat} (hx : x ≠ 0) : msb p x = Nat.log2 x + 1 := by
  have hlen : len p x - 1 = Nat.log2 x / p.W := by rw [len, if_neg hx]; rfl
  have hsplit : Nat.log2 x / p.W * p.W + Nat.log2 x % p.W = Nat.log2 x := by rw [Nat.mul_comm]; exact Nat.div_add_mod ..
  have hmod : Nat.log2 x % p.W < p.W := Nat.mod_lt _ hW
  have htop : Nat.log2 (x / 2 ^ (Nat.log2 x / p.W * p.W)) = Nat.log2 x % p.W := by
    rw [Nat.log2_eq_log_two, Nat.log_div_base_pow, ← Nat.log2_eq_log_two]
    omega
  have hlimb : limb p x (len p x - 1) = x / 2 ^ (Nat.log2 x / p.W * p.W) := by
    rw [limb, hlen, Params.B, ← pow_mul, Nat.mul_comm p.W]
    refine Nat.mod_eq_of_lt (Nat.lt_of_lt_of_le Nat.lt_log2_self (Nat.pow_le_pow_right (by decide) ?_))
    omega
  rw [msb, if_neg hx, hlimb, htop, hlen, hsplit]

theorem lt_two_pow_msb {p : Params} (hW : 0 < p.W) (x : Nat) : x < 2 ^ msb p x := by
  obtain rfl | hx := Nat.eq_zero_or_pos x
  · exact Nat.two_pow_pos _
  · rw [msb_eq_log2_succ hW hx.ne']
    exact Nat.lt_log2_self

/-! ### The context -/

/-- The loop of R102 multiplies `inv` by `base^(2^n - 1)`. -/
theorem inverseLoop_modEq (R n inv base : Nat) :
    inverseLoop R n inv base ≡ inv * base ^ (2 ^ n - 1) [MOD R] := by
  induction n generalizing inv base with
  | zero => simpa [inverseLoop] using Nat.ModEq.refl inv
  | succ n ih =>
    have hexp : 2 ^ (n + 1) - 1 = 1 + 2 * (2 ^ n - 1) := by
      have := Nat.two_pow_pos n
      omega
    calc inverseLoop R n (inv * base % R) (base * base % R)
        ≡ inv * base % R * (base * base % R) ^ (2 ^ n - 1) [MOD R] := ih _ _
      _ ≡ inv * base * (base * base) ^ (2 ^ n - 1) [MOD R] := (Nat.mod_modEq _ _).mul ((Nat.mod_modEq _ _).pow _)
      _ = inv * base ^ (2 ^ (n + 1) - 1) := by rw [hexp, pow_add, pow_mul]; ring

theorem inverseLoop_lt {R inv : Nat} (n base : Nat) (h : inv < R) : inverseLoop R n inv base < R := by
  induction n generalizing inv base with
  | zero => exact h
  | succ n ih => exact ih _ (Nat.mod_lt _ (by omega))

/-- What the Montgomery product needs of a context (R39): `minv` is the inverse of `m` modulo `R`. -/
structure Inverts (c : MontCtx) : Prop where
  inverse : c.m * c.minv % c.R = 1
  lt : c.minv < c.R

section
variable {c : MontCtx} (h : Inverts c)
include h

theorem Inverts.one_lt_R : 1 < c.R := by
  obtain ⟨hinv, hlt⟩ := h
  have hne : c.R ≠ 1 := fun e => by simp [e, Nat.mod_one] at hinv
  omega

theorem Inverts.modEq : c.m * c.minv ≡ 1 [MOD c.R] := by
  rw [Nat.ModEq, h.inverse, Nat.mod_eq_of_lt h.one_lt_R]

theorem Inverts.coprime : Nat.Coprime c.m c.R := Nat.coprime_of_mul_modEq_one _ h.modEq

theorem Inverts.m_pos : 0 < c.m :=
  Nat.pos_of_ne_zero fun e => by simpa [e] using h.inverse

theorem Inverts.minv_pos : 1 ≤ c.minv :=
  Nat.pos_of_ne_zero fun e => by simpa [e] using h.inverse

end

/-- The context of an odd modulus has the inverse of the modulus (R102): by Euler's theorem `m^(2^(e-1))` is 1 modulo
`R = 2^e`, and the loop's result is the power one below. -/
theorem mctx_inverts {p : Params} (hp : p.Valid) {m : Nat} (hm : m % 2 = 1) : Inverts (mctx p m) := by
  have hlen : 1 ≤ len p m := by rw [len, if_neg (by omega)]; exact Nat.le_add_left 1 _
  have he : 0 < len p m * p.W := Nat.mul_pos hlen hp.W_pos
  have hR : (mctx p m).R = 2 ^ (len p m * p.W) := by rw [Nat.mul_comm, pow_mul]; rfl
  have hone : 1 < (mctx p m).R := by rw [hR]; exact Nat.one_lt_two_pow he.ne'
  have hcop : Nat.Coprime m (2 ^ (len p m * p.W)) :=
    Nat.Coprime.pow_right _ (Nat.coprime_two_right.2 (Nat.odd_iff.2 hm))
  have heuler : m ^ 2 ^ (len p m * p.W - 1) ≡ 1 [MOD 2 ^ (len p m * p.W)] := by
    have := Nat.ModEq.pow_totient hcop
    rwa [Nat.totient_prime_pow Nat.prime_two he, Nat.mul_one] at this
  have hminv : m * (mctx p m).minv ≡ 1 [MOD (mctx p m).R] := by
    have hloop := (inverseLoop_modEq (mctx p m).R (len p m * p.W - 1) 1 m).mul_left m
    rw [Nat.one_mul, ← pow_succ', Nat.sub_add_cancel (Nat.two_pow_pos _)] at hloop
    exact hloop.trans (by rw [hR]; exact heuler)
  exact ⟨by rwa [Nat.ModEq, Nat.mod_eq_of_lt hone] at hminv, inverseLoop_lt _ _ hone⟩

/-! ### The product -/

/-- The number R103 divides by R is a multiple of it. -/
theorem R_dvd_montmul_sum {c : MontCtx} (h : Inverts c) (x : Nat) :
    c.R ∣ x + x % c.R * (c.R - c.minv) % c.R * c.m := by
  have hq : x % c.R * (c.R - c.minv) % c.R * c.m ≡ x * (c.R - c.minv) * c.m [MOD c.R] :=
    ((Nat.mod_modEq _ _).trans ((Nat.mod_modEq _ _).mul_right _)).mul_right _
  have hx : x ≡ x * (c.m * c.minv) [MOD c.R] := by simpa using (h.modEq.mul_left x).symm
  have hsum : x * (c.m * c.minv) + x * (c.R - c.minv) * c.m = c.R * (x * c.m) := by
    obtain ⟨d, hd⟩ := Nat.exists_eq_add_of_le h.lt.le
    rw [hd, Nat.add_sub_cancel_left]
    ring
  have := hx.add hq
  rw [hsum] at this
  exact (Nat.modEq_zero_iff_dvd.1 (this.trans (Nat.modEq_zero_iff_dvd.2 (Nat.dvd_mul_right _ _))))

/-- The Montgomery product times R is the product, modulo m (R103). -/
theorem montmul_mul_R_modEq {c : MontCtx} (h : Inverts c) (a b : Nat) : montmul c a b * c.R ≡ a * b [MOD c.m] := by
  have hquot : (a * b + a * b % c.R * (c.R - c.minv) % c.R * c.m) / c.R * c.R ≡ a * b [MOD c.m] := by
    rw [Nat.div_mul_cancel (R_dvd_montmul_sum h _)]
    exact Nat.add_mul_modulus_modEq_iff.2 rfl
  rw [montmul]
  split
  · rename_i hle
    exact (((Nat.modEq_sub_modulus_iff hle).2 rfl).symm.mul_right _).trans hquot
  · exact hquot

/-- One subtraction brings the product below m where the factors' product is below m·R (R103). -/
theorem montmul_lt {c : MontCtx} (h : Inverts c) {a b : Nat} (hab : a * b < c.m * c.R) : montmul c a b < c.m := by
  have hR : 0 < c.R := h.one_lt_R.le
  have hq : a * b % c.R * (c.R - c.minv) % c.R * c.m ≤ c.R * c.m := Nat.mul_le_mul_right _ (Nat.mod_lt _ hR).le
  have hquot : (a * b + a * b % c.R * (c.R - c.minv) % c.R * c.m) / c.R < 2 * c.m := by
    rw [Nat.div_lt_iff_lt_mul hR]
    linarith [Nat.mul_comm c.R c.m]
  rw [montmul]
  split <;> omega

/-! ### The exponentiator -/

/-- The Montgomery product of two numbers in Montgomery form is their product's Montgomery form. -/
theorem montmul_modEq_form {c : MontCtx} (h : Inverts c) {a b x y : Nat} (ha : a ≡ x * c.R [MOD c.m])
    (hb : b ≡ y * c.R [MOD c.m]) : montmul c a b ≡ x * y * c.R [MOD c.m] := by
  refine Nat.ModEq.cancel_right_of_coprime h.coprime ((montmul_mul_R_modEq h a b).trans ((ha.mul hb).trans ?_))
  exact congrArg (· % c.m) (by ring)

/-- The square-and-multiply loop of R108 multiplies the result's form by the base's power. -/
theorem expLoop_spec {c : MontCtx} (h : Inverts c) (hmR : c.m ≤ c.R) {fuel e res a x y : Nat} (he : e < 2 ^ fuel)
    (hres : res < c.m) (ha : a < c.m) (hx : res ≡ x * c.R [MOD c.m]) (hy : a ≡ y * c.R [MOD c.m]) :
    expLoop c fuel e res a < c.m ∧ expLoop c fuel e res a ≡ x * y ^ e * c.R [MOD c.m] := by
  have hreduced {u v : Nat} (hu : u < c.m) (hv : v < c.m) : montmul c u v < c.m :=
    montmul_lt h (Nat.mul_lt_mul_of_lt_of_le hu (hv.le.trans hmR) (by omega))
  induction fuel generalizing e res a x y with
  | zero =>
    obtain rfl : e = 0 := by simpa using he
    exact ⟨hres, by simpa [expLoop] using hx⟩
  | succ fuel ih =>
    rw [expLoop]
    by_cases h0 : e = 0
    · rw [if_pos h0, h0, pow_zero, Nat.mul_one]
      exact ⟨hres, hx⟩
    rw [if_neg h0]
    have hhalf : e / 2 < 2 ^ fuel := by rw [pow_succ] at he; omega
    have hsq : montmul c a a ≡ y ^ 2 * c.R [MOD c.m] := by rw [sq]; exact montmul_modEq_form h hy hy
    by_cases hodd : e % 2 = 1
    · rw [if_pos hodd]
      obtain ⟨hlt, hmod⟩ := ih hhalf (hreduced hres ha) (hreduced ha ha) (montmul_modEq_form h hx hy) hsq
      have hpow : x * y * (y ^ 2) ^ (e / 2) = x * y ^ e := by
        conv_rhs => rw [show e = 1 + 2 * (e / 2) by omega]
        rw [pow_add, pow_mul]
        ring
      exact ⟨hlt, by rwa [hpow] at hmod⟩
    · rw [if_neg hodd]
      obtain ⟨hlt, hmod⟩ := ih hhalf hres (hreduced ha ha) hx hsq
      have hpow : (y ^ 2) ^ (e / 2) = y ^ e := by rw [← pow_mul]; congr 1; omega
      exact ⟨hlt, by rwa [hpow] at hmod⟩

/-- `fast_odd_exp_mod` is modular exponentiation (R108). -/
theorem oddExpMod_eq {p : Params} (hp : p.Valid) (base e : Nat) {m : Nat} (hm : m % 2 = 1) :
    oddExpMod p base e m = base ^ e % m := by
  have h := mctx_inverts hp hm
  have hpos : 0 < m := h.m_pos
  have hmR : (mctx p m).m ≤ (mctx p m).R := (lt_pow_len p hp.W_pos m).le
  obtain ⟨hlt, hmod⟩ := expLoop_spec h hmR (lt_two_pow_msb hp.W_pos e) (Nat.mod_lt _ hpos) (Nat.mod_lt _ hpos)
    (Nat.mod_modEq (1 * (mctx p m).R) m) (Nat.mod_modEq (base * (mctx p m).R) m)
  have hout : oddExpMod p base e m < m :=
    montmul_lt h (Nat.mul_lt_mul_of_lt_of_le hlt h.one_lt_R.le h.one_lt_R.le)
  have hval : oddExpMod p base e m ≡ base ^ e [MOD m] := by
    refine Nat.ModEq.cancel_right_of_coprime h.coprime ((montmul_mul_R_modEq h _ 1).trans ?_)
    rwa [Nat.one_mul (base ^ e), ← Nat.mul_one (expLoop ..)] at hmod
  rw [← hval, Nat.mod_eq_of_lt hout]

end Sys2Proof.Machine
end

section
/-! is_prime accepts every prime, and a number it accepts has no other table prime as a divisor (R109 to R112, R123). -/

namespace Sys2Proof.Machine

/-! ### The sieve -/

theorem prime_of_mem_table {p : Params} (hp : p.Valid) {q : Nat} (hq : q ∈ p.table) : q.Prime := by
  rw [sieveTableIsTheFirstPrimes p hp] at hq
  obtain ⟨k, _, rfl⟩ := List.mem_map.1 hq
  exact Nat.prime_nth_prime k

theorem nth_prime_3512 : Nat.nth Nat.Prime 3512 = 32771 := by
  have h : primesBelow100000[3512]? = some 32771 := by decide +kernel
  rw [primesBelow100000_eq] at h
  simpa using h

/-- Every table holds the primes up to the greatest SOURCE witness (R6, R111). -/
theorem mem_table_of_prime_le {p : Params} (hp : p.Valid) {n : Nat} (hn : n.Prime) (hle : n ≤ Config.WHI) :
    n ∈ p.table := by
  rw [sieveTableIsTheFirstPrimes p hp]
  obtain ⟨_, _, _, _, hmin, _⟩ := hp
  have hlt : Nat.nth Nat.Prime (Nat.count Nat.Prime n) < Nat.nth Nat.Prime 3512 := by
    rw [Nat.nth_count hn, nth_prime_3512]
    exact Nat.lt_of_le_of_lt hle (by decide)
  have hcount : Nat.count Nat.Prime n < 3512 := (Nat.nth_strictMono Nat.infinite_setOfPred_prime).lt_iff_lt.1 hlt
  exact List.mem_map.2 ⟨_, List.mem_range.2 (by omega), Nat.nth_count hn⟩

theorem exists_dvd_of_sieveOver_reject {n : Nat} {l : List Nat} (h : sieveOver n l = .reject) :
    ∃ q ∈ l, q ∣ n ∧ q ≠ n := by
  induction l with
  | nil => cases h
  | cons q qs ih =>
    rw [sieveOver] at h
    by_cases hq : q = n
    · rw [if_pos hq] at h
      cases h
    rw [if_neg hq] at h
    by_cases hd : n % q = 0
    · exact ⟨q, List.mem_cons_self, Nat.dvd_of_mod_eq_zero hd, hq⟩
    · rw [if_neg hd] at h
      obtain ⟨r, hr, hdvd⟩ := ih h
      exact ⟨r, List.mem_cons_of_mem _ hr, hdvd⟩

theorem not_mem_of_sieveOver_undecided {n : Nat} {l : List Nat} (h : sieveOver n l = .undecided) : n ∉ l := by
  induction l with
  | nil => exact List.not_mem_nil
  | cons q qs ih =>
    rw [sieveOver] at h
    by_cases hq : q = n
    · rw [if_pos hq] at h
      cases h
    rw [if_neg hq] at h
    by_cases hd : n % q = 0
    · rw [if_pos hd] at h
      cases h
    · rw [if_neg hd] at h
      exact fun hm => (List.mem_cons.1 hm).elim (Ne.symm hq) (ih h)

/-! ### The Miller–Rabin round -/

theorem two_pow_tzFuel_dvd (fuel x : Nat) : 2 ^ tzFuel fuel x ∣ x := by
  induction fuel generalizing x with
  | zero => exact Nat.one_dvd x
  | succ fuel ih =>
    rw [tzFuel]
    split
    · exact Nat.one_dvd x
    · have hx : x / 2 * 2 = x := by omega
      rw [pow_succ]
      simpa only [hx] using Nat.mul_dvd_mul_right (ih (x / 2)) 2

theorem tz_pos {x : Nat} (h2 : 2 ≤ x) (heven : x % 2 = 0) : 0 < tz x := by
  have hlog : 0 < Nat.log2 x := (Nat.le_log2 (by omega)).2 h2
  obtain ⟨fuel, hfuel⟩ := Nat.exists_eq_add_one_of_ne_zero hlog.ne'
  rw [tz, hfuel, tzFuel, if_neg (by omega)]
  exact Nat.succ_pos _

/-- Modulo a prime, 1 has no square roots but 1 and -1. -/
theorem eq_one_or_of_mul_self_mod_prime {n x : Nat} (hn : n.Prime) (hx : x < n) (h : x * x % n = 1) :
    x = 1 ∨ x = n - 1 := by
  have hpos : 1 ≤ x := Nat.pos_of_ne_zero fun e => by simp [e] at h
  have hdvd : n ∣ (x + 1) * (x - 1) := by
    rw [← Nat.mul_self_sub_mul_self_eq]
    exact (Nat.modEq_iff_dvd' (Nat.mul_le_mul hpos hpos)).1 (by rw [Nat.ModEq, h, Nat.mod_eq_of_lt hn.one_lt])
  obtain hd | hd := hn.dvd_mul.1 hdvd
  · have := Nat.le_of_dvd (by omega) hd
    omega
  · have := Nat.eq_zero_of_dvd_of_lt hd (by omega)
    omega

/-- Squaring a number below a prime to 1, the loop of R110 meets -1 before it meets 1. -/
theorem mrSquarings_of_prime {n : Nat} (hn : n.Prime) {count x : Nat} (hlt : x < n) (h1 : x ≠ 1) (hm : x ≠ n - 1)
    (hpow : x ^ 2 ^ (count + 1) % n = 1) : mrSquarings n count x = true := by
  have hsq : x * x % n ≠ 1 := fun h => (eq_one_or_of_mul_self_mod_prime hn hlt h).elim h1 hm
  induction count generalizing x with
  | zero => exact absurd (by simpa [sq] using hpow) hsq
  | succ count ih =>
    rw [mrSquarings]
    by_cases hy : x * x % n = n - 1
    · rw [if_pos hy]
    · rw [if_neg hy]
      have hylt : x * x % n < n := Nat.mod_lt _ hn.pos
      refine ih hylt hsq hy ?_ fun h => (eq_one_or_of_mul_self_mod_prime hn hylt h).elim hsq hy
      rw [← Nat.pow_mod, ← sq, ← pow_mul, ← pow_succ']
      exact hpow

/-- Every odd prime passes the round for every witness it does not divide (R110). -/
theorem mrRound_of_prime {p : Params} (hp : p.Valid) {n : Nat} (hn : n.Prime) (hodd : n % 2 = 1) {a : Nat}
    (ha : Nat.Coprime a n) : mrRound p n a = true := by
  have h2 : 2 ≤ n - 1 := by have := hn.two_le; omega
  obtain ⟨k, hk⟩ := Nat.exists_eq_add_one_of_ne_zero (tz_pos h2 (by omega)).ne'
  have hsplit : (n - 1) / 2 ^ tz (n - 1) * 2 ^ tz (n - 1) = n - 1 := Nat.div_mul_cancel (two_pow_tzFuel_dvd _ _)
  have hpow : (a ^ ((n - 1) / 2 ^ tz (n - 1)) % n) ^ 2 ^ (k + 1) % n = 1 := by
    rw [← Nat.pow_mod, ← pow_mul, ← hk, hsplit]
    have := Nat.ModEq.pow_card_sub_one_eq_one hn ha
    rwa [Nat.ModEq, Nat.mod_eq_of_lt hn.one_lt] at this
  simp only [mrRound, oddExpMod_eq hp _ _ hodd]
  have hlt : a ^ ((n - 1) / 2 ^ tz (n - 1)) % n < n := Nat.mod_lt _ hn.pos
  generalize a ^ ((n - 1) / 2 ^ tz (n - 1)) % n = x at hpow hlt ⊢
  by_cases hx : x = 1 ∨ x = n - 1
  · rw [if_pos hx]
  · obtain ⟨h1, hm⟩ := not_or.1 hx
    rw [if_neg hx, hk, Nat.add_sub_cancel]
    exact mrSquarings_of_prime hn hlt h1 hm hpow

/-! ### is_prime -/

/-- Everything is_prime can do (R112): a step-1 case, a verdict of the sieve, or the witness rounds. -/
theorem isPrime_cases (p : Params) (n : Nat) (mode : Bool) (e : Env) :
    (n < 2 ∧ isPrime p n mode e = (false, e)) ∨ ((n = 2 ∨ n = 3) ∧ isPrime p n mode e = (true, e)) ∨
    (3 < n ∧ n % 2 = 0 ∧ isPrime p n mode e = (false, e)) ∨
    (3 < n ∧ n % 2 = 1 ∧ sievePass p n = .accept ∧ isPrime p n mode e = (true, e)) ∨
    (3 < n ∧ n % 2 = 1 ∧ sievePass p n = .reject ∧ isPrime p n mode e = (false, e)) ∨
    (3 < n ∧ n % 2 = 1 ∧ sievePass p n = .undecided ∧
      isPrime p n mode e = mrRounds p n mode (iterCount (msb p n)) e) := by
  unfold isPrime
  by_cases h1 : n < 2
  · exact .inl ⟨h1, if_pos h1⟩
  by_cases h2 : n = 2 ∨ n = 3
  · exact .inr (.inl ⟨h2, by rw [if_neg h1, if_pos h2]⟩)
  rw [if_neg h1, if_neg h2]
  have h3 : 3 < n := by omega
  by_cases heven : n % 2 = 0
  · exact .inr (.inr (.inl ⟨h3, heven, if_pos heven⟩))
  rw [if_neg heven]
  have hodd : n % 2 = 1 := by omega
  cases hs : sievePass p n with
  | accept => exact .inr (.inr (.inr (.inl ⟨h3, hodd, rfl, rfl⟩)))
  | reject => exact .inr (.inr (.inr (.inr (.inl ⟨h3, hodd, rfl, rfl⟩))))
  | undecided => exact .inr (.inr (.inr (.inr (.inr ⟨h3, hodd, rfl, rfl⟩))))

/-- A prime the sieve leaves undecided passes every witness round, whatever the draws: it is above the greatest SOURCE
witness, so it divides no witness of either mode. -/
theorem mrRounds_of_prime {p : Params} (hp : p.Valid) {n : Nat} (hn : n.Prime) (hodd : n % 2 = 1)
    (hs : sievePass p n = .undecided) (mode : Bool) (count : Nat) (e : Env) :
    (mrRounds p n mode count e).1 = true := by
  obtain ⟨_, hr⟩ | ⟨k, _, _, hfail, _, _⟩ := mrRounds_cases p n mode count e
  · rw [hr]
  · have hbig : Config.WHI < n :=
      Nat.lt_of_not_le fun hle => not_mem_of_sieveOver_undecided hs (mem_table_of_prime_le hp hn hle)
    have hmax : Config.WLO ≤ witnessMax n mode ∧ witnessMax n mode < n := by
      simp only [witnessMax, Config.WLO, Config.WHI] at hbig ⊢
      split <;> omega
    obtain ⟨hlo, hhi, _⟩ :=
      draw_spec Config.WLO (witnessMax n mode) (drawsInTurn Config.WLO (witnessMax n mode) k e).2 hmax.1
    have hcop := Nat.coprime_of_lt_prime (Nat.ne_zero_of_lt hlo) (Nat.lt_of_le_of_lt hhi hmax.2) hn
    rw [mrRound_of_prime hp hn hodd hcop.symm] at hfail
    cases hfail

/-- is_prime has no false negatives (R112): it accepts every prime, whatever the draws. -/
theorem isPrime_of_prime {p : Params} (hp : p.Valid) {n : Nat} (hn : n.Prime) (mode : Bool) (e : Env) :
    (isPrime p n mode e).1 = true := by
  obtain ⟨h, _⟩ | ⟨_, h⟩ | ⟨h3, heven, _⟩ | ⟨_, _, _, h⟩ | ⟨_, _, hs, _⟩ | ⟨h3, hodd, hs, h⟩ := isPrime_cases p n mode e
  · have := hn.two_le
    omega
  · rw [h]
  · have := hn.eq_two_or_odd
    omega
  · rw [h]
  · obtain ⟨q, hq, hdvd, hne⟩ := exists_dvd_of_sieveOver_reject hs
    exact absurd ((Nat.prime_dvd_prime_iff_eq (prime_of_mem_table hp hq) hn).1 hdvd) hne
  · rw [h]
    exact mrRounds_of_prime hp hn hodd hs mode _ e

/-- No table prime other than the number divides a number is_prime accepts (R123). -/
theorem eq_of_mem_table_of_dvd_of_isPrime {p : Params} (hp : p.Valid) {n : Nat} {mode : Bool} {e : Env}
    (h : (isPrime p n mode e).1 = true) {q : Nat} (hq : q ∈ p.table) (hdvd : q ∣ n) : q = n := by
  have hprime : n.Prime → q = n := fun hn => (Nat.prime_dvd_prime_iff_eq (prime_of_mem_table hp hq) hn).1 hdvd
  have hsieve (hs : sievePass p n ≠ .reject) : q = n := by
    obtain hm | hno := sieveOver_of_not_reject n p.table hs
    · exact hprime (prime_of_mem_table hp hm)
    · exact absurd hdvd (hno q hq)
  obtain ⟨_, hr⟩ | ⟨rfl | rfl, _⟩ | ⟨_, _, hr⟩ | ⟨_, _, hs, _⟩ | ⟨_, _, _, hr⟩ | ⟨_, _, hs, _⟩ :=
    isPrime_cases p n mode e
  · rw [hr] at h; cases h
  · exact hprime Nat.prime_two
  · exact hprime Nat.prime_three
  · rw [hr] at h; cases h
  · exact hsieve (by rw [hs]; decide)
  · rw [hr] at h; cases h
  · exact hsieve (by rw [hs]; decide)

/-! ### The draws take no turn -/

@[simp] theorem draw_turns (lo hi : Nat) (e : Env) : (draw lo hi e).2.turns = e.turns := by
  unfold draw
  split <;> rfl

@[simp] theorem drawsInTurn_turns (lo hi count : Nat) (e : Env) : (drawsInTurn lo hi count e).2.turns = e.turns := by
  induction count generalizing e with
  | zero => rfl
  | succ count ih => rw [drawsInTurn, ih, draw_turns]

@[simp] theorem isPrime_turns (p : Params) (n : Nat) (mode : Bool) (e : Env) :
    (isPrime p n mode e).2.turns = e.turns := by
  have hrounds : (mrRounds p n mode (iterCount (msb p n)) e).2.turns = e.turns := by
    obtain ⟨_, hr⟩ | ⟨k, _, _, _, _, hr⟩ := mrRounds_cases p n mode (iterCount (msb p n)) e <;>
      rw [hr, drawsInTurn_turns]
  obtain ⟨_, h⟩ | ⟨_, h⟩ | ⟨_, _, h⟩ | ⟨_, _, _, h⟩ | ⟨_, _, _, h⟩ | ⟨_, _, _, h⟩ := isPrime_cases p n mode e <;> rw [h]
  exact hrounds

end Sys2Proof.Machine
end

section
/-! What the commands write and leave (R21, R25, R26, R39, R41, R76, R135), and that none reads CTRL (R34). -/

namespace Sys2Proof.Machine

/-- Settles O37: of the ends `exec_ends` lists, PSEARCH's start alone leaves the engine at work. -/
theorem everyCommandAnswersAndAllButPsearchComplete : Obligations.EveryCommandAnswersAndAllButPsearchComplete := by
  intro i s
  obtain ⟨t, ht, hends⟩ := exec_ends i s
  refine ⟨t, ht, fun hi => ?_⟩
  cases hends with
  | raised | committed | context | verdict => exact ⟨rfl, rfl⟩
  | started d imm hps => exact absurd hps (hi d imm)

/-! ### The flags -/

/-- Which flags a command sets (R25): the comparisons the order flags, BTST T, the primality commands P, and no other
command any. -/
inductive SetsFlags (i : Instr) (fl : Flags) : Flags → Prop where
  | kept : SetsFlags i fl fl
  | order (a b : Nat) (hi : (∃ x y, i = .cmp x y) ∨ ∃ x, i = .cmps x) : SetsFlags i fl (fl.compare a b)
  | bit (b : Nat) (hi : ∃ x imm, i = .btst x imm) : SetsFlags i fl (fl.withT b)
  | verdict (b : Bool) (hi : (∃ x, i = .sieve x) ∨ (∃ x y, i = .mrround x y) ∨ ∃ x, i = .isprime x) :
      SetsFlags i fl (fl.withP b)

theorem commit_keeps_flags (ws : List (Reg × Nat)) (s : State) : (commit ws s.flags s).flags = s.flags := by
  obtain ⟨_, h⟩ | ⟨_, h⟩ := commit_cases ws s.flags s <;> rw [h] <;> rfl

theorem commitReg_setsFlags {i : Instr} (d : Reg) (v : Nat) (s : State) :
    SetsFlags i s.flags (commitReg d v s).flags := by
  rw [commitReg, commit_keeps_flags]
  exact .kept

theorem commitFlags_setsFlags {i : Instr} {s : State} {fl : Flags} (h : SetsFlags i s.flags fl) :
    SetsFlags i s.flags (commitFlags fl s).flags := by
  rw [commitFlags_eq]
  exact h

/-- A check in front of a command's end: an error keeps the flags. -/
theorem SetsFlags.check {i : Instr} {s t : State} {c : Prop} [Decidable c] (e : CmdError)
    (h : SetsFlags i s.flags t.flags) : SetsFlags i s.flags (if c then raise e s else t).flags := by
  split
  · exact .kept
  · exact h

theorem exec_setsFlags (i : Instr) (s : State) : ∃ t, exec i s = .next t ∧ SetsFlags i s.flags t.flags := by
  cases i with
  | ldi | lds | mov | add | adds | mul | muls | shll | shrl | bset | msb => exact ⟨_, rfl, commitReg_setsFlags _ _ s⟩
  | sub | subs | shr | div | mod | divs | mods | mtom | mmul | mred | mexp =>
    exact ⟨_, rfl, .check _ (commitReg_setsFlags _ _ s)⟩
  | cmp a b => exact ⟨_, rfl, commitFlags_setsFlags (.order _ _ (.inl ⟨a, b, rfl⟩))⟩
  | cmps a => exact ⟨_, rfl, commitFlags_setsFlags (.order _ _ (.inr ⟨a, rfl⟩))⟩
  | btst a imm => exact ⟨_, rfl, commitFlags_setsFlags (.bit _ ⟨a, imm, rfl⟩)⟩
  | divrem q r a b =>
    refine ⟨_, rfl, .check _ (.check _ ?_)⟩
    rw [commit_keeps_flags]
    exact .kept
  | msetup a => exact ⟨_, rfl, .check _ .kept⟩
  | sieve a => exact ⟨_, rfl, commitFlags_setsFlags (.verdict _ (.inl ⟨a, rfl⟩))⟩
  | mrround a b => exact ⟨_, rfl, .check _ (commitFlags_setsFlags (.verdict _ (.inr (.inl ⟨a, b, rfl⟩))))⟩
  | isprime a =>
    refine ⟨_, rfl, ?_⟩
    rw [commitFlags_eq]
    exact .verdict _ (.inr (.inr ⟨a, rfl⟩))
  | psearch d imm => exact ⟨_, rfl, .check _ .kept⟩

/-! ### The frame -/

/-- What no command's engine step writes (R26, R135). -/
theorem Ends.frame {i : Instr} {s t : State} (h : Ends i s t) :
    t.params = s.params ∧ t.scalar = s.scalar ∧ t.ctrl = s.ctrl ∧ t.werrCnt = s.werrCnt ∧
      t.status.ovr = s.status.ovr ∧ t.status.werr = s.status.werr ∧ t.engine.curCmd = s.engine.curCmd ∧
      t.engine.curWmode = s.engine.curWmode ∧ t.host = s.host ∧ t.env.turns = s.env.turns := by
  cases h with
  | raised | context | started => exact ⟨rfl, rfl, rfl, rfl, rfl, rfl, rfl, rfl, rfl, rfl⟩
  | committed ws fl =>
    rw [setRegs_eq]
    exact ⟨rfl, rfl, rfl, rfl, rfl, rfl, rfl, rfl, rfl, rfl⟩
  | verdict a => exact ⟨rfl, rfl, rfl, rfl, rfl, rfl, rfl, rfl, rfl, isPrime_turns ..⟩

/-- A register that is no destination keeps its contents and its mark (R21). -/
theorem Ends.register {i : Instr} {s t : State} (h : Ends i s t) {r : Reg} (hr : r ∉ destinations i) :
    t.x[r] = s.x[r] ∧ t.written[r] = s.written[r] := by
  cases h with
  | raised | context | verdict | started => exact ⟨rfl, rfl⟩
  | committed ws fl hd => exact setRegs_frame s ws r fun w hw he => hr (he ▸ hd w hw)

theorem Ends.mctx_eq {i : Instr} {s t : State} (h : Ends i s t) (hi : ∀ a, i ≠ .msetup a) : t.mctx = s.mctx := by
  cases h with
  | raised | verdict | started => rfl
  | committed ws fl => rw [setRegs_eq]; rfl
  | context a ha => exact absurd ha (hi a)

theorem Ends.search_eq {i : Instr} {s t : State} (h : Ends i s t) (hi : ∀ d imm, i ≠ .psearch d imm) :
    t.search = s.search := by
  cases h with
  | raised | context | verdict => rfl
  | committed ws fl => rw [setRegs_eq]; rfl
  | started d imm hps => exact absurd hps (hi d imm)

theorem Ends.env_eq {i : Instr} {s t : State} (h : Ends i s t) (hi : ∀ a, i ≠ .isprime a) : t.env = s.env := by
  cases h with
  | raised | context | started => rfl
  | committed ws fl => rw [setRegs_eq]; rfl
  | verdict a ha => exact absurd ha (hi a)

theorem SetsFlags.order_eq {i : Instr} {fl fl' : Flags} (h : SetsFlags i fl fl') (hcmp : ∀ a b, i ≠ .cmp a b)
    (hcmps : ∀ a, i ≠ .cmps a) : fl'.lt = fl.lt ∧ fl'.eq = fl.eq ∧ fl'.gt = fl.gt := by
  cases h with
  | kept | bit | verdict => exact ⟨rfl, rfl, rfl⟩
  | order a b hi =>
    obtain ⟨x, y, hi⟩ | ⟨x, hi⟩ := hi
    · exact absurd hi (hcmp x y)
    · exact absurd hi (hcmps x)

theorem SetsFlags.t_eq {i : Instr} {fl fl' : Flags} (h : SetsFlags i fl fl') (hbtst : ∀ a imm, i ≠ .btst a imm) :
    fl'.t = fl.t := by
  cases h with
  | kept | order | verdict => rfl
  | bit b hi =>
    obtain ⟨x, imm, hi⟩ := hi
    exact absurd hi (hbtst x imm)

theorem SetsFlags.p_eq {i : Instr} {fl fl' : Flags} (h : SetsFlags i fl fl') (hsieve : ∀ a, i ≠ .sieve a)
    (hround : ∀ a b, i ≠ .mrround a b) (hprime : ∀ a, i ≠ .isprime a) : fl'.p = fl.p := by
  cases h with
  | kept | order | bit => rfl
  | verdict b hi =>
    obtain ⟨x, hi⟩ | ⟨x, y, hi⟩ | ⟨x, hi⟩ := hi
    · exact absurd hi (hsieve x)
    · exact absurd hi (hround x y)
    · exact absurd hi (hprime x)

/-- Settles O38: the frame of the four ways a command ends and of PSEARCH's start, with the flags apart. -/
theorem commandsWriteOnlyTheirOwnState : Obligations.CommandsWriteOnlyTheirOwnState := by
  intro i s t h
  obtain ⟨u, hu, hends⟩ := exec_ends i s
  obtain ⟨v, hv, hflags⟩ := exec_setsFlags i s
  obtain rfl : u = t := by simpa [hu] using h
  obtain rfl : v = u := by simpa [hv] using h
  obtain ⟨hparams, hscalar, hctrl, hcnt, hovr, hwerr, hcmd, hmode, hhost, hturns⟩ := hends.frame
  exact ⟨hparams, hscalar, hctrl, hcnt, hovr, hwerr, hcmd, hmode, hhost, hturns, fun _ hr => hends.register hr,
    hends.mctx_eq, hflags.order_eq, hflags.t_eq, hflags.p_eq, hends.search_eq, hends.env_eq⟩

/-! ### CTRL -/

/-- The state with another CTRL (R34). -/
def State.withCtrl (s : State) (c : Ctrl) : State := { s with ctrl := c }

theorem setRegs_withCtrl (s : State) (ws : List (Reg × Nat)) (c : Ctrl) :
    (s.withCtrl c).setRegs ws = (s.setRegs ws).withCtrl c := by
  induction ws generalizing s with
  | nil => rfl
  | cons w ws ih => exact ih (s.setReg w.1 w.2)

theorem commit_withCtrl (ws : List (Reg × Nat)) (fl : Flags) (s : State) (c : Ctrl) :
    commit ws fl (s.withCtrl c) = (commit ws fl s).withCtrl c := by
  obtain ⟨hv, hc⟩ | ⟨hv, hc⟩ := commit_cases ws fl s
  · rw [hc, commit_of_fits (s := s.withCtrl c) fl hv, setRegs_withCtrl]
    rfl
  · rw [hc, commit_of_exceeds (s := s.withCtrl c) fl hv]
    rfl

/-- An error check in front of an end that ignores CTRL. -/
theorem check_withCtrl {q : Prop} [Decidable q] {s t t' : State} {c : Ctrl} (e : CmdError) (h : t' = t.withCtrl c) :
    (if q then raise e (s.withCtrl c) else t') = (if q then raise e s else t).withCtrl c := by
  split
  · rfl
  · exact h

theorem exec_withCtrl (i : Instr) (s : State) (c : Ctrl) :
    ∃ t, exec i s = .next t ∧ exec i (s.withCtrl c) = .next (t.withCtrl c) := by
  cases i with
  | ldi | lds | mov | cmp | cmps | add | adds | mul | muls | shll | shrl | btst | bset | msb | sieve =>
    exact ⟨_, rfl, congrArg Host.Outcome.next (commit_withCtrl _ _ s c)⟩
  | sub | subs | shr | div | mod | divs | mods | mtom | mmul | mred | mexp | mrround =>
    exact ⟨_, rfl, congrArg Host.Outcome.next (check_withCtrl _ (commit_withCtrl _ _ s c))⟩
  | divrem => exact ⟨_, rfl, congrArg Host.Outcome.next (check_withCtrl _ (check_withCtrl _ (commit_withCtrl _ _ s c)))⟩
  | msetup | psearch => exact ⟨_, rfl, congrArg Host.Outcome.next (check_withCtrl _ (by rfl))⟩
  | isprime a =>
    exact ⟨_, rfl, congrArg Host.Outcome.next (commit_withCtrl _ _
      { s with env := (isPrime s.params (s.reg a) s.engine.curWmode s.env).2 } c)⟩

theorem runCommand_withCtrl {s t : State} (h : runCommand s = .next t) (c : Ctrl) :
    runCommand (s.withCtrl c) = .next (t.withCtrl c) := by
  have hcmd : (s.withCtrl c).engine = s.engine := rfl
  unfold runCommand at h ⊢
  rw [hcmd]
  cases hd : decode s.engine.curCmd with
  | error e =>
    rw [hd] at h
    cases h
    rfl
  | ok i =>
    obtain ⟨u, hu, hc⟩ := exec_withCtrl i s c
    simp only [hd, hu] at h
    cases h
    exact hc

theorem engineStep_withCtrl {s t : State} (h : engineStep s = .next t) (c : Ctrl) :
    engineStep (s.withCtrl c) = .next (t.withCtrl c) := by
  have hphase : (s.withCtrl c).engine.phase = s.engine.phase := rfl
  have hunstarted : (s.withCtrl c).searchUnstarted = s.searchUnstarted := rfl
  have hended : (s.withCtrl c).searchEnded = s.searchEnded := rfl
  unfold engineStep at h ⊢
  rw [hphase, hunstarted, hended]
  cases hp : s.engine.phase with
  | idle =>
    rw [hp] at h
    cases h
    rfl
  | exec =>
    rw [hp] at h
    exact runCommand_withCtrl h c
  | search =>
    rw [hp] at h
    by_cases hu : s.searchUnstarted = true
    · simp only [hu, if_true] at h ⊢
      exact runCommand_withCtrl h c
    by_cases he : s.searchEnded = true
    · simp only [hu, he, if_true] at h ⊢
      cases h
      exact congrArg Host.Outcome.next (commit_withCtrl _ _ s.idleWorkers c)
    · simp only [hu, he] at h ⊢
      cases h
      rfl

theorem afterTest_withCtrl (w : Nat) (v : Worker) (r : TestResult) (s : State) (c : Ctrl) :
    afterTest w v r (s.withCtrl c) = (afterTest w v r s).withCtrl c := by
  cases r with
  | verdict prime => cases prime <;> rfl
  | raised => rfl

theorem workerStep_withCtrl (w : Nat) (s : State) (c : Ctrl) :
    workerStep w (s.withCtrl c) = (workerStep w s).withCtrl c := by
  have hworkers : (s.withCtrl c).search = s.search := rfl
  unfold workerStep
  rw [hworkers]
  cases s.search.workers[w]? with
  | none => rfl
  | some v =>
    cases hp : v.phase with
    | idle | exited => simp only [hp]
    | init | head => simp only [hp]; rfl
    | test =>
      simp only [hp]
      exact afterTest_withCtrl w v _ { s with env := (testCandidate s v.cand).2 } c

/-- Settles O40: no meaning and no step of a search in progress reads CTRL; the witness mode is the latched one. -/
theorem controlRegisterDoesNotAffectTheCommandInProgress :
    Obligations.ControlRegisterDoesNotAffectTheCommandInProgress := by
  refine ⟨fun i s t c h => ?_, fun s t c h => engineStep_withCtrl h c, fun s w c => workerStep_withCtrl w s c⟩
  obtain ⟨u, hu, hc⟩ := exec_withCtrl i s c
  obtain rfl : u = t := by simpa [hu] using h
  exact hc

end Sys2Proof.Machine
end

section
/-! The error status, the order flags and the Montgomery context stay coherent (R25, R29, R30, R39, R126, R127). What
each agent does is split into its cases once; every invariant is then a case analysis over them. -/

namespace Sys2Proof.Machine

/-! ### What the agents do -/

theorem busy_of_pending {s : State} (h : CommandPending s) : s.busy = true := by
  obtain h | ⟨h, _⟩ := h <;> simp [State.busy, h]

/-- Everything the engine's step does, the commands by their ends. -/
inductive EngineDoes (s : State) : State → Prop where
  | waits : EngineDoes s s
  | raised (e : CmdError) (he : e ≠ .knuthCorrection) (hp : CommandPending s) : EngineDoes s (raise e s)
  | executed (i : Instr) {t : State} (hp : CommandPending s) (hd : decode s.engine.curCmd = .ok i)
      (hends : Ends i s t) (hflags : SetsFlags i s.flags t.flags) : EngineDoes s t
  | finished : EngineDoes s (finishSearch s)

theorem engineStep_does {s t : State} (h : engineStep s = .next t) : EngineDoes s t := by
  obtain rfl | ⟨hp, hr⟩ | ⟨_, _, _, rfl⟩ := engineStep_cases h
  · exact .waits
  · obtain ⟨e, _, hc⟩ | ⟨i, hd, hc⟩ := runCommand_cases s
    · rw [hc] at hr
      cases hr
      exact .raised _ (illegalCommand_ne_knuth e) hp
    · obtain ⟨u, hu, hends⟩ := exec_ends i s
      obtain ⟨v, hv, hflags⟩ := exec_setsFlags i s
      obtain rfl : u = t := by simpa [hc, hu] using hr
      obtain rfl : v = u := by simpa [hv] using hu
      exact .executed i hp hd hends hflags
  · exact .finished

/-- The finish step commits one register and P, or raises; either way the workers are IDLE (R122). -/
theorem finishSearch_cases (s : State) :
    (∃ x written, finishSearch s =
      complete { s.idleWorkers with x := x, written := written, flags := s.flags.withP true }) ∨
    finishSearch s = raise .capacityExceeded s.idleWorkers := by
  rw [finishSearch]
  obtain ⟨_, hc⟩ | ⟨_, hc⟩ :=
    commit_cases [(dField s.engine.curCmd, s.search.value)] (s.flags.withP true) s.idleWorkers
  · exact .inl ⟨_, _, hc⟩
  · exact .inr hc

/-- A worker's step changes the search state and the free inputs alone: is_prime raises nothing (R118 to R120). -/
theorem workerStep_frame (w : Nat) (s : State) :
    workerStep w s = { s with env := (workerStep w s).env, search := (workerStep w s).search } := by
  obtain h | ⟨v, _, ⟨_, h⟩ | ⟨_, h⟩ | ⟨_, h⟩⟩ := workerStep_cases w s <;> rw [h]
  · rfl
  · rfl
  · rw [workerTest, testCandidate]
    cases (isPrime s.params v.cand s.engine.curWmode s.env).1 <;> rfl

/-- The host's step keeps what neither its list nor the free inputs can spoil, every write keeps and the reset
restores. -/
theorem hostStep_keeps {P : State → Prop} (hfree : ∀ s h e, P s → P { s with host := h, env := e })
    (hwrite : ∀ s t, Written s t → P s → P t) (hreset : ∀ s, P s → P (hardReset s)) {s t : State} (hs : P s)
    (h : hostStep s = .next t) : P t := by
  obtain ⟨_, rfl⟩ | ⟨op, rest, _, hop⟩ := hostStep_cases h
  · exact hs
  have htaken : P { s with host := { s.host with pending := rest } } := hfree s _ s.env hs
  obtain ⟨l, rfl⟩ | ⟨l, v, rfl⟩ | rfl := hop
  · obtain ⟨e, he⟩ := readLocation_env l { s with host := { s.host with pending := rest } }
    rw [reply, he]
    exact hfree s _ e hs
  · exact hwrite _ _ (writeLocation_written l v _) htaken
  · exact hreset _ htaken

/-! ### The error status -/

theorem errorOk_raise {e : CmdError} (he : e ≠ .knuthCorrection) (s : State) : ErrorOk (raise e s) :=
  ⟨fun h => (by cases h), fun _ => ⟨e, he, rfl, rfl⟩, fun h => (by cases h)⟩

/-- A completed command records nothing. -/
theorem ErrorOk.complete {s u : State} (h : ErrorOk s) (herr : u.status.err = s.status.err) (hrec : u.error = s.error) :
    ErrorOk (complete u) := by
  obtain ⟨hclear, hset, _⟩ := h
  refine ⟨fun h0 => ?_, fun h1 => ?_, fun hb => by cases hb⟩
  · rw [complete_error, hrec]
    exact hclear (herr ▸ h0)
  · rw [complete_error, hrec]
    exact hset (herr ▸ h1)

theorem ErrorOk.finishSearch {s : State} (h : ErrorOk s) : ErrorOk (finishSearch s) := by
  obtain ⟨_, _, hf⟩ | hf := finishSearch_cases s <;> rw [hf]
  · exact h.complete rfl rfl
  · exact errorOk_raise (by decide) _

theorem ErrorOk.ends {i : Instr} {s t : State} (h : ErrorOk s) (hp : CommandPending s) (hends : Ends i s t) :
    ErrorOk t := by
  cases hends with
  | raised e he => exact errorOk_raise he s
  | committed ws fl =>
    rw [setRegs_eq]
    exact h.complete rfl rfl
  | context | verdict => exact h.complete rfl rfl
  | started =>
    obtain ⟨hclear, hset, hbusy⟩ := h
    exact ⟨hclear, hset, fun _ => hbusy (busy_of_pending hp)⟩

theorem ErrorOk.engineStep {s t : State} (h : ErrorOk s) (hstep : engineStep s = .next t) : ErrorOk t := by
  cases engineStep_does hstep with
  | waits => exact h
  | raised e he => exact errorOk_raise he s
  | executed i hp _ hends => exact h.ends hp hends
  | finished => exact h.finishSearch

theorem and_not_eq_ite (b c : Bool) : (b && !c) = if c then false else b := by
  cases c <;> simp

/-- A write to STATUS clears exactly the W1C bits written 1, ERRCODE and ERRCMD going with ERR (R30). -/
theorem writeStatus_eq (v : Word) (s : State) : writeStatus v s = { s with
    status := { done := if v.getLsbD 1 then false else s.status.done
                err := if v.getLsbD 2 then false else s.status.err
                ovr := if v.getLsbD 3 then false else s.status.ovr
                werr := if v.getLsbD 4 then false else s.status.werr }
    error := if v.getLsbD 2 then ErrorRegs.cleared else s.error } := by
  unfold writeStatus
  simp only [and_not_eq_ite]
  cases v.getLsbD 2 <;> rfl

theorem ErrorOk.writeStatus {s : State} (h : ErrorOk s) (v : Word) : ErrorOk (writeStatus v s) := by
  obtain ⟨hclear, hset, hbusy⟩ := h
  have hdone (hb : s.busy = true) : (if v.getLsbD 1 then false else s.status.done) = false := by
    rw [(hbusy hb).1, ite_self]
  rw [writeStatus_eq]
  cases v.getLsbD 2 with
  | true =>
    unfold ErrorOk
    exact ⟨fun _ => rfl, fun h1 => (by cases h1), fun hb => ⟨hdone hb, rfl⟩⟩
  | false =>
    unfold ErrorOk
    exact ⟨hclear, hset, fun hb => ⟨hdone hb, (hbusy hb).2⟩⟩

theorem ErrorOk.written {s t : State} (h : ErrorOk s) (hw : Written s t) : ErrorOk t := by
  cases hw with
  | ignored | rejected | control | errorCount | scalar | window => exact h
  | accepted c hb he => exact ⟨h.1, h.2.1, fun _ => ⟨rfl, he⟩⟩
  | status v => exact h.writeStatus v
  | reset => exact ⟨fun _ => rfl, fun h1 => (by cases h1), fun hb => (by cases hb)⟩

theorem ErrorOk.agentStep {a : Agent} {s t : State} (h : ErrorOk s) (hstep : agentStep a s = .next t) : ErrorOk t := by
  cases a with
  | host =>
    exact hostStep_keeps (fun _ _ _ hs => hs) (fun _ _ hw hs => hs.written hw)
      (fun _ _ => ⟨fun _ => rfl, fun h1 => (by cases h1), fun hb => (by cases hb)⟩) h hstep
  | engine => exact h.engineStep hstep
  | worker w =>
    cases hstep
    rw [workerStep_frame]
    exact h

/-- Settles O59: every agent's step keeps the error status coherent. -/
theorem stepsKeepTheErrorStatusCoherent : Obligations.StepsKeepTheErrorStatusCoherent :=
  preserved_of_agents (fun _ _ h => h) fun _ _ _ _ h hstep => h.agentStep hstep

/-! ### The order flags -/

theorem FlagsOk.of_setsFlags {i : Instr} {s t : State} (h : FlagsOk s) (hf : SetsFlags i s.flags t.flags) :
    FlagsOk t := by
  unfold FlagsOk
  generalize t.flags = fl at hf
  cases hf with
  | kept | bit | verdict => exact h
  | order a b =>
    simp only [Flags.compare, decide_eq_true_eq]
    omega

theorem FlagsOk.finishSearch {s : State} (h : FlagsOk s) : FlagsOk (finishSearch s) := by
  obtain ⟨_, _, hf⟩ | hf := finishSearch_cases s <;> rw [hf] <;> exact h

theorem FlagsOk.engineStep {s t : State} (h : FlagsOk s) (hstep : engineStep s = .next t) : FlagsOk t := by
  cases engineStep_does hstep with
  | waits | raised => exact h
  | executed i _ _ _ hflags => exact h.of_setsFlags hflags
  | finished => exact h.finishSearch

theorem flagsOk_of_cleared {s : State} (h : s.flags = .cleared) : FlagsOk s := by
  unfold FlagsOk
  rw [h]
  decide

theorem FlagsOk.written {s t : State} (h : FlagsOk s) (hw : Written s t) : FlagsOk t := by
  cases hw with
  | ignored | rejected | accepted | control | errorCount | scalar | window => exact h
  | status v =>
    rw [writeStatus_eq]
    exact h
  | reset => exact flagsOk_of_cleared rfl

theorem FlagsOk.agentStep {a : Agent} {s t : State} (h : FlagsOk s) (hstep : agentStep a s = .next t) : FlagsOk t := by
  cases a with
  | host =>
    exact hostStep_keeps (fun _ _ _ hs => hs) (fun _ _ hw hs => hs.written hw)
      (fun _ _ => flagsOk_of_cleared rfl) h hstep
  | engine => exact h.engineStep hstep
  | worker w =>
    cases hstep
    rw [workerStep_frame]
    exact h

/-! ### The Montgomery context -/

/-- MSETUP's context of an odd register is valid and right (R39, R102). -/
theorem mctxOk_setup {s : State} (hr : RegsOk s) {a : Reg} (hodd : s.reg a % 2 = 1) :
    MctxOk (complete { s with mctx := mctx s.params (s.reg a) }) := by
  have hinv := mctx_inverts hr.1 hodd
  exact fun _ => ⟨hodd, hr.reg_lt a, rfl, rfl, hinv.inverse, hinv.minv_pos, hinv.lt⟩

theorem MctxOk.finishSearch {s : State} (h : MctxOk s) : MctxOk (finishSearch s) := by
  obtain ⟨_, _, hf⟩ | hf := finishSearch_cases s <;> rw [hf] <;> exact h

theorem MctxOk.engineStep {s t : State} (h : MctxOk s) (hr : RegsOk s) (hstep : engineStep s = .next t) : MctxOk t := by
  cases engineStep_does hstep with
  | waits | raised => exact h
  | executed i _ _ hends =>
    cases hends with
    | raised | verdict | started => exact h
    | committed ws fl =>
      rw [setRegs_eq]
      exact h
    | context a _ hodd => exact mctxOk_setup hr hodd
  | finished => exact h.finishSearch

theorem mctxOk_of_invalid {s : State} (h : s.mctx.valid = false) : MctxOk s := fun hv => by
  rw [h] at hv
  cases hv

theorem MctxOk.written {s t : State} (h : MctxOk s) (hw : Written s t) : MctxOk t := by
  cases hw with
  | ignored | rejected | accepted | control | errorCount | scalar | window => exact h
  | status v =>
    rw [writeStatus_eq]
    exact h
  | reset => exact mctxOk_of_invalid rfl

theorem MctxOk.agentStep {a : Agent} {s t : State} (h : MctxOk s) (hr : RegsOk s) (hstep : agentStep a s = .next t) :
    MctxOk t := by
  cases a with
  | host =>
    exact hostStep_keeps (fun _ _ _ hs => hs) (fun _ _ hw hs => hs.written hw)
      (fun _ _ => mctxOk_of_invalid rfl) h hstep
  | engine => exact h.engineStep hr hstep
  | worker w =>
    cases hstep
    rw [workerStep_frame]
    exact h

end Sys2Proof.Machine
end

section
/-! The prime search stays coherent (R42, R117 to R123): no prime is stepped over, a published value is an accepted
candidate, and a worker exits only after a publication. With it, every step keeps the whole invariant. -/

namespace Sys2Proof.Machine

/-! ### The PSEARCH word -/

/-- A command decodes from the row its opcode names, and from that row's fields (R72). -/
theorem exists_row_of_decode {c : Word} {i : Instr} (h : decode c = .ok i) :
    ∃ row ∈ opcodeTable, row.op = opField c ∧ row.build c = i := by
  unfold decode at h
  cases hrow : rowOf (opField c) with
  | none =>
    rw [hrow] at h
    cases h
  | some row =>
    refine ⟨row, List.mem_of_find?_eq_some hrow, by simpa using List.find?_some hrow, ?_⟩
    simp only [hrow] at h
    split at h
    · split at h
      · exact Except.ok.inj h
      · cases h
    · cases h

/-- PSEARCH is the command of opcode 0x30, and its digit count is the word's immediate field (R67). -/
theorem psearch_fields {c : Word} {d : Reg} {imm : Imm14} (h : decode c = .ok (.psearch d imm)) :
    opField c = 0x30 ∧ immField c = imm := by
  obtain ⟨row, hmem, hop, hbuild⟩ := exists_row_of_decode h
  have hrow : row.build c = .psearch d imm → row.op = 0x30 ∧ immField c = imm := by
    revert row
    simp [opcodeTable]
  rw [← hop]
  exact hrow hbuild

/-! ### Candidates -/

/-- The h-digit starting numbers are a range with members (R118). -/
theorem start_le_end {h : Nat} (hh : 1 ≤ h) : 8 * 16 ^ (h - 1) ≤ 16 ^ h - 1 := by
  have hpow : 16 ^ h = 16 ^ (h - 1) * 16 := by rw [← pow_succ, Nat.sub_add_cancel hh]
  have := Nat.pow_pos (n := h - 1) (show 0 < 16 by decide)
  omega

/-- An even number above 2 is no prime. -/
theorem not_prime_of_even {n : Nat} (h2 : 2 < n) (heven : n % 2 = 0) : ¬ n.Prime := fun hp => by
  have := hp.eq_two_or_odd
  omega

/-- Setting bit 0 of a start steps over an even number at most (R118). -/
theorem candidate_of_start {h start : Nat} (hlo : 8 * 16 ^ (h - 1) ≤ start) (hhi : start ≤ 16 ^ h - 1) :
    Candidate h (start + (1 - bit start 0)) := by
  have hpos := Nat.pow_pos (n := h - 1) (show 0 < 16 by decide)
  have hbit : bit start 0 = start % 2 := by rw [bit, pow_zero, Nat.div_one]
  refine ⟨by omega, start, hlo, hhi, by omega, fun n hn hlt => ?_⟩
  exact not_prime_of_even (by omega) (by omega)

/-- The step to the next odd number steps over no prime, where the candidate left is none (R120). -/
theorem Candidate.next {h c : Nat} (hc : Candidate h c) (hp : ¬ c.Prime) : Candidate h (c + 2) := by
  obtain ⟨hodd, start, hlo, hhi, hle, hnone⟩ := hc
  have hpos := Nat.pow_pos (n := h - 1) (show 0 < 16 by decide)
  refine ⟨by omega, start, hlo, hhi, by omega, fun n hn hlt => ?_⟩
  obtain hbelow | rfl | rfl : n < c ∨ n = c ∨ n = c + 1 := by omega
  · exact hnone n hn hbelow
  · exact hp
  · exact not_prime_of_even (by omega) (by omega)

/-! ### The engine -/

/-- Outside a search only the token and IDLE workers matter. -/
theorem searchOk_of_idle {s : State} (hphase : s.engine.phase = .idle)
    (hidle : ∀ v ∈ s.search.workers, v.phase = .idle) (htoken : s.search.cancel = s.search.found) : SearchOk s where
  idleOutside _ := hidle
  phaseIsOpcode := ⟨fun h => by simp [hphase] at h, fun h => by simp [hphase] at h⟩
  cancelIsFound := htoken
  started h := by simp [hphase] at h

theorem mem_map_phase {l : List Worker} {p : WorkerPhase} {v : Worker}
    (hv : v ∈ l.map (fun w => { w with phase := p })) : v.phase = p := by
  obtain ⟨w, _, rfl⟩ := List.mem_map.1 hv
  rfl

/-- While a command is pending no worker is at work (R29, R117). -/
theorem SearchOk.idle_of_pending {s : State} (h : SearchOk s) (hp : CommandPending s) :
    ∀ v ∈ s.search.workers, v.phase = .idle := by
  obtain hexec | ⟨_, hu⟩ := hp
  · exact h.idleOutside (by rw [hexec]; decide)
  · simpa [State.searchUnstarted] using hu

/-- The start step of a legal PSEARCH begins a coherent search (R117). -/
theorem searchOk_start {s : State} {d : Reg} {imm : Imm14} (hd : decode s.engine.curCmd = .ok (.psearch d imm))
    (hz : imm.toNat ≠ 0) (hm : imm.toNat ≤ s.params.HMAX) : SearchOk { s with
      engine := { s.engine with phase := .search }
      search := { s.search with
        found := false, cancel := false, workers := s.search.workers.map (fun w => { w with phase := .init }) } } where
  idleOutside h := absurd rfl h
  phaseIsOpcode := ⟨fun _ => (psearch_fields hd).1, fun h => by cases h⟩
  cancelIsFound := rfl
  started _ _ := by
    refine ⟨⟨d, imm, hd, fun e => hz (by simp [e]), hm⟩, fun v hv => ?_, fun v hv h => ?_, fun v hv h => ?_,
      fun h => by cases h⟩
    · rw [mem_map_phase hv]
      decide
    · rw [mem_map_phase hv] at h
      cases h
    · rw [mem_map_phase hv] at h
      obtain h | h := h <;> cases h

theorem SearchOk.ends {i : Instr} {s t : State} (h : SearchOk s) (hp : CommandPending s)
    (hd : decode s.engine.curCmd = .ok i) (hends : Ends i s t) : SearchOk t := by
  have hidle := h.idle_of_pending hp
  cases hends with
  | raised | context | verdict => exact searchOk_of_idle rfl hidle h.cancelIsFound
  | committed ws fl =>
    rw [setRegs_eq]
    exact searchOk_of_idle rfl hidle h.cancelIsFound
  | started d imm hi hz hm => exact searchOk_start (hi ▸ hd) hz hm

theorem SearchOk.finishSearch {s : State} (h : SearchOk s) : SearchOk (finishSearch s) := by
  obtain ⟨_, _, hf⟩ | hf := finishSearch_cases s <;> rw [hf] <;>
    exact searchOk_of_idle rfl (fun _ hv => mem_map_phase hv) h.cancelIsFound

theorem SearchOk.engineStep {s t : State} (h : SearchOk s) (hstep : engineStep s = .next t) : SearchOk t := by
  cases engineStep_does hstep with
  | waits => exact h
  | raised e _ hp => exact searchOk_of_idle rfl (h.idle_of_pending hp) h.cancelIsFound
  | executed i hp hd hends => exact h.ends hp hd hends
  | finished => exact h.finishSearch

/-! ### The workers -/

/-- A worker that is not IDLE works for a search that has started (R42). -/
theorem SearchOk.started_of_worker {s : State} (h : SearchOk s) {w : Nat} {v : Worker}
    (hw : s.search.workers[w]? = some v) (hv : v.phase ≠ .idle) :
    s.engine.phase = .search ∧ s.searchUnstarted = false := by
  have hmem : v ∈ s.search.workers := List.mem_of_getElem? hw
  refine ⟨by_contra fun hp => hv (h.idleOutside hp v hmem), ?_⟩
  rw [State.searchUnstarted, List.all_eq_false]
  exact ⟨v, hmem, by simpa using hv⟩

/-- A worker step of a started search keeps it coherent, where the worker's new phase and candidate are, and what is
published is an accepted candidate. -/
theorem SearchOk.worker {s : State} (h : SearchOk s) (hstarted : s.engine.phase = .search ∧ s.searchUnstarted = false)
    {w : Nat} {new : Worker} {e : Env} {sr : Search} (hworkers : sr.workers = s.search.workers.set w new)
    (htoken : sr.cancel = sr.found) (hidle : new.phase ≠ .idle) (hexit : new.phase = .exited → sr.found = true)
    (hcand : new.phase = .head ∨ new.phase = .test → Candidate s.searchDigits new.cand)
    (hfound : s.search.found = true → sr.found = true)
    (hvalue : sr.found = true → Candidate s.searchDigits sr.value ∧ Accepted s sr.value) :
    SearchOk { s with env := e, search := sr } := by
  obtain ⟨hcmd, hnoIdle, hexited, hcands, _⟩ := h.started hstarted.1 hstarted.2
  have hmem {v : Worker} (hv : v ∈ sr.workers) : v ∈ s.search.workers ∨ v = new :=
    List.mem_or_eq_of_mem_set (hworkers ▸ hv)
  refine ⟨fun hp => absurd hstarted.1 hp, h.phaseIsOpcode, htoken, fun _ _ =>
    ⟨hcmd, fun v hv => ?_, fun v hv hx => ?_, fun v hv hx => ?_, hvalue⟩⟩
  · obtain hv | rfl := hmem hv
    · exact hnoIdle v hv
    · exact hidle
  · obtain hv | rfl := hmem hv
    · exact hfound (hexited v hv hx)
    · exact hexit hx
  · obtain hv | rfl := hmem hv
    · exact hcands v hv hx
    · exact hcand hx

theorem SearchOk.workerInit {s : State} (h : SearchOk s)
    (hstarted : s.engine.phase = .search ∧ s.searchUnstarted = false) (w : Nat) : SearchOk (workerInit w s) := by
  obtain ⟨⟨d, imm, hd, hz, _⟩, _, _, _, hpub⟩ := h.started hstarted.1 hstarted.2
  have hdigits : 1 ≤ s.searchDigits := by
    rw [State.searchDigits, immValue, (psearch_fields hd).2]
    exact Nat.pos_of_ne_zero fun e => hz (BitVec.eq_of_toNat_eq e)
  obtain ⟨hlo, hhi, _⟩ := draw_spec _ _ s.env (start_le_end hdigits)
  exact h.worker hstarted rfl h.cancelIsFound (fun e => by cases e) (fun e => by cases e)
    (fun _ => candidate_of_start hlo hhi) id hpub

/-- HEAD lets a worker exit on the token alone, which is set only after a publication (R119, R120). -/
theorem SearchOk.workerHead {s : State} (h : SearchOk s) {w : Nat} {v : Worker} (hw : s.search.workers[w]? = some v)
    (hv : v.phase = .head) : SearchOk (workerHead w v s) := by
  have hstarted := h.started_of_worker hw (by rw [hv]; decide)
  obtain ⟨_, _, _, hcands, hpub⟩ := h.started hstarted.1 hstarted.2
  have hcand := hcands v (List.mem_of_getElem? hw) (.inl hv)
  unfold Machine.workerHead
  refine h.worker hstarted rfl h.cancelIsFound ?_ (fun hx => ?_) (fun _ => hcand) id hpub
  · simp only
    split <;> decide
  · by_contra hno
    have hcancel : s.search.cancel = false := by rw [h.cancelIsFound]; exact (Bool.not_eq_true _).mp hno
    simp [hcancel] at hx

/-- TEST publishes a candidate is_prime accepts, and steps on from one it rejects, which is no prime (R120). -/
theorem SearchOk.workerTest {s : State} (h : SearchOk s) (hp : s.params.Valid) {w : Nat} {v : Worker}
    (hw : s.search.workers[w]? = some v) (hv : v.phase = .test) : SearchOk (workerTest w v s) := by
  have hstarted := h.started_of_worker hw (by rw [hv]; decide)
  obtain ⟨_, _, _, hcands, hpub⟩ := h.started hstarted.1 hstarted.2
  have hcand := hcands v (List.mem_of_getElem? hw) (.inr hv)
  rw [Machine.workerTest, testCandidate]
  cases hprime : (isPrime s.params v.cand s.engine.curWmode s.env).1 with
  | true =>
    rw [afterTest]
    have haccepted : Accepted s v.cand :=
      ⟨⟨s.env, hprime⟩, fun q hq hdvd => eq_of_mem_table_of_dvd_of_isPrime hp hprime hq hdvd⟩
    refine h.worker hstarted rfl rfl (fun e => by cases e) (fun _ => rfl) (fun e => ?_) (fun _ => rfl) (fun _ => ?_)
    · obtain e | e := e <;> cases e
    · cases hfound : s.search.found with
      | true => exact hpub hfound
      | false => exact ⟨hcand, haccepted⟩
  | false =>
    rw [afterTest]
    have hnot : ¬ v.cand.Prime := fun hn => by simp [isPrime_of_prime hp hn] at hprime
    exact h.worker hstarted rfl h.cancelIsFound (fun e => by cases e) (fun e => by cases e) (fun _ => hcand.next hnot)
      id hpub

theorem SearchOk.workerStep {s : State} (h : SearchOk s) (hp : s.params.Valid) (w : Nat) :
    SearchOk (workerStep w s) := by
  obtain hs | ⟨v, hw, ⟨hv, hs⟩ | ⟨hv, hs⟩ | ⟨hv, hs⟩⟩ := workerStep_cases w s <;> rw [hs]
  · exact h
  · exact h.workerInit (h.started_of_worker hw (by rw [hv]; decide)) w
  · exact h.workerHead hw hv
  · exact h.workerTest hp hw hv

/-! ### The host -/

/-- A change of nothing the search reads. -/
theorem SearchOk.of_eq {s t : State} (h : SearchOk s) (hparams : t.params = s.params) (hengine : t.engine = s.engine)
    (hsearch : t.search = s.search) : SearchOk t := by
  obtain ⟨hout, hop, htoken, hstarted⟩ := h
  constructor
  · rwa [hengine, hsearch]
  · rwa [hengine]
  · rwa [hsearch]
  · simpa only [State.searchUnstarted, State.searchDigits, Accepted, hparams, hengine, hsearch] using hstarted

/-- A command is accepted while no worker is at work, and in its opcode's phase (R29). -/
theorem SearchOk.accept {s : State} (h : SearchOk s) (hb : s.busy = false) (c : Word) : SearchOk (accept c s) := by
  have hidle : ∀ v ∈ s.search.workers, v.phase = .idle := h.idleOutside fun hp => by simp [State.busy, hp] at hb
  have hunstarted : (Machine.accept c s).searchUnstarted = true := by
    simpa [State.searchUnstarted] using hidle
  refine ⟨fun _ => hidle, ?_, h.cancelIsFound, fun _ hs => by rw [hunstarted] at hs; cases hs⟩
  simp only [accept_engine, phaseOf]
  split <;> simp [*]

theorem searchOk_of_reset {s : State} {p : Params} {n : Nat} (hengine : s.engine = .cleared)
    (hsearch : s.search = resetSearch p n) : SearchOk s := by
  refine searchOk_of_idle (by rw [hengine]; rfl) (fun v hv => ?_) (by rw [hsearch]; rfl)
  rw [hsearch] at hv
  obtain ⟨w, _, rfl⟩ := List.mem_map.1 hv
  rfl

theorem SearchOk.written {s t : State} (h : SearchOk s) (hw : Written s t) : SearchOk t := by
  cases hw with
  | ignored => exact h
  | rejected | control | errorCount | scalar | window => exact h.of_eq rfl rfl rfl
  | accepted c hb => exact h.accept hb c
  | status v =>
    rw [writeStatus_eq]
    exact h.of_eq rfl rfl rfl
  | reset => exact searchOk_of_reset rfl rfl

/-! ### The whole invariant -/

theorem SearchOk.agentStep {a : Agent} {s t : State} (h : SearchOk s) (hp : s.params.Valid)
    (hstep : agentStep a s = .next t) : SearchOk t := by
  cases a with
  | host =>
    exact hostStep_keeps (fun _ _ _ hs => hs.of_eq rfl rfl rfl) (fun _ _ hw hs => hs.written hw)
      (fun _ _ => searchOk_of_reset rfl rfl) h hstep
  | engine => exact h.engineStep hstep
  | worker w =>
    cases hstep
    exact h.workerStep hp w

theorem Inv.agentStep {a : Agent} {s t : State} (h : Inv s) (hstep : agentStep a s = .next t) : Inv t where
  regs := (agentStep_keepsRanges hstep).regs h.regs
  error := h.error.agentStep hstep
  flags := h.flags.agentStep hstep
  mctx := h.mctx.agentStep h.regs hstep
  search := h.search.agentStep h.regs.1 hstep

/-- The free inputs are no part of the invariant. -/
theorem Inv.env {s : State} (h : Inv s) (e : Env) : Inv { s with env := e } :=
  ⟨h.regs, h.error, h.flags, h.mctx, h.search.of_eq rfl rfl rfl⟩

/-- Settles O60: every agent's step keeps each of the five parts of the invariant. -/
theorem stepsKeepTheInvariant : Obligations.StepsKeepTheInvariant :=
  preserved_of_agents (fun _ e h => h.env e) fun _ _ _ _ h hstep => h.agentStep hstep

end Sys2Proof.Machine
end

section
/-! The decoder reads back every command's word (R62, R63, R72, R73): one decode lemma for all formats, over the fields
of an assembled word. -/

namespace Sys2Proof

theorem bits_assemble {op d a b c imm : Nat} (ho : op < 64) (hd : d < 16) (ha : a < 16) (hb : b < 16)
    (hc : c * 2 ^ 10 + imm < 2 ^ 14) (hi lo : Nat) : bits (assemble op d a b c imm) hi lo =
      (op * 2 ^ 26 + d * 2 ^ 22 + a * 2 ^ 18 + b * 2 ^ 14 + c * 2 ^ 10 + imm) / 2 ^ lo % 2 ^ (hi - lo + 1) := by
  rw [bits, Laws.toNat_assemble ho hd ha hb hc]

section
variable {op d a b c imm : Nat} (ho : op < 64) (hd : d < 16) (ha : a < 16) (hb : b < 16)
include ho hd ha hb

theorem dField_assemble (hc : c * 2 ^ 10 + imm < 2 ^ 14) : dField (assemble op d a b c imm) = Fin.ofNat 16 d := by
  rw [dField, regField, bits_assemble ho hd ha hb hc]
  congr 1
  omega

theorem aField_assemble (hc : c * 2 ^ 10 + imm < 2 ^ 14) : aField (assemble op d a b c imm) = Fin.ofNat 16 a := by
  rw [aField, regField, bits_assemble ho hd ha hb hc]
  congr 1
  omega

theorem bField_assemble (hc : c * 2 ^ 10 + imm < 2 ^ 14) : bField (assemble op d a b c imm) = Fin.ofNat 16 b := by
  rw [bField, regField, bits_assemble ho hd ha hb hc]
  congr 1
  omega

/-- Field C, where the immediate field it shares its bits with is not given. -/
theorem cField_assemble (hc : c < 16) : cField (assemble op d a b c 0) = Fin.ofNat 16 c := by
  rw [cField, regField, bits_assemble ho hd ha hb (by omega)]
  congr 1
  omega

theorem immField_assemble (himm : imm < 2 ^ 14) : immField (assemble op d a b 0 imm) = BitVec.ofNat 14 imm := by
  rw [immField, bits_assemble ho hd ha hb (by omega)]
  congr 1
  omega

end

/-- A word that names a row of the opcode map and meets its mask decodes to what the row builds from it (R72). -/
theorem decode_of_row {c : Word} {row : Row} (hrow : rowOf (opField c) = some row)
    (hmask : c &&& row.mask = row.matchWord) (hw : (row.build c).WellFormed = true) : decode c = .ok (row.build c) := by
  unfold decode
  simp only [hrow, hmask, hw, if_true]

/-- The same of an assembled word, whose fields are in their ranges. -/
theorem decode_assemble {op d a b c imm : Nat} {row : Row} {i : Instr} (hrow : rowOf op = some row)
    (hmask : assemble op d a b c imm &&& row.mask = row.matchWord) (ho : op < 64) (hd : d < 16) (ha : a < 16)
    (hb : b < 16) (hc : c * 2 ^ 10 + imm < 2 ^ 14) (hbuild : row.build (assemble op d a b c imm) = i)
    (hw : i.WellFormed = true) : decode (assemble op d a b c imm) = .ok i := by
  have hrow' : rowOf (opField (assemble op d a b c imm)) = some row := by
    rw [Laws.opField_assemble ho hd ha hb hc, hrow]
  subst hbuild
  exact decode_of_row hrow' hmask hw

/-- Decoding the word of a well-formed command gives it back (R72, R73), format by format (R63). -/
theorem decode_encode {i : Instr} (hw : i.WellFormed = true) : decode (encode i) = .ok i := by
  cases i with
  | add d a b | sub d a b | mul d a b | div d a b | mod d a b | mmul d a b =>
    exact decode_assemble rfl (Laws.masked_R3 d.isLt a.isLt b.isLt) (by decide) d.isLt a.isLt b.isLt (by decide)
      (by simp (disch := omega) [dField_assemble, aField_assemble, bField_assemble]) hw
  | mov d a | adds d a | subs d a | muls d a | msb d a | divs d a | mods d a | mtom d a | mred d a =>
    exact decode_assemble rfl (Laws.masked_R2 d.isLt a.isLt) (by decide) d.isLt a.isLt (by decide) (by decide)
      (by simp (disch := omega) [dField_assemble, aField_assemble]) hw
  | lds d =>
    exact decode_assemble rfl (Laws.masked_R1D d.isLt) (by decide) d.isLt (by decide) (by decide) (by decide)
      (by simp (disch := omega) [dField_assemble]) hw
  | cmp a b | mrround a b =>
    exact decode_assemble rfl (Laws.masked_C2 a.isLt b.isLt) (by decide) (by decide) a.isLt b.isLt (by decide)
      (by simp (disch := omega) [aField_assemble, bField_assemble]) hw
  | cmps a | msetup a | sieve a | isprime a =>
    exact decode_assemble rfl (Laws.masked_C1 a.isLt) (by decide) (by decide) a.isLt (by decide) (by decide)
      (by simp (disch := omega) [aField_assemble]) hw
  | ldi d imm | psearch d imm =>
    exact decode_assemble rfl (Laws.masked_I1 d.isLt imm.isLt) (by decide) d.isLt (by decide) (by decide) (by omega)
      (by simp (disch := omega) [dField_assemble, immField_assemble]) hw
  | shr d a imm | shll d a imm | shrl d a imm | bset d a imm =>
    exact decode_assemble rfl (Laws.masked_I2 d.isLt a.isLt imm.isLt) (by decide) d.isLt a.isLt (by decide) (by omega)
      (by simp (disch := omega) [dField_assemble, aField_assemble, immField_assemble]) hw
  | btst a imm =>
    exact decode_assemble rfl (Laws.masked_IC a.isLt imm.isLt) (by decide) (by decide) a.isLt (by decide) (by omega)
      (by simp (disch := omega) [aField_assemble, immField_assemble]) hw
  | divrem q r a b =>
    exact decode_assemble rfl (Laws.masked_R4 q.isLt a.isLt b.isLt r.isLt) (by decide) q.isLt a.isLt b.isLt (by omega)
      (by simp (disch := omega) [dField_assemble, aField_assemble, bField_assemble, cField_assemble]) hw
  | mexp d a b c =>
    exact decode_assemble rfl (Laws.masked_R4 d.isLt a.isLt b.isLt c.isLt) (by decide) d.isLt a.isLt b.isLt (by omega)
      (by simp (disch := omega) [dField_assemble, aField_assemble, bField_assemble, cField_assemble]) hw

end Sys2Proof
end

section
/-! Which agent steps, and what the engine's step on a pending command is (R20, R24, R29, R72, R117, R122, R140). -/

namespace Sys2Proof.Machine

/-! ### Who may step -/

theorem hostEnabled_iff (s : State) :
    hostEnabled s = true ↔ ∃ op rest, s.host.pending = op :: rest ∧ (op = .wait → s.engine.phase = .idle) := by
  unfold hostEnabled
  cases s.host.pending with
  | nil => simp
  | cons op rest => cases op <;> simp [State.busy]

theorem engineEnabled_iff (s : State) :
    engineEnabled s = true ↔ s.engine.phase = .exec ∨ s.engine.phase = .search ∧
      ((∀ v ∈ s.search.workers, v.phase = .idle) ∨ (∀ v ∈ s.search.workers, v.phase = .exited)) := by
  unfold engineEnabled
  cases s.engine.phase with
  | idle => simp
  | exec => simp
  | search => simp [State.searchUnstarted, State.searchEnded]

theorem active_iff (p : WorkerPhase) : p.active = true ↔ p = .init ∨ p = .head ∨ p = .test := by
  cases p <;> decide

theorem workerEnabled_iff (s : State) (w : Nat) : workerEnabled s w = true ↔
    ∃ v, s.search.workers[w]? = some v ∧ (v.phase = .init ∨ v.phase = .head ∨ v.phase = .test) := by
  unfold workerEnabled
  cases s.search.workers[w]? with
  | none => simp
  | some v => simp [active_iff]

theorem host_mem_enabledAgents (s : State) : .host ∈ enabledAgents s ↔ hostEnabled s = true := by
  simp [enabledAgents]

theorem engine_mem_enabledAgents (s : State) : .engine ∈ enabledAgents s ↔ engineEnabled s = true := by
  simp [enabledAgents]

theorem worker_mem_enabledAgents (s : State) (w : Nat) :
    .worker w ∈ enabledAgents s ↔ s.engine.phase = .search ∧ workerEnabled s w = true := by
  have hlt : workerEnabled s w = true → w < s.search.workers.length := fun h => by
    obtain ⟨v, hv, _⟩ := (workerEnabled_iff s w).1 h
    exact (List.getElem?_eq_some_iff.1 hv).1
  by_cases hp : s.engine.phase = .search
  · simpa [enabledAgents, hp] using hlt
  · simp [enabledAgents, hp]

/-! ### The choice -/

theorem turnUsed_of_no_turn {s : State} (h : s.env.turns = []) : s.turnUsed = s := by
  rw [State.turnUsed, h, List.tail_nil, ← h]

/-- The one agent that may step is chosen, whatever the turns. -/
theorem chooseAgent_of_alone {s : State} {a : Agent} (h : enabledAgents s = [a]) :
    chooseAgent s = (some a, s.turnUsed) := by
  unfold chooseAgent
  rw [h]
  cases ht : s.env.turns with
  | nil => rw [turnUsed_of_no_turn ht]; rfl
  | cons t rest =>
    simp only [State.turnUsed, ht, List.tail_cons]
    split
    · rename_i hmem
      rw [List.mem_singleton.1 hmem]
    · rfl

/-- Where no agent may step none is chosen, whatever the turns. -/
theorem chooseAgent_of_none {s : State} (h : enabledAgents s = []) : chooseAgent s = (none, s.turnUsed) := by
  unfold chooseAgent
  rw [h]
  cases ht : s.env.turns with
  | nil => rw [turnUsed_of_no_turn ht]; rfl
  | cons t rest => simp [State.turnUsed, ht, freeChoice]

theorem step_of_alone {s : State} {a : Agent} (h : enabledAgents s = [a]) : step s = agentStep a s.turnUsed := by
  rw [step, machineStep, chooseAgent_of_alone h]

theorem step_of_none {s : State} (h : enabledAgents s = []) : step s = .next s.turnUsed := by
  rw [step, machineStep, chooseAgent_of_none h]

/-- A turn named for an agent that may step is that agent's, and is used up. -/
theorem step_of_turnUsed {s : State} {a : Agent} {rest : List Agent} (ht : s.env.turns = a :: rest)
    (ha : a ∈ enabledAgents s) : step s = agentStep a s.turnUsed := by
  rw [step_of_turn ht ha, State.turnUsed, ht, List.tail_cons]

/-! ### The engine's turn -/

theorem engine_enabled_of_pending {s : State} (hp : CommandPending s) : .engine ∈ enabledAgents s := by
  rw [engine_mem_enabledAgents, engineEnabled_iff]
  obtain h | ⟨h, hu⟩ := hp
  · exact .inl h
  · exact .inr ⟨h, .inl (by simpa [State.searchUnstarted] using hu)⟩

/-- On a pending command the engine's step is exec of what CURCMD decodes to (R72). -/
theorem engineStep_of_pending {s : State} {i : Instr} (hp : CommandPending s) (hd : decode s.engine.curCmd = .ok i) :
    engineStep s = exec i s := by
  have hrun : runCommand s = exec i s := by rw [runCommand, hd]
  unfold engineStep
  obtain h | ⟨h, hu⟩ := hp
  · rw [h]
    exact hrun
  · rw [h]
    exact (if_pos hu).trans hrun

/-- With a command pending and no access the host can make now, the engine alone may step (R20). -/
theorem enabledAgents_of_pending {s : State} (hp : CommandPending s)
    (hh : s.host.pending = [] ∨ s.host.pending.head? = some .wait) : enabledAgents s = [.engine] := by
  have hhost : hostEnabled s = false := by
    unfold hostEnabled
    obtain h | h := hh
    · rw [h]
    · obtain ⟨rest, hrest⟩ := List.head?_eq_some_iff.1 h
      simp [hrest, busy_of_pending hp]
  have hengine : engineEnabled s = true := (engine_mem_enabledAgents s).1 (engine_enabled_of_pending hp)
  obtain h | ⟨h, hu⟩ := hp
  · simp [enabledAgents, hhost, hengine, h]
  · have hidle : ∀ v ∈ s.search.workers, v.phase = .idle := by simpa [State.searchUnstarted] using hu
    have hworkers : ∀ w, workerEnabled s w = false := fun w => Bool.eq_false_iff.2 fun hw => by
      obtain ⟨v, hv, hphase⟩ := (workerEnabled_iff s w).1 hw
      simp [hidle v (List.mem_of_getElem? hv)] at hphase
    simp [enabledAgents, hhost, hengine, h, hworkers]

/-- Settles O5: the engine's turn, named or its alone, is exec of the decoded command. -/
theorem stepRunsTheDecodedCommand : Obligations.StepRunsTheDecodedCommand := by
  refine ⟨fun s i rest hp ht hd => ?_, fun s i hp hh hd => ?_⟩
  · rw [step_of_turnUsed ht (engine_enabled_of_pending hp)]
    exact engineStep_of_pending (s := s.turnUsed) hp hd
  · rw [step_of_alone (enabledAgents_of_pending hp hh)]
    exact engineStep_of_pending (s := s.turnUsed) hp hd

/-- Settles O6: the membership lemmas say who may step; an idle block with nothing to do has no such agent. -/
theorem stepMovesTheNamedAgentOrWaits : Obligations.StepMovesTheNamedAgentOrWaits := by
  refine ⟨fun s => ⟨?_, ?_, fun w => ?_⟩, fun s a rest ht ha => step_of_turnUsed ht ha, fun s hi hh => step_of_none ?_⟩
  · rw [host_mem_enabledAgents, hostEnabled_iff]
  · rw [engine_mem_enabledAgents, engineEnabled_iff]
  · rw [worker_mem_enabledAgents, workerEnabled_iff]
  · simp [enabledAgents, hostEnabled, engineEnabled, hi, hh]

/-- A placed command is pending, in the phase of its opcode with every worker IDLE. -/
theorem commandPending_placeCommand (c : Word) (s : State) : CommandPending (placeCommand c s) := by
  have hphase : (placeCommand c s).engine.phase = if opField c = 0x30 then .search else .exec := rfl
  have hunstarted : (placeCommand c s).searchUnstarted = true :=
    List.all_eq_true.2 fun v hv => decide_eq_true (mem_map_phase hv)
  by_cases hop : opField c = 0x30
  · exact .inr ⟨by rw [hphase, if_pos hop], hunstarted⟩
  · exact .inl (by rw [hphase, if_neg hop])

/-- Settles O7: the placed word decodes back to its command, and the placed turn is the engine's. -/
theorem placedWordIsTheNextCommandRun : Obligations.PlacedWordIsTheNextCommandRun := by
  intro s i hw
  have hplaced : s.withFetchWord 32 (encode i).toNat = placeCommand (encode i) s := by
    rw [State.withFetchWord, Nat.mod_eq_of_lt (encode i).isLt, BitVec.ofNat_toNat, BitVec.setWidth_eq]
  have hp := commandPending_placeCommand (encode i) s
  rw [hplaced, step_of_turnUsed (a := .engine) rfl (engine_enabled_of_pending hp)]
  exact engineStep_of_pending (s := (placeCommand (encode i) s).turnUsed) hp (decode_encode hw)

end Sys2Proof.Machine
end

section
/-! The host's registers read and write (R27 to R33, R35 to R38, R48 to R51). -/

namespace Sys2Proof.Machine

theorem busy_of_idle {s : State} (h : s.engine.phase = .idle) : s.busy = false := by simp [State.busy, h]

theorem busy_of_not_idle {s : State} (h : s.engine.phase ≠ .idle) : s.busy = true := by simp [State.busy, h]

/-! ### The address map -/

/-- The window words of register r stand from 0x1000·(r + 1) on (R48). -/
theorem locate_window (r : Reg) {k : Nat} (hk : k < 1024) : locate (0x1000 * (r.val + 1) + 4 * k) = .window r k := by
  have hreg : Fin.ofNat 16 ((0x1000 * (r.val + 1) + 4 * k) / 0x1000 - 1) = r := Fin.ext (by simp; omega)
  have hword : (0x1000 * (r.val + 1) + 4 * k) % 0x1000 / 4 = k := by omega
  rw [locate, if_neg (by omega), if_neg (by omega), if_neg (by omega), if_pos (by omega), hreg, hword]

/-- VLEN of register r stands at 0x40 + 4·r (R48). -/
theorem locate_vlen (r : Reg) : locate (0x40 + 4 * r.val) = .vlen r := by
  have hreg : Fin.ofNat 16 ((0x40 + 4 * r.val - 0x40) / 4) = r := Fin.ext (by simp)
  rw [locate, if_neg (by omega), if_pos (by omega), hreg]

/-! ### CMD -/

theorem opField_eq_div (c : Word) : opField c = c.toNat / 2 ^ 26 := by
  have := c.isLt
  rw [opField, bits]
  omega

theorem writeCmd_of_free {s : State} (hb : s.busy = false) (he : s.status.err = false) (c : Word) :
    writeCmd c s = accept c s := by
  rw [writeCmd, hb, he]
  rfl

theorem writeCmd_of_rejected {s : State} (h : s.busy = true ∨ s.status.err = true) (c : Word) :
    writeCmd c s = setOvr s := by
  rw [writeCmd, if_pos (by simpa using h)]

/-- Bit 0 of STATUS is BUSY, whatever the flag bits read (R30, R51). -/
theorem readStatus_bit0_of_busy {s : State} (hb : s.busy = true) : (readStatus s).1.getLsbD 0 = true := by
  rw [readStatus, if_pos hb]
  simp only [BitVec.getLsbD_ofNat, Nat.testBit_zero, statusLow, hb, Bool.toNat_true]
  simp only [Nat.zero_lt_succ, decide_true, Bool.true_and, decide_eq_true_eq]
  omega

/-- Settles O44: `writeCmd` accepts with BUSY and ERR clear, and sets OVR otherwise. -/
theorem commandWriteIsAcceptedOrSetsOvr : Obligations.CommandWriteIsAcceptedOrSetsOvr := by
  intro s c
  refine ⟨fun hi he => ?_, fun h => ?_, rfl⟩
  · have hw : hostWrites s 0x008 c = accept c s := writeCmd_of_free (busy_of_idle hi) he c
    have hbusy : (accept c s).busy = true := by
      rw [State.busy, accept_engine, phaseOf]
      split <;> rfl
    rw [hw]
    refine ⟨?_, readStatus_bit0_of_busy hbusy⟩
    rw [accept, phaseOf, opField_eq_div]
  · exact writeCmd_of_rejected (h.imp_left busy_of_not_idle) c

/-! ### STATUS -/

theorem readStatus_of_idle {s : State} (hb : s.busy = false) :
    readStatus s = (BitVec.ofNat 32 (statusLow s + flagBits s.flags * 2 ^ 8), s) := by
  rw [readStatus, hb]
  rfl

/-- Settles O45: the read is `readStatus_of_idle`, the bits added up; the write is `writeStatus_eq`. -/
theorem statusReadsAndWriteOneToClear : Obligations.StatusReadsAndWriteOneToClear := by
  intro s v
  refine ⟨fun hi => ?_, writeStatus_eq v s⟩
  have hread : hostReads s 0x00C = (readStatus s).1 := rfl
  rw [hread, readStatus_of_idle (busy_of_idle hi), statusLow, flagBits, busy_of_idle hi, Bool.toNat_false]
  exact congrArg (BitVec.ofNat 32) (by ring)

/-! ### SCALAR -/

theorem wordOf_zero (x : Nat) : wordOf x 0 = x % 2 ^ 32 := by
  rw [wordOf, Nat.mul_zero, pow_zero, Nat.div_one]

/-- The upper word of a two-word value is its top. -/
theorem wordOf_one {x : Nat} (hx : x < 2 ^ 64) : wordOf x 1 = x / 2 ^ 32 := by
  rw [wordOf]
  omega

theorem replaceWord_zero (x u : Nat) : replaceWord x 0 u = x / 2 ^ 32 * 2 ^ 32 + u := by
  rw [replaceWord, wordOf_zero]
  omega

theorem replaceWord_one {x : Nat} (hx : x < 2 ^ 64) (u : Nat) : replaceWord x 1 u = x % 2 ^ 32 + u * 2 ^ 32 := by
  rw [replaceWord, wordOf_one hx]
  omega

theorem hostReads_scalarLo (s : State) : hostReads s 0x018 = BitVec.ofNat 32 (s.scalar % 2 ^ 32) :=
  congrArg (BitVec.ofNat 32) (wordOf_zero s.scalar)

theorem hostReads_scalarHi {s : State} (hW : s.params.W = 64) (hx : s.scalar < 2 ^ 64) :
    hostReads s 0x01C = BitVec.ofNat 32 (s.scalar / 2 ^ 32) :=
  (if_pos hW).trans (congrArg (BitVec.ofNat 32) (wordOf_one hx))

theorem writeScalar_of_busy {s : State} (hb : s.busy = true) (k : Nat) (v : Word) :
    writeScalar k v s = setOvr s := by
  rw [writeScalar, if_pos hb]

theorem writeScalar_of_idle {s : State} (hb : s.busy = false) {k : Nat} (hk : k = 0 ∨ s.params.W = 64) (v : Word) :
    writeScalar k v s = { s with scalar := replaceWord s.scalar k v.toNat } := by
  rw [writeScalar, hb, if_neg Bool.false_ne_true, if_pos hk]

theorem ofNat_toNat_of_eq {n : Nat} {v : Word} (h : n = v.toNat) : BitVec.ofNat 32 n = v := by
  rw [h, BitVec.ofNat_toNat, BitVec.setWidth_eq]

/-- With BUSY = 0 a write to SCALAR_LO replaces the low half, which then reads back (R33). -/
theorem scalarLo_write {s : State} (hb : s.busy = false) (v : Word) :
    hostWrites s 0x018 v = { s with scalar := s.scalar / 2 ^ 32 * 2 ^ 32 + v.toNat } ∧
      hostReads (hostWrites s 0x018 v) 0x018 = v := by
  have hv : v.toNat < 2 ^ 32 := v.isLt
  have hw : hostWrites s 0x018 v = { s with scalar := s.scalar / 2 ^ 32 * 2 ^ 32 + v.toNat } := by
    rw [← replaceWord_zero]
    exact writeScalar_of_idle hb (.inl rfl) v
  rw [hw, hostReads_scalarLo]
  exact ⟨rfl, ofNat_toNat_of_eq (by dsimp only; omega)⟩

/-- With BUSY = 0 and W = 64 a write to SCALAR_HI replaces the high half, which then reads back (R33). -/
theorem scalarHi_write {s : State} (hb : s.busy = false) (hW : s.params.W = 64) (hx : s.scalar < 2 ^ 64) (v : Word) :
    hostWrites s 0x01C v = { s with scalar := s.scalar % 2 ^ 32 + v.toNat * 2 ^ 32 } ∧
      hostReads (hostWrites s 0x01C v) 0x01C = v := by
  have hv : v.toNat < 2 ^ 32 := v.isLt
  have hw : hostWrites s 0x01C v = { s with scalar := s.scalar % 2 ^ 32 + v.toNat * 2 ^ 32 } := by
    rw [← replaceWord_one hx]
    exact writeScalar_of_idle hb (.inr hW) v
  have hlt : s.scalar % 2 ^ 32 + v.toNat * 2 ^ 32 < 2 ^ 64 := by omega
  rw [hw, hostReads_scalarHi (s := { s with scalar := s.scalar % 2 ^ 32 + v.toNat * 2 ^ 32 }) hW hlt]
  exact ⟨rfl, ofNat_toNat_of_eq (by dsimp only; omega)⟩

/-- SCALAR_HI ignores writes at W = 32 (R33). -/
theorem scalarHi_write_ignored {s : State} (hb : s.busy = false) (hW : s.params.W = 32) (v : Word) :
    hostWrites s 0x01C v = s := by
  have hno : ¬ (1 = 0 ∨ s.params.W = 64) := by omega
  have hw : hostWrites s 0x01C v = writeScalar 1 v s := rfl
  rw [hw, writeScalar, hb, if_neg Bool.false_ne_true, if_neg hno]

/-- Settles O46: the halves are words 0 and 1 of SCALAR, which is below 2^64 at W = 64. -/
theorem scalarHalvesReadAndWrite : Obligations.ScalarHalvesReadAndWrite := by
  intro s v hr
  obtain ⟨_, _, hscalar, _⟩ := hr
  have hlt (hW : s.params.W = 64) : s.scalar < 2 ^ 64 := by rwa [Params.B, hW] at hscalar
  refine ⟨hostReads_scalarLo s, fun hW => hostReads_scalarHi hW (hlt hW), fun hi => ?_, fun hW => if_neg (by omega),
    fun hi => ⟨writeScalar_of_busy (busy_of_not_idle hi) 0 v, fun _ => writeScalar_of_busy (busy_of_not_idle hi) 1 v⟩⟩
  have hb := busy_of_idle hi
  exact ⟨scalarLo_write hb v, fun hW => scalarHi_write hb hW (hlt hW) v, fun hW => scalarHi_write_ignored hb hW v⟩

/-! ### The operand windows and VLEN -/

theorem readOperandView_of_idle {s : State} (hb : s.busy = false) (v : Nat) :
    readOperandView v s = (BitVec.ofNat 32 v, s) := by
  rw [readOperandView, hb]
  rfl

theorem writeWindow_of_idle {s : State} (hb : s.busy = false) (r : Reg) {k : Nat} (hk : k < s.params.windowWords)
    (v : Word) : writeWindow r k v s =
      { s with x := s.x.set r (s.x[r].set k v), written := s.written.set r true } := by
  rw [writeWindow, hb, if_neg Bool.false_ne_true, if_pos hk]

theorem writeWindow_beyond {s : State} (hb : s.busy = false) (r : Reg) {k : Nat} (hk : s.params.windowWords ≤ k)
    (v : Word) : writeWindow r k v s = s := by
  rw [writeWindow, hb, if_neg Bool.false_ne_true, if_neg (by omega)]

/-- A window word holds its 32 bits of the value (R38). -/
theorem windowWord_eq {s : State} (hr : RegsOk s) (r : Reg) {k : Nat} (hk : k < s.params.windowWords) :
    (windowWord s r k).toNat = s.reg r / 2 ^ (32 * k) % 2 ^ 32 := by
  have hlen : k < s.x[r].length := by rwa [hr.2.1 r]
  rw [windowWord, List.getD_eq_getElem _ _ hlen, ← wordOf_wordsValue _ _ hlen]
  rfl

/-- Replacing a window word exchanges its share of the register's value (R50). -/
theorem reg_window_add {s : State} (hr : RegsOk s) (r : Reg) {k : Nat} (hk : k < s.params.windowWords) (u : Word) :
    wordsValue (s.x[r].set k u) + s.reg r / 2 ^ (32 * k) % 2 ^ 32 * 2 ^ (32 * k) =
      s.reg r + u.toNat * 2 ^ (32 * k) := by
  have hlen : k < s.x[r].length := by rwa [hr.2.1 r]
  have hword : s.reg r / 2 ^ (32 * k) % 2 ^ 32 = s.x[r][k].toNat := wordOf_wordsValue _ _ hlen
  rw [hword]
  exact wordsValue_set _ _ u hlen

/-- Settles O49: words within the window are the register's words, the others do not exist. -/
theorem windowWordReadsAndWrites : Obligations.WindowWordReadsAndWrites := by
  intro s r k u hr hi hk
  have hb := busy_of_idle hi
  rw [hostReads, hostWrites, locate_window r hk]
  refine ⟨fun hin => ⟨?_, _, rfl, ?_⟩, fun hout => ⟨?_, writeWindow_beyond hb r hout u⟩⟩
  · rw [readLocation, readOperandView_of_idle hb, if_pos hin, windowWord_eq hr r hin]
    exact BitVec.eq_of_toNat_eq (by simp)
  · rw [writeLocation, writeWindow_of_idle hb r hin]
    have hother {α : Type} (l : Vector α 16) (a : α) {v : Reg} (hv : v ≠ r) : (l.set r a)[v] = l[v] :=
      Vector.getElem_set_ne _ _ fun e => hv (Fin.ext e.symm)
    refine ⟨?_, by simp, fun v hv => ⟨hother _ _ hv, hother _ _ hv⟩, rfl⟩
    rw [reg_eq]
    simpa using reg_window_add hr r hin u
  · rw [readLocation, readOperandView_of_idle hb, if_neg (by omega)]
    rfl

/-- Settles O51: VLEN reads `len`, the least length, which CAP bounds as every register is below B^CAP. -/
theorem vlenReadsTheSignificantLength : Obligations.VlenReadsTheSignificantLength := by
  intro s r hr hi
  have hread : hostReads s (0x40 + 4 * r.val) = BitVec.ofNat 32 (len s.params (s.reg r)) := by
    rw [hostReads, locate_vlen, readLocation, readOperandView_of_idle (busy_of_idle hi)]
  exact ⟨len s.params (s.reg r), len_le _ _ _ (hr.reg_lt r), hread, lt_pow_len _ hr.1.W_pos _,
    fun M hM => len_le _ _ M hM⟩

/-! ### Identification and error registers -/

theorem bits_ofNat {n : Nat} (hn : n < 2 ^ 32) (hi lo : Nat) :
    bits (BitVec.ofNat 32 n) hi lo = n / 2 ^ lo % 2 ^ (hi - lo + 1) := by
  rw [bits, BitVec.toNat_ofNat, Nat.mod_eq_of_lt hn]

/-- The fields of CFG (R28). -/
theorem cfgWord_fields {p : Params} (hp : p.Valid) :
    bits (cfgWord p) 7 0 = p.W ∧ bits (cfgWord p) 15 8 = p.CAP ∧ bits (cfgWord p) 20 16 = 16 ∧
      bits (cfgWord p) 23 21 = 0 ∧ bits (cfgWord p) 29 24 = p.NWORK ∧ bits (cfgWord p) 31 30 = 0 := by
  obtain ⟨hW, hCAP, _, hNWORK, _⟩ := hp
  have hlt : p.W + p.CAP * 2 ^ 8 + 16 * 2 ^ 16 + p.NWORK * 2 ^ 24 < 2 ^ 32 := by omega
  simp only [cfgWord, Config.NREG, bits_ofNat hlt]
  omega

/-- The fields of SIEVECFG (R36). -/
theorem sieveCfg_fields {p : Params} (hp : p.Valid) :
    bits (BitVec.ofNat 32 p.NSIEVE) 13 0 = p.NSIEVE ∧ bits (BitVec.ofNat 32 p.NSIEVE) 31 14 = 0 := by
  obtain ⟨_, _, _, _, hNSIEVE⟩ := hp
  simp only [bits_ofNat (show p.NSIEVE < 2 ^ 32 by omega)]
  omega

/-- The fields of ERRCODE (R31). -/
theorem errCodeWord_fields (s : State) :
    bits (errCodeWord s) 7 0 = s.error.cls.toNat ∧ bits (errCodeWord s) 15 8 = s.error.detail.toNat ∧
      bits (errCodeWord s) 31 16 = 0 := by
  have hcls : s.error.cls.toNat < 2 ^ 8 := s.error.cls.isLt
  have hdetail : s.error.detail.toNat < 2 ^ 8 := s.error.detail.isLt
  simp only [errCodeWord, bits_ofNat (show s.error.cls.toNat + s.error.detail.toNat * 2 ^ 8 < 2 ^ 32 by omega)]
  omega

/-- Settles O56: the words' fields, one lemma a register. -/
theorem identificationAndErrorRegistersRead : Obligations.IdentificationAndErrorRegistersRead := by
  intro s v hp
  obtain ⟨hW, hCAP, hNREG, hzero, hNWORK, htop⟩ := cfgWord_fields hp
  obtain ⟨hNSIEVE, hrest⟩ := sieveCfg_fields hp
  obtain ⟨hcls, hdetail, hhigh⟩ := errCodeWord_fields s
  exact ⟨rfl, hW, hCAP, hNREG, hzero, hNWORK, htop, hNSIEVE, hrest, hcls, hdetail, hhigh, rfl, rfl, rfl⟩

end Sys2Proof.Machine
end

section
/-! The host's accesses (R46, R48 to R52): where a bus error answers, what a read leaves, what a busy block hides; and
the runs of LOADV and READV (R75). -/

namespace Sys2Proof

/-! ### The words of a value, one by one -/

/-- The windows fit the map of R48. -/
theorem Params.Valid.windowWords_le {p : Params} (h : p.Valid) : p.windowWords ≤ 1024 := by
  obtain ⟨_, _, hbits, _⟩ := h
  rw [Params.windowWords]
  omega

/-- A value's k-th word (R38). -/
theorem getElem_wordsOf {n k : Nat} (v : Nat) (hk : k < (wordsOf n v).length) :
    (wordsOf n v)[k] = BitVec.ofNat 32 (wordOf v k) := by
  induction n generalizing v k with
  | zero => cases hk
  | succ n ih =>
    cases k with
    | zero => exact BitVec.eq_of_toNat_eq (by simp [wordsOf, wordOf])
    | succ k =>
      have hword : wordOf (v / 2 ^ 32) k = wordOf v (k + 1) := by
        rw [wordOf, wordOf, Nat.div_div_eq_div_mul, ← pow_add, Nat.mul_succ, Nat.add_comm 32]
      rw [← hword]
      exact ih (v / 2 ^ 32) (Nat.lt_of_succ_lt_succ hk)

theorem drop_wordsOf {n k : Nat} (v : Nat) (hk : k < n) :
    (wordsOf n v).drop k = BitVec.ofNat 32 (wordOf v k) :: (wordsOf n v).drop (k + 1) := by
  rw [List.drop_eq_getElem_cons (by simpa using hk), getElem_wordsOf]

/-- With its entry k set, a list's first k + 1 entries are its first k and the new one. -/
theorem take_succ_set {α : Type} {l : List α} {k : Nat} (u : α) (hk : k < l.length) :
    (l.set k u).take (k + 1) = l.take k ++ [u] := by
  rw [List.take_add_one, List.take_set_of_le (Nat.le_refl k)]
  simp [hk]

end Sys2Proof

namespace Sys2Proof.Machine

/-! ### Reads leave the block as it is -/

/-- What a read leaves: the state itself or, while BUSY, what one draw of unspecified bits leaves (R51, R52). -/
theorem readLocation_leaves (l : Location) (s : State) :
    (readLocation l s).2 = s ∨ s.busy = true ∧ ∃ n, (readLocation l s).2 = (unspecified n s).2 := by
  have hview (v : Nat) : (readOperandView v s).2 = s ∨
      s.busy = true ∧ ∃ n, (readOperandView v s).2 = (unspecified n s).2 := by
    unfold readOperandView
    split
    · exact .inr ⟨‹_›, 32, rfl⟩
    · exact .inl rfl
  cases l with
  | status =>
    simp only [readLocation, readStatus]
    split
    · exact .inr ⟨‹_›, 5, rfl⟩
    · exact .inl rfl
  | vlen r => exact hview _
  | window r k => exact hview _
  | ident | cfg | cmd | errCode | errCmd | scalarLo | scalarHi | ctrl | werrCnt | sieveCfg | reserved => exact .inl rfl

/-- Settles O54: a read leaves the state itself or a draw from it, and an idle block takes no draw. -/
theorem readsHaveNoSideEffect : Obligations.ReadsHaveNoSideEffect := by
  intro s off
  obtain h | ⟨hb, n, h⟩ := readLocation_leaves (locate off) s
  · rw [h]
    exact ⟨rfl, rfl, fun _ => rfl⟩
  · rw [h]
    refine ⟨rfl, draw_turns _ _ s.env, fun hi => ?_⟩
    rw [busy_of_idle hi] at hb
    cases hb

/-! ### Read-only and reserved offsets -/

/-- The offsets R48 leaves out are reserved. -/
theorem locate_reserved {off : Nat}
    (h : (0x02C ≤ off ∧ off < 0x040) ∨ (0x080 ≤ off ∧ off < 0x1000) ∨ 0x11000 ≤ off) : locate off = .reserved := by
  obtain ⟨hlo, hhi⟩ | ⟨hlo, hhi⟩ | hlo := h
  · interval_cases off <;> rfl
  · rw [locate, if_neg (by omega), if_neg (by omega), if_pos hhi]
  · rw [locate, if_neg (by omega), if_neg (by omega), if_neg (by omega), if_neg (by omega)]

/-- Every offset from 0x040 up to 0x080 stands in some register's VLEN (R48). -/
theorem locate_vlen_of_range {off : Nat} (hlo : 0x040 ≤ off) (hhi : off < 0x080) : ∃ r, locate off = .vlen r :=
  ⟨_, by rw [locate, if_neg (by omega), if_pos hhi]⟩

/-- Settles O55: these offsets locate a register that ignores writes, or nothing. -/
theorem readOnlyAndReservedOffsets : Obligations.ReadOnlyAndReservedOffsets := by
  intro s off v _ _
  refine ⟨fun h => ?_, fun h => ?_, rfl⟩
  · obtain rfl | rfl | rfl | rfl | rfl | ⟨hlo, hhi⟩ := h
    iterate 5 rfl
    obtain ⟨r, hr⟩ := locate_vlen_of_range hlo hhi
    rw [hostWrites, hr, writeLocation]
  · rw [hostWrites, hostReads, locate_reserved h]
    exact ⟨rfl, rfl⟩

/-! ### While BUSY -/

theorem writeWindow_of_busy {s : State} (hb : s.busy = true) (r : Reg) (k : Nat) (v : Word) :
    writeWindow r k v s = setOvr s := by
  rw [writeWindow, if_pos hb]

/-- The state with `a` as the entropy source's only answer (R10). -/
abbrev State.answering (s : State) (a : Nat) : State := { s with env := { s.env with entropy := [a] } }

/-- Unspecified bits take every value they have room for (R51). -/
theorem unspecified_answering (s : State) {n a : Nat} (ha : a < 2 ^ n) : (unspecified n (s.answering a)).1 = a := by
  have hsize : 2 ^ n - 1 + 1 - 0 = 2 ^ n := Nat.sub_add_cancel (Nat.two_pow_pos n)
  rw [unspecified, draw_of_entropy 0 (2 ^ n - 1) a [] (s.answering a).env rfl, hsize, Nat.mod_eq_of_lt ha]
  exact Nat.zero_add a

/-- While BUSY a read of an operand view returns any word, whatever the register holds (R51). -/
theorem readOperandView_of_busy {s : State} (hb : s.busy = true) (v : Nat) (u : Word) :
    (readOperandView v (s.answering u.toNat)).1 = u := by
  have hb' : (s.answering u.toNat).busy = true := hb
  rw [readOperandView, if_pos hb']
  exact ofNat_toNat_of_eq (unspecified_answering s u.isLt)

/-- While BUSY a read of STATUS returns any flag bits beside its defined bits (R51). -/
theorem readStatus_of_busy {s : State} (hb : s.busy = true) {n : Nat} (hn : n < 32) :
    (readStatus (s.answering n)).1 = BitVec.ofNat 32 (statusLow s + n * 2 ^ 8) := by
  have hb' : (s.answering n).busy = true := hb
  rw [readStatus, if_pos hb']
  exact congrArg (fun d => BitVec.ofNat 32 (statusLow s + d * 2 ^ 8)) (unspecified_answering s (n := 5) hn)

/-- Settles O52: while BUSY a window or CMD write is `setOvr`, and a read returns what the entropy source answers. -/
theorem busyBlockHidesAndProtectsOperands : Obligations.BusyBlockHidesAndProtectsOperands := by
  intro s r k u hbusy _ hk
  have hb := busy_of_not_idle hbusy
  have hlow : statusLow s = 1 + s.status.done.toNat * 2 + s.status.err.toNat * 4 + s.status.ovr.toNat * 8 +
      s.status.werr.toNat * 16 := by rw [statusLow, hb]; rfl
  rw [hostWrites, locate_window r hk]
  refine ⟨writeWindow_of_busy hb r k u, writeCmd_of_rejected (.inl hb) u, ⟨u.toNat, ?_⟩, ⟨u.toNat, ?_⟩,
    fun n hn => ⟨n, ?_⟩⟩
  · rw [hostReads, locate_window r hk]
    exact readOperandView_of_busy hb _ u
  · rw [hostReads, locate_vlen]
    exact readOperandView_of_busy hb _ u
  · rw [← hlow]
    exact readStatus_of_busy hb hn

/-! ### Bus accesses inside the block -/

/-- The state with `ops` as the host's accesses still to make (log entry 7). -/
abbrev State.withPending (s : State) (ops : List HostOp) : State := { s with host := { s.host with pending := ops } }

theorem hostStep_read {s : State} {width addr : Nat} {rest : List HostOp}
    (hp : s.host.pending = .read width addr :: rest) :
    hostStep s = onBus width addr (s.withPending rest) (fun l => reply (readLocation l (s.withPending rest))) := by
  rw [hostStep, hp]

theorem hostStep_write {s : State} {width addr : Nat} {v : Word} {rest : List HostOp}
    (hp : s.host.pending = .write width addr v :: rest) :
    hostStep s = onBus width addr (s.withPending rest) (fun l => writeLocation l v (s.withPending rest)) := by
  rw [hostStep, hp]

section
variable {s : State} {width addr : Nat} (act : Location → State)
  (hlo : s.params.BASE ≤ addr) (hhi : addr < s.params.BASE + 2 ^ 17)
include hlo hhi

/-- Inside the block an access that is no aligned word is a bus error (R46). -/
theorem onBus_of_not_word (h : width ≠ 4 ∨ (addr - s.params.BASE) % 4 ≠ 0) :
    onBus width addr s act = .fault .busError := by
  rw [onBus, Config.ADDRW, if_neg (by omega), if_pos h]

/-- Inside the block an aligned word access acts on what stands at its offset (R46). -/
theorem onBus_of_word (hw : width = 4) (ha : (addr - s.params.BASE) % 4 = 0) :
    onBus width addr s act = .next (act (locate (addr - s.params.BASE))) := by
  rw [onBus, Config.ADDRW, if_neg (by omega), if_neg (by omega)]

end

/-- A read's reply goes in front of the host's replies, and nothing else of the host changes (log entry 7). -/
theorem reply_readLocation_host (l : Location) (s : State) : (reply (readLocation l s)).host =
    { s.host with replies := (readLocation l s).1 :: s.host.replies } := by
  obtain ⟨e, he⟩ := readLocation_env l s
  rw [reply, he]

/-- Settles O53: inside the block `onBus` answers an error or acts on the location of the offset. -/
theorem busErrorExactlyOnNonWordAccess : Obligations.BusErrorExactlyOnNonWordAccess := by
  intro s rest width addr v hlo hhi
  refine ⟨fun hp hnot => ?_, fun hp hw ha => ?_, fun hp hw ha => ?_⟩
  · obtain hp | hp := hp
    · rw [hostStep_read hp]
      exact onBus_of_not_word _ hlo hhi hnot
    · rw [hostStep_write hp]
      exact onBus_of_not_word _ hlo hhi hnot
  · exact ⟨_, (hostStep_read hp).trans (onBus_of_word _ hlo hhi hw ha), rfl,
      congrArg HostSide.pending (reply_readLocation_host _ _), congrArg HostSide.replies (reply_readLocation_host _ _)⟩
  · exact ⟨_, (hostStep_write hp).trans (onBus_of_word _ hlo hhi hw ha), rfl,
      congrArg HostSide.pending (writeLocation_host _ _ _)⟩

/-- The bus takes an access of a window word to it (R46, R48). -/
theorem onBus_window (s : State) (r : Reg) {k : Nat} (hk : k < 1024) (act : Location → State) :
    onBus 4 (s.params.BASE + 0x1000 * (r.val + 1) + 4 * k) s act = .next (act (.window r k)) := by
  have hoff : s.params.BASE + 0x1000 * (r.val + 1) + 4 * k - s.params.BASE = 0x1000 * (r.val + 1) + 4 * k := by omega
  rw [onBus_of_word act (by omega) (by omega) rfl (by omega), hoff, locate_window r hk]

/-! ### Runs -/

theorem coreRun_succ_of_step {M : Host.Core} {s t : M.State} (k : Nat) (h : M.step s = .next t) :
    M.run (k + 1) s = M.run k t := by
  rw [Host.Core.run, h]

theorem run_succ_of_step {s t : State} (k : Nat) (h : step s = .next t) : run (k + 1) s = run k t :=
  coreRun_succ_of_step (M := Sys2Proof.core) k h

/-! ### The lists of accesses of LOADV and READV (R75) -/

@[simp] theorem length_loadv (p : Params) (r : Reg) (a : Nat) : (loadv p r a).length = p.windowWords := by simp [loadv]

@[simp] theorem length_readv (p : Params) (r : Reg) : (readv p r).length = p.windowWords := by simp [readv]

section
variable {p : Params} {k : Nat} (hk : k < p.windowWords)
include hk

theorem drop_loadv (r : Reg) (v : Nat) : (loadv p r v).drop k =
    .write 4 (p.BASE + 0x1000 * (r.val + 1) + 4 * k) (BitVec.ofNat 32 (wordOf v k)) :: (loadv p r v).drop (k + 1) := by
  rw [List.drop_eq_getElem_cons (by simpa using hk)]
  simp [loadv]

theorem drop_readv (r : Reg) : (readv p r).drop k =
    .read 4 (p.BASE + 0x1000 * (r.val + 1) + 4 * k) :: (readv p r).drop (k + 1) := by
  rw [List.drop_eq_getElem_cons (by simpa using hk)]
  simp [readv]

end

/-! ### The host alone at an operand window -/

/-- The host alone may step, no turn being named, and register r is as wide as its window, which fits the map of R48. -/
structure HostAlone (s : State) (r : Reg) : Prop where
  idle : s.engine.phase = .idle
  noTurn : s.env.turns = []
  fits : s.params.windowWords ≤ 1024
  width : s.x[r].length = s.params.windowWords

theorem RegsOk.hostAlone {s : State} (hr : RegsOk s) (hi : s.engine.phase = .idle) (ht : s.env.turns = []) (r : Reg) :
    HostAlone s r :=
  ⟨hi, ht, hr.1.windowWords_le, hr.2.1 r⟩

/-- The state once word k of the window of register r holds `u` (R50). -/
def State.setWindowWord (s : State) (r : Reg) (k : Nat) (u : Word) : State :=
  { s with x := s.x.set r (s.x[r].set k u), written := s.written.set r true }

/-- The state once the host has received `w` (log entry 7). -/
def State.replied (s : State) (w : Word) : State :=
  { s with host := { s.host with replies := w :: s.host.replies } }

section
variable {s : State} {r : Reg} (h : HostAlone s r)
include h

theorem HostAlone.step_eq {op : HostOp} {rest : List HostOp} (hp : s.host.pending = op :: rest) :
    step s = hostStep s := by
  have hhost : hostEnabled s = true := (hostEnabled_iff s).2 ⟨op, rest, hp, fun _ => h.idle⟩
  have halone : enabledAgents s = [.host] := by simp [enabledAgents, hhost, engineEnabled, h.idle]
  rw [step_of_alone halone, turnUsed_of_no_turn h.noTurn, agentStep]

variable {k : Nat} {rest : List HostOp} (hk : k < s.params.windowWords)
include hk

/-- The step of a window write (R50). -/
theorem HostAlone.step_write {u : Word}
    (hp : s.host.pending = .write 4 (s.params.BASE + 0x1000 * (r.val + 1) + 4 * k) u :: rest) :
    step s = .next ((s.withPending rest).setWindowWord r k u) := by
  have hb : (s.withPending rest).busy = false := busy_of_idle h.idle
  rw [h.step_eq hp, hostStep_write hp, onBus_window (s.withPending rest) r (Nat.lt_of_lt_of_le hk h.fits),
    writeLocation, writeWindow_of_idle hb r hk]
  rfl

/-- The step of a window read (R50). -/
theorem HostAlone.step_read
    (hp : s.host.pending = .read 4 (s.params.BASE + 0x1000 * (r.val + 1) + 4 * k) :: rest) :
    step s = .next ((s.withPending rest).replied (windowWord s r k)) := by
  have hb : (s.withPending rest).busy = false := busy_of_idle h.idle
  rw [h.step_eq hp, hostStep_read hp, onBus_window (s.withPending rest) r (Nat.lt_of_lt_of_le hk h.fits),
    readLocation, readOperandView_of_idle hb, if_pos hk, ofNat_toNat_of_eq rfl]
  rfl

end

theorem x_setWindowWord (s : State) (r : Reg) (k : Nat) (u : Word) :
    (s.setWindowWord r k u).x[r] = s.x[r].set k u := Vector.getElem_set_self ..

theorem HostAlone.setWindowWord {s : State} {r : Reg} (h : HostAlone s r) (k : Nat) (u : Word) (rest : List HostOp) :
    HostAlone ((s.withPending rest).setWindowWord r k u) r where
  idle := h.idle
  noTurn := h.noTurn
  fits := h.fits
  width := by rw [x_setWindowWord, List.length_set]; exact h.width

theorem HostAlone.replied {s : State} {r : Reg} (h : HostAlone s r) (w : Word) (rest : List HostOp) :
    HostAlone ((s.withPending rest).replied w) r :=
  ⟨h.idle, h.noTurn, h.fits, h.width⟩

/-- The accesses of LOADV from word k on keep the words before it and store those of `a` from it on. -/
theorem HostAlone.run_loadv {s : State} {r : Reg} (h : HostAlone s r) {a k n : Nat} {rest : List HostOp} (m : Nat)
    (hn : k + n = s.params.windowWords) (hp : s.host.pending = (loadv s.params r a).drop k ++ rest) :
    ∃ t, run (n + m) s = run m t ∧ HostAlone t r ∧ t.params = s.params ∧
      t.host = { s.host with pending := rest } ∧
      t.x[r] = s.x[r].take k ++ (wordsOf s.params.windowWords a).drop k := by
  induction n generalizing s k with
  | zero =>
    obtain rfl : k = s.params.windowWords := hn
    rw [List.drop_eq_nil_of_le (length_loadv ..).le, List.nil_append] at hp
    rw [List.take_of_length_le h.width.le, List.drop_eq_nil_of_le (length_wordsOf ..).le, List.append_nil]
    exact ⟨s, congrArg (run · s) (Nat.zero_add m), h, rfl, by rw [← hp], rfl⟩
  | succ n ih =>
    have hk : k < s.params.windowWords := by omega
    rw [drop_loadv hk, List.cons_append] at hp
    obtain ⟨t, hrun, halone, hparams, hhost, hx⟩ :=
      ih (h.setWindowWord k (BitVec.ofNat 32 (wordOf a k)) ((loadv s.params r a).drop (k + 1) ++ rest)) (k := k + 1)
        ((Nat.succ_add_eq_add_succ k n).trans hn) rfl
    refine ⟨t, ?_, halone, hparams, hhost, ?_⟩
    · rw [Nat.add_right_comm, run_succ_of_step _ (h.step_write hk hp), hrun]
    · rw [hx, x_setWindowWord, take_succ_set _ (by rwa [h.width]), drop_wordsOf a hk, List.append_assoc,
        List.singleton_append]
      rfl

/-- The accesses of READV from word k on reply the register's words from it on. -/
theorem HostAlone.run_readv {s : State} {r : Reg} (h : HostAlone s r) {k n : Nat} {rest : List HostOp} (m : Nat)
    (hn : k + n = s.params.windowWords) (hp : s.host.pending = (readv s.params r).drop k ++ rest) :
    run (n + m) s =
      run m { s with host := { pending := rest, replies := (s.x[r].drop k).reverse ++ s.host.replies } } := by
  induction n generalizing s k with
  | zero =>
    obtain rfl : k = s.params.windowWords := hn
    rw [List.drop_eq_nil_of_le (length_readv ..).le, List.nil_append] at hp
    rw [List.drop_eq_nil_of_le h.width.le, ← hp, Nat.zero_add]
    rfl
  | succ n ih =>
    have hk : k < s.params.windowWords := by omega
    have hword : s.x[r].drop k = windowWord s r k :: s.x[r].drop (k + 1) := by
      rw [windowWord, List.getD_eq_getElem _ _ (by rwa [h.width]), ← List.drop_eq_getElem_cons]
    rw [drop_readv hk, List.cons_append] at hp
    rw [Nat.add_right_comm, run_succ_of_step _ (h.step_read hk hp),
      ih (h.replied _ _) (k := k + 1) ((Nat.succ_add_eq_add_succ k n).trans hn) rfl, hword, List.reverse_cons,
      List.append_assoc, List.singleton_append]
    rfl

/-- Settles O50: `run_loadv` from the first word stores every word of the value, and `run_readv` replies them. -/
theorem loadvThenReadvReturnsTheValue : Obligations.LoadvThenReadvReturnsTheValue := by
  intro s r a hr hi ht hreplies ha hp
  have hwords : wordsValue (wordsOf s.params.windowWords a) = a := by
    rw [wordsValue_wordsOf, ← hr.1.capacity_eq_words, Nat.mod_eq_of_lt ha]
  obtain ⟨t, hload, halone, hparams, hhost, hx⟩ :=
    (hr.hostAlone hi ht r).run_loadv (k := 0) s.params.windowWords (Nat.zero_add _) hp
  rw [List.take_zero, List.nil_append, List.drop_zero] at hx
  have hread := halone.run_readv (k := 0) (rest := []) 0 (Nat.zero_add _) (by rw [hhost, hparams]; simp)
  rw [hx, hhost, hreplies, hparams] at hread
  exact ⟨_, by rw [Nat.two_mul, hload]; exact hread, by rw [← hwords, ← hx]; rfl, rfl, by simpa using hwords⟩

end Sys2Proof.Machine
end

section
/-! A word that meets its row's mask is the word of the row's command, and the engine raises what the decoder rejects
(R62, R63, R67 to R73). -/

namespace Sys2Proof

/-! ### The fields of a word that meets its row's mask -/

/-- A field whose bits a mask compares is the field of the value they are compared with. -/
theorem bits_of_masked {c mask m : Word} (hi lo : Nat)
    (hones : mask.extractLsb' lo (hi - lo + 1) = BitVec.allOnes (hi - lo + 1)) (h : c &&& mask = m) :
    bits c hi lo = bits m hi lo := by
  have hext : c.extractLsb' lo (hi - lo + 1) = m.extractLsb' lo (hi - lo + 1) := by
    rw [← h, BitVec.extractLsb'_and, hones, BitVec.and_allOnes]
  simpa [bits, Nat.shiftRight_eq_div_pow] using congrArg BitVec.toNat hext

/-- A row's match has no bit below OP set (R69). -/
theorem bits_matchWord (op : Nat) {hi lo : Nat} (hlo : lo ≤ hi) (hhi : hi < 26) :
    bits (BitVec.ofNat 32 (op * 2 ^ 26)) hi lo = 0 := by
  have hsplit : (2 : Nat) ^ 26 = 2 ^ (25 - hi) * 2 ^ (hi - lo + 1) * 2 ^ lo := by
    rw [← pow_add, ← pow_add]
    congr 1
    omega
  have hmod : op * 2 ^ 26 % 2 ^ 32 = op % 64 * 2 ^ 26 := Nat.mul_mod_mul_right (2 ^ 26) op 64
  rw [bits, BitVec.toNat_ofNat, hmod, hsplit, ← mul_assoc, ← mul_assoc, Nat.mul_div_cancel _ (by positivity),
    Nat.mul_mod_left]

/-- The must-be-zero bits a mask compares are 0 in a word that meets it (R63, R69). -/
theorem bits_eq_zero_of_masked {c mask : Word} {op : Nat} (h : c &&& mask = BitVec.ofNat 32 (op * 2 ^ 26)) (hi lo : Nat)
    (hmask : lo ≤ hi ∧ hi < 26 ∧ mask.extractLsb' lo (hi - lo + 1) = BitVec.allOnes (hi - lo + 1)) :
    bits c hi lo = 0 := by
  obtain ⟨hlo, hhi, hones⟩ := hmask
  rw [bits_of_masked hi lo hones h, bits_matchWord op hlo hhi]

theorem opField_lt (c : Word) : opField c < 64 := Nat.mod_lt _ (by decide)

theorem bits_eq_regField (c : Word) (lo : Nat) : bits c (lo + 3) lo = (regField c lo).val := by
  have hlt : bits c (lo + 3) lo < 16 := (Nat.mod_lt _ (by positivity)).trans_eq (by simp)
  exact (Nat.mod_eq_of_lt hlt).symm

theorem bits_eq_dField (c : Word) : bits c 25 22 = (dField c).val := bits_eq_regField c 22

theorem bits_eq_aField (c : Word) : bits c 21 18 = (aField c).val := bits_eq_regField c 18

theorem bits_eq_bField (c : Word) : bits c 17 14 = (bField c).val := bits_eq_regField c 14

theorem bits_eq_cField (c : Word) : bits c 13 10 = (cField c).val := bits_eq_regField c 10

theorem bits_eq_immField (c : Word) : bits c 13 0 = (immField c).toNat := by
  rw [immField, BitVec.toNat_ofNat]
  exact (Nat.mod_mod _ _).symm

/-! ### A word that meets its row's mask is assembled from its fields, format by format (R63) -/

/-- The fields of R62 are the whole word, C and the bits under it being IMM14. -/
theorem assemble_of_fields {c : Word} {op d a b e imm : Nat} (hop : opField c = op) (hd : bits c 25 22 = d)
    (ha : bits c 21 18 = a) (hb : bits c 17 14 = b) (himm : bits c 13 0 = e * 2 ^ 10 + imm) :
    assemble op d a b e imm = c := by
  have hsum : op * 2 ^ 26 + d * 2 ^ 22 + a * 2 ^ 18 + b * 2 ^ 14 + e * 2 ^ 10 + imm = c.toNat := by
    simp only [opField, bits] at *
    omega
  rw [assemble, hsum, BitVec.ofNat_toNat, BitVec.setWidth_eq]

section
variable {c : Word} {op : Nat} (hop : opField c = op)
include hop

theorem assemble_fields_R3 (h : c &&& maskR3 = BitVec.ofNat 32 (op * 2 ^ 26)) :
    assemble op (dField c) (aField c) (bField c) 0 0 = c :=
  assemble_of_fields hop (bits_eq_dField c) (bits_eq_aField c) (bits_eq_bField c)
    (bits_eq_zero_of_masked h 13 0 (by decide))

theorem assemble_fields_R2 (h : c &&& maskR2 = BitVec.ofNat 32 (op * 2 ^ 26)) :
    assemble op (dField c) (aField c) 0 0 0 = c :=
  assemble_of_fields hop (bits_eq_dField c) (bits_eq_aField c) (bits_eq_zero_of_masked h 17 14 (by decide))
    (bits_eq_zero_of_masked h 13 0 (by decide))

theorem assemble_fields_R1D (h : c &&& maskR1D = BitVec.ofNat 32 (op * 2 ^ 26)) :
    assemble op (dField c) 0 0 0 0 = c :=
  assemble_of_fields hop (bits_eq_dField c) (bits_eq_zero_of_masked h 21 18 (by decide))
    (bits_eq_zero_of_masked h 17 14 (by decide)) (bits_eq_zero_of_masked h 13 0 (by decide))

theorem assemble_fields_C2 (h : c &&& maskC2 = BitVec.ofNat 32 (op * 2 ^ 26)) :
    assemble op 0 (aField c) (bField c) 0 0 = c :=
  assemble_of_fields hop (bits_eq_zero_of_masked h 25 22 (by decide)) (bits_eq_aField c) (bits_eq_bField c)
    (bits_eq_zero_of_masked h 13 0 (by decide))

theorem assemble_fields_C1 (h : c &&& maskC1 = BitVec.ofNat 32 (op * 2 ^ 26)) :
    assemble op 0 (aField c) 0 0 0 = c :=
  assemble_of_fields hop (bits_eq_zero_of_masked h 25 22 (by decide)) (bits_eq_aField c)
    (bits_eq_zero_of_masked h 17 14 (by decide)) (bits_eq_zero_of_masked h 13 0 (by decide))

theorem assemble_fields_I1 (h : c &&& maskI1 = BitVec.ofNat 32 (op * 2 ^ 26)) :
    assemble op (dField c) 0 0 0 (immField c).toNat = c :=
  assemble_of_fields hop (bits_eq_dField c) (bits_eq_zero_of_masked h 21 18 (by decide))
    (bits_eq_zero_of_masked h 17 14 (by decide)) ((bits_eq_immField c).trans (Nat.zero_add _).symm)

theorem assemble_fields_I2 (h : c &&& maskI2 = BitVec.ofNat 32 (op * 2 ^ 26)) :
    assemble op (dField c) (aField c) 0 0 (immField c).toNat = c :=
  assemble_of_fields hop (bits_eq_dField c) (bits_eq_aField c) (bits_eq_zero_of_masked h 17 14 (by decide))
    ((bits_eq_immField c).trans (Nat.zero_add _).symm)

theorem assemble_fields_IC (h : c &&& maskIC = BitVec.ofNat 32 (op * 2 ^ 26)) :
    assemble op 0 (aField c) 0 0 (immField c).toNat = c :=
  assemble_of_fields hop (bits_eq_zero_of_masked h 25 22 (by decide)) (bits_eq_aField c)
    (bits_eq_zero_of_masked h 17 14 (by decide)) ((bits_eq_immField c).trans (Nat.zero_add _).symm)

theorem assemble_fields_R4 (h : c &&& maskR4 = BitVec.ofNat 32 (op * 2 ^ 26)) :
    assemble op (dField c) (aField c) (bField c) (cField c) 0 = c := by
  have himm : bits c 13 0 = (cField c).val * 2 ^ 10 + 0 := by
    have hlow : bits c 9 0 = 0 := bits_eq_zero_of_masked h 9 0 (by decide)
    rw [← bits_eq_cField]
    simp only [bits] at *
    omega
  exact assemble_of_fields hop (bits_eq_dField c) (bits_eq_aField c) (bits_eq_bField c) himm

end

/-- The command a row builds from a word that names it and meets its mask has that word (R67, R69). -/
theorem encode_build : ∀ row ∈ opcodeTable, ∀ c : Word, opField c = row.op → c &&& row.mask = row.matchWord →
    encode (row.build c) = c := by
  simp only [opcodeTable, List.forall_mem_cons]
  exact ⟨
    fun _ => assemble_fields_I1,  -- LDI
    fun _ => assemble_fields_R1D, -- LDS
    fun _ => assemble_fields_R2,  -- MOV
    fun _ => assemble_fields_C2,  -- CMP
    fun _ => assemble_fields_C1,  -- CMPS
    fun _ => assemble_fields_R3,  -- ADD
    fun _ => assemble_fields_R3,  -- SUB
    fun _ => assemble_fields_R2,  -- ADDS
    fun _ => assemble_fields_R2,  -- SUBS
    fun _ => assemble_fields_R3,  -- MUL
    fun _ => assemble_fields_R2,  -- MULS
    fun _ => assemble_fields_I2,  -- SHR
    fun _ => assemble_fields_I2,  -- SHLL
    fun _ => assemble_fields_I2,  -- SHRL
    fun _ => assemble_fields_IC,  -- BTST
    fun _ => assemble_fields_I2,  -- BSET
    fun _ => assemble_fields_R2,  -- MSB
    fun _ => assemble_fields_R3,  -- DIV
    fun _ => assemble_fields_R3,  -- MOD
    fun _ => assemble_fields_R4,  -- DIVREM
    fun _ => assemble_fields_R2,  -- DIVS
    fun _ => assemble_fields_R2,  -- MODS
    fun _ => assemble_fields_C1,  -- MSETUP
    fun _ => assemble_fields_R2,  -- MTOM
    fun _ => assemble_fields_R3,  -- MMUL
    fun _ => assemble_fields_R2,  -- MRED
    fun _ => assemble_fields_R4,  -- MEXP
    fun _ => assemble_fields_C1,  -- SIEVE
    fun _ => assemble_fields_C2,  -- MRROUND
    fun _ => assemble_fields_C1,  -- ISPRIME
    fun _ => assemble_fields_I1,  -- PSEARCH
    List.forall_mem_nil _⟩

/-! ### The decoder's answers (R72) -/

/-- Everything the decoder checks on a word it accepts. -/
theorem decode_eq_ok {c : Word} {i : Instr} (h : decode c = .ok i) : ∃ row ∈ opcodeTable,
    opField c = row.op ∧ c &&& row.mask = row.matchWord ∧ row.build c = i ∧ i.WellFormed = true := by
  unfold decode at h
  split at h
  · cases h
  · rename_i row hrow
    split_ifs at h with hmask hw
    obtain rfl := Except.ok.inj h
    exact ⟨row, List.mem_of_find?_eq_some hrow, (by simpa using List.find?_some hrow : row.op = opField c).symm, hmask,
      rfl, hw⟩

theorem decode_eq_reservedOpcode_iff (c : Word) : decode c = .error .reservedOpcode ↔ rowOf (opField c) = none := by
  unfold decode
  cases rowOf (opField c) with
  | none => simp
  | some row =>
    simp only [reduceCtorEq, iff_false]
    split_ifs <;> simp

theorem decode_eq_reservedField {c : Word} {row : Row} (hrow : rowOf (opField c) = some row)
    (hmask : c &&& row.mask ≠ row.matchWord) : decode c = .error .reservedField := by
  unfold decode
  simp only [hrow, if_neg hmask]

theorem decode_eq_destConflict {c : Word} {row : Row} (hrow : rowOf (opField c) = some row)
    (hmask : c &&& row.mask = row.matchWord) (hw : (row.build c).WellFormed = false) :
    decode c = .error .destConflict := by
  unfold decode
  simp [hrow, hmask, hw]

/-- No two rows of the opcode map share an opcode (R67). -/
theorem rowOf_op : ∀ row ∈ opcodeTable, rowOf row.op = some row := by
  simp [opcodeTable, rowOf]

/-- The opcodes no row has are R67's reserved values. -/
theorem rowOf_eq_none_iff : ∀ op < 64, rowOf op = none ↔
    op ∈ [0x00, 0x06, 0x07, 0x0E, 0x0F, 0x16, 0x17, 0x1D, 0x1E, 0x1F, 0x25, 0x26, 0x27, 0x2B, 0x2C, 0x2D, 0x2E, 0x2F] ∨
      0x31 ≤ op := by
  decide

/-- Settles O1: `decode_encode`, format by format. -/
theorem decodeOfEncodeIsIdentity : Obligations.DecodeOfEncodeIsIdentity := fun _ => decode_encode

/-- Settles O2: a word that decodes meets its row's mask, so it is assembled again from the fields its row reads. -/
theorem decodedWordIsTheCommandsOnlyWord : Obligations.DecodedWordIsTheCommandsOnlyWord := by
  intro c i h
  obtain ⟨row, hmem, hop, hmask, rfl, hw⟩ := decode_eq_ok h
  exact ⟨hw, encode_build row hmem c hop hmask⟩

/-- Settles O4: the decoder evaluated on the eight words. -/
theorem exampleWordsDecodeAsPrinted : Obligations.ExampleWordsDecodeAsPrinted := by
  unfold Obligations.ExampleWordsDecodeAsPrinted
  decide

end Sys2Proof

namespace Sys2Proof.Machine

/-! ### The engine on an illegal word (R68 to R70) -/

/-- On a pending word the decoder rejects, the engine raises the decoder's error (R72). -/
theorem engineStep_of_illegal {s : State} {e : DecodeError} (hp : CommandPending s)
    (hd : decode s.engine.curCmd = .error e) : ∃ t, engineStep s = .next t ∧
      Raised s t (illegalCommand e).cls (illegalCommand e).detail := by
  have hrun : runCommand s = .next (raise (illegalCommand e) s) := by rw [runCommand, hd]
  refine ⟨_, ?_, raise_raised (illegalCommand e) s⟩
  unfold engineStep
  obtain h | ⟨h, hu⟩ := hp
  · rw [h]
    exact hrun
  · rw [h]
    exact (if_pos hu).trans hrun

/-- A DIVREM word that names one register twice as destination is illegal for that alone (R70). -/
theorem decode_divrem_destConflict {c : Word} (hmask : c &&& maskR4 = 0x68000000) (hdc : dField c = cField c) :
    decode c = .error .destConflict := by
  have hop : opField c = 0x1A := bits_of_masked 31 26 (by decide) hmask
  have hrow : rowOf (opField c) = some ⟨0x1A, maskR4, fun c => .divrem (dField c) (cField c) (aField c) (bField c)⟩ := by
    rw [hop]
    rfl
  exact decode_eq_destConflict hrow hmask (by simp [Instr.WellFormed, hdc])

/-- Settles O3: the opcodes without a row are the reserved ones, and each illegal word is raised as the decoder names
it. -/
theorem illegalWordsRaiseIllegalCommand : Obligations.IllegalWordsRaiseIllegalCommand := by
  refine ⟨fun c => ?_, fun s hp => ⟨fun hd => ?_, fun row hmem hop hmask => ?_, fun hmask hdc => ?_⟩⟩
  · rw [decode_eq_reservedOpcode_iff, rowOf_eq_none_iff _ (opField_lt c)]
  · exact engineStep_of_illegal hp hd
  · exact engineStep_of_illegal hp (decode_eq_reservedField (hop ▸ rowOf_op row hmem) hmask)
  · exact engineStep_of_illegal hp (decode_divrem_destConflict hmask hdc)

end Sys2Proof.Machine
end

section
/-! Construction, copy and comparison (R76 to R81): the two commits in the claims' terms, and the order flags. -/

namespace Sys2Proof.Machine

/-- A commit of one value that fits is a completed register write (R11, R41). -/
theorem commitReg_wrote {s : State} (h : s.params.Valid) (d : Reg) {v : Nat} (hv : v < s.params.capacity) :
    Wrote s (commitReg d v s) d v := by
  rw [commitReg_of_fits d hv]
  exact wrote_of_complete h d hv

/-- A commit of flags is a completed flag write, whatever the state (R11, R41). -/
theorem commitFlags_wroteFlags (fl : Flags) (s : State) : WroteFlags s (commitFlags fl s) fl := by
  rw [commitFlags_eq]
  rfl

/-- Of LT, EQ and GT a comparison sets exactly one (R25): naturals are in a total order. -/
theorem count_compare (a b : Nat) (fl : Flags) :
    [(fl.compare a b).lt, (fl.compare a b).eq, (fl.compare a b).gt].count true = 1 := by
  rw [Flags.compare]
  obtain h | h | h := Nat.lt_trichotomy a b
  · simp [h, h.ne, h.le]
  · simp [h]
  · simp [h, h.ne', h.le]

/-- The commit of a comparison's flags writes these flags alone, and leaves exactly one order flag set (R80, R81). -/
theorem commitFlags_compare (a b : Nat) (s : State) :
    WroteFlags s (commitFlags (s.flags.compare a b) s) (s.flags.compare a b) ∧
      [(commitFlags (s.flags.compare a b) s).flags.lt, (commitFlags (s.flags.compare a b) s).flags.eq,
        (commitFlags (s.flags.compare a b) s).flags.gt].count true = 1 := by
  refine ⟨commitFlags_wroteFlags _ s, ?_⟩
  rw [commitFlags_eq]
  exact count_compare a b s.flags

/-- Settles O8: an immediate, the scalar and a register each fit a register, so the commit is the write. -/
theorem loadsAndCopyWriteTheirOperand : Obligations.LoadsAndCopyWriteTheirOperand := by
  intro s d a imm hr
  have ⟨hp, _, hscalar, _⟩ := hr
  exact ⟨⟨_, rfl, commitReg_wrote hp d (hp.imm_lt_capacity imm)⟩,
    ⟨_, rfl, commitReg_wrote hp d (hscalar.trans_le hp.B_le_capacity)⟩,
    ⟨_, rfl, commitReg_wrote hp d (hr.reg_lt a)⟩⟩

/-- Settles O9: both commands commit the flags of a comparison, with a register and with the scalar. -/
theorem comparisonsSetExactlyOneOrderFlag : Obligations.ComparisonsSetExactlyOneOrderFlag := fun s a b =>
  ⟨⟨_, rfl, commitFlags_compare (s.reg a) (s.reg b) s⟩, ⟨_, rfl, commitFlags_compare (s.reg a) s.scalar s⟩⟩

end Sys2Proof.Machine
end

section
/-! Addition and subtraction (R82 to R85): the ends of a commit and of a checked subtraction. -/

namespace Sys2Proof.Machine

/-- A commit of one value that does not fit raises CapacityExceeded, class 5 detail 0 (R11, R126). -/
theorem commitReg_raised {s : State} (d : Reg) {v : Nat} (hv : s.params.capacity ≤ v) :
    Raised s (commitReg d v s) 5 0 := by
  rw [commitReg_of_exceeds d hv]
  exact raise_raised .capacityExceeded s

/-- A subtraction without underflow writes the exact difference: it is at most the minuend, so it fits (R83, R85). -/
theorem subtract_wrote {s : State} (h : s.params.Valid) (d : Reg) {a b : Nat} (hba : b ≤ a)
    (ha : a < s.params.capacity) : Wrote s (subtract d a b s) d (a - b) := by
  rw [subtract, if_neg hba.not_gt]
  exact commitReg_wrote h d ((Nat.sub_le a b).trans_lt ha)

/-- A subtraction that would go below zero raises SUB_UNDERFLOW, class 1 detail 5 (R83, R85, R126). -/
theorem subtract_raised (s : State) (d : Reg) {a b : Nat} (hab : a < b) : Raised s (subtract d a b s) 1 5 := by
  rw [subtract, if_pos hab]
  exact raise_raised .subUnderflow s

/-- Settles O10: ADD and ADDS commit the sum, and a commit writes a value that fits or raises CapacityExceeded. -/
theorem additionIsExactOrExceedsCapacity : Obligations.AdditionIsExactOrExceedsCapacity := fun _ d _ _ hp =>
  ⟨fun hfits => ⟨_, rfl, commitReg_wrote hp d hfits⟩, fun hexceeds => ⟨_, rfl, commitReg_raised d hexceeds⟩,
    fun hfits => ⟨_, rfl, commitReg_wrote hp d hfits⟩, fun hexceeds => ⟨_, rfl, commitReg_raised d hexceeds⟩⟩

/-- Settles O11: SUB and SUBS subtract from a register, which is below the capacity, a register and the scalar. -/
theorem subtractionIsExactOrUnderflows : Obligations.SubtractionIsExactOrUnderflows := by
  intro s d a b hr
  have wrote {n : Nat} (hle : n ≤ s.reg a) : Wrote s (subtract d (s.reg a) n s) d (s.reg a - n) :=
    subtract_wrote hr.1 d hle (hr.reg_lt a)
  exact ⟨fun h => ⟨_, _, rfl, Nat.sub_add_cancel h, wrote h⟩, fun hlt => ⟨_, rfl, subtract_raised s d hlt⟩,
    fun h => ⟨_, _, rfl, Nat.sub_add_cancel h, wrote h⟩, fun hlt => ⟨_, rfl, subtract_raised s d hlt⟩⟩

end Sys2Proof.Machine
end

section
/-! Multiplication, shifts and bit access (R86 to R93): the radix powers a length bounds, the sum that sets a bit, and the
bit length. -/

namespace Sys2Proof.Machine

/-! ### Lengths in limbs -/

/-- A non-zero value reaches the radix power below its length (R9). -/
theorem pow_len_pred_le {p : Params} {x : Nat} (hx : x ≠ 0) : p.B ^ (len p x - 1) ≤ x := by
  have hpos : 0 < len p x := by
    rw [len, if_neg hx]
    exact Nat.succ_pos _
  exact Nat.le_of_not_lt fun h => (len_le p x _ h).not_gt (Nat.sub_one_lt_of_lt hpos)

/-- The radix powers below two factors bound their product (R86, R89). -/
theorem pow_le_mul_of_pow_le {p : Params} {x y m n L : Nat} (hx : p.B ^ m ≤ x) (hy : p.B ^ n ≤ y) (hL : L ≤ m + n) :
    p.B ^ L ≤ x * y :=
  calc p.B ^ L ≤ p.B ^ (m + n) := Nat.pow_le_pow_right p.B_pos hL
    _ = p.B ^ m * p.B ^ n := Nat.pow_add ..
    _ ≤ x * y := Nat.mul_le_mul hx hy

/-- Two factors whose lengths add to more than CAP + 1 have a product beyond the capacity (R86). -/
theorem capacity_le_mul {p : Params} {x y : Nat} (hx : x ≠ 0) (hy : y ≠ 0) (h : p.CAP + 1 < len p x + len p y) :
    p.capacity ≤ x * y :=
  pow_le_mul_of_pow_le (pow_len_pred_le hx) (pow_len_pred_le hy) (by omega)

/-- A value moved up by k limbs fits where its length and k add to no more than CAP (R89). -/
theorem mul_pow_lt_capacity {p : Params} (hW : 0 < p.W) {x k : Nat} (h : x = 0 ∨ len p x + k ≤ p.CAP) :
    x * p.B ^ k < p.capacity := by
  obtain rfl | hlen := h
  · rw [Nat.zero_mul]
    exact p.capacity_pos
  · calc x * p.B ^ k < p.B ^ len p x * p.B ^ k := Nat.mul_lt_mul_of_pos_right (lt_pow_len p hW x) (Nat.pow_pos p.B_pos)
      _ = p.B ^ (len p x + k) := (Nat.pow_add ..).symm
      _ ≤ p.capacity := Nat.pow_le_pow_right p.B_pos hlen

/-- A non-zero value moved up by k limbs does not fit where its length and k add to more than CAP (R89). -/
theorem capacity_le_mul_pow {p : Params} {x k : Nat} (hx : x ≠ 0) (h : p.CAP < len p x + k) :
    p.capacity ≤ x * p.B ^ k :=
  pow_le_mul_of_pow_le (pow_len_pred_le hx) le_rfl (by omega)

/-! ### Bits -/

/-- R9's bit is the library's. -/
theorem decide_bit_eq_one (x i : Nat) : decide (bit x i = 1) = x.testBit i := Nat.testBit_eq_decide_div_mod_eq.symm

/-- Adding a power of two whose bit is 0 leaves the bits above it as they are. -/
theorem testBit_two_pow_add_of_lt {x i j : Nat} (hx : x.testBit i = false) (hij : i < j) :
    (2 ^ i + x).testBit j = x.testBit j := by
  have heven : x / 2 ^ i % 2 = 0 := by rw [← Nat.toNat_testBit, hx, Bool.toNat_false]
  have hdiv : (2 ^ i + x) / 2 ^ (i + 1) = x / 2 ^ (i + 1) := by
    rw [Nat.pow_succ, ← Nat.div_div_eq_div_mul, ← Nat.div_div_eq_div_mul, Nat.add_div_left _ (Nat.two_pow_pos i)]
    omega
  obtain ⟨n, rfl⟩ := Nat.exists_eq_add_of_lt hij
  rw [show i + n + 1 = n + (i + 1) by omega, Nat.testBit_add, hdiv, ← Nat.testBit_add]

/-- R92's sum sets the bit: nothing is carried, as the power of two is added only where its bit is 0. -/
theorem setBit_eq_or (a b : Nat) : setBit a b = a ||| 2 ^ b := by
  refine Nat.eq_of_testBit_eq fun j => ?_
  rw [Nat.testBit_or, Nat.testBit_two_pow, setBit, bit, ← Nat.toNat_testBit]
  cases hbit : a.testBit b with
  | true =>
    by_cases hj : b = j
    · simp [← hj, hbit]
    · simp [hj]
  | false =>
    rw [Bool.toNat_false, Nat.sub_zero, Nat.one_mul, Nat.add_comm]
    obtain hj | rfl | hj := Nat.lt_trichotomy j b
    · simp [Nat.testBit_two_pow_add_gt hj, hj.ne']
    · simp [Nat.testBit_two_pow_add_eq, hbit]
    · simp [testBit_two_pow_add_of_lt hbit hj, hj.ne]

/-- `msb(x)` is the least number of bits that holds x (R9). -/
theorem msb_le {p : Params} (hW : 0 < p.W) {x c : Nat} (h : x < 2 ^ c) : msb p x ≤ c := by
  obtain rfl | hx := eq_or_ne x 0
  · exact Nat.zero_le c
  · rw [msb_eq_log2_succ hW hx]
    exact (Nat.log2_lt hx).2 h

/-! ### The commands -/

/-- Settles O12: both commands commit the product, and lengths beyond CAP + 1 put it beyond the capacity. -/
theorem multiplicationIsExactOrExceedsCapacity : Obligations.MultiplicationIsExactOrExceedsCapacity := fun _ d _ _ hp =>
  ⟨fun hfits => ⟨_, rfl, commitReg_wrote hp d hfits⟩, fun hexceeds => ⟨_, rfl, commitReg_raised d hexceeds⟩,
    fun hfits => ⟨_, rfl, commitReg_wrote hp d hfits⟩, fun hexceeds => ⟨_, rfl, commitReg_raised d hexceeds⟩,
    fun ha hb hlen => ⟨_, rfl, commitReg_raised d (capacity_le_mul ha hb hlen)⟩⟩

/-- Settles O13: up to the limb width the quotient, at most the source, is committed. -/
theorem shiftRightUpToOneLimbWidth : Obligations.ShiftRightUpToOneLimbWidth := by
  intro s d a imm hr
  refine ⟨fun hk => ⟨_, rfl, ?_⟩, fun hk => ⟨_, rfl, ?_⟩⟩
  · rw [immValue, if_neg hk.not_gt]
    exact commitReg_wrote hr.1 d ((Nat.div_le_self ..).trans_lt (hr.reg_lt a))
  · rw [immValue, if_pos hk]
    exact raise_raised .shiftTooLarge s

/-- Settles O14: the lengths decide whether SHLL's product fits, and SHRL's quotient is at most the source. -/
theorem limbShiftsMoveWholeLimbs : Obligations.LimbShiftsMoveWholeLimbs := fun _ d a _ hr =>
  ⟨fun hfits => ⟨_, rfl, commitReg_wrote hr.1 d (mul_pow_lt_capacity hr.1.W_pos hfits)⟩,
    fun ⟨ha, hlen⟩ => ⟨_, rfl, commitReg_raised d (capacity_le_mul_pow ha hlen)⟩,
    ⟨_, rfl, commitReg_wrote hr.1 d ((Nat.div_le_self ..).trans_lt (hr.reg_lt a))⟩⟩

/-- The bit test writes T alone, from the indexed bit (R91). -/
theorem exec_btst (a : Reg) (imm : Imm14) (s : State) :
    exec (.btst a imm) s = .next (commitFlags { s.flags with t := (s.reg a).testBit imm.toNat } s) := by
  rw [← decide_bit_eq_one]
  rfl

/-- Settles O15: the commit of T; the value is below 2^msb, so no bit at or above it is set. -/
theorem bitTestReadsTheIndexedBit : Obligations.BitTestReadsTheIndexedBit := by
  intro s a imm
  refine ⟨⟨_, exec_btst a imm s, commitFlags_wroteFlags _ s⟩, fun hp hle => ⟨_, exec_btst a imm s, ?_⟩⟩
  rw [commitFlags_eq]
  have hlt : s.reg a < 2 ^ imm.toNat := (lt_two_pow_msb hp.W_pos _).trans_le (Nat.pow_le_pow_right (by decide) hle)
  exact Nat.testBit_eq_false_of_lt hlt

/-- BSET commits the source with the bit set (R92). -/
theorem exec_bset (d a : Reg) (imm : Imm14) (s : State) :
    exec (.bset d a imm) s = .next (commitReg d (s.reg a ||| 2 ^ imm.toNat) s) := by
  rw [← setBit_eq_or]
  rfl

/-- Settles O16: with the bit set, a register stays below 2^(CAP·W) exactly where the bit's index is. -/
theorem bitSetSetsOneBitOrExceedsCapacity : Obligations.BitSetSetsOneBitOrExceedsCapacity := by
  intro s d a imm hr
  have hcap : s.params.capacity = 2 ^ (s.params.CAP * s.params.W) := by rw [Params.capacity_eq, Nat.mul_comm]
  refine ⟨fun hb => ⟨_, _, exec_bset d a imm s, commitReg_wrote hr.1 d ?_, fun j => ?_⟩,
    fun hb => ⟨_, exec_bset d a imm s, commitReg_raised d ?_⟩⟩
  · rw [hcap]
    exact Nat.or_lt_two_pow (hcap ▸ hr.reg_lt a) (Nat.pow_lt_pow_right (by decide) hb)
  · simp [Nat.testBit_two_pow, Bool.or_comm, eq_comm]
  · rw [hcap]
    exact (Nat.pow_le_pow_right (by decide) hb).trans Nat.right_le_or

/-- Settles O17: a register is below 2^(W·CAP), so its `msb`, the least such exponent, is at most W·CAP, which fits. -/
theorem msbWritesTheBitLength : Obligations.MsbWritesTheBitLength := by
  intro s d a hr
  have hW := hr.1.W_pos
  have hfits : msb s.params (s.reg a) < s.params.capacity := by
    rw [Params.capacity_eq]
    exact (msb_le hW (Params.capacity_eq _ ▸ hr.reg_lt a)).trans_lt Nat.lt_two_pow_self
  exact ⟨_, _, rfl, commitReg_wrote hr.1 d hfits, lt_two_pow_msb hW _, fun _ => msb_le hW⟩

end Sys2Proof.Machine
end

section
/-! Division (R94 to R101): the commands, and the engine's two algorithms, whose result is the quotient and remainder. -/

namespace Sys2Proof.Machine

/-! ### The commands -/

section
variable {s : State} {n : Nat}

/-- With a zero divisor a division command raises DIV_BY_ZERO, class 1 detail 1 (R97 to R101, R126). -/
theorem division_raised (hn : n = 0) (t : State) : Raised s (if n = 0 then raise .divByZero s else t) 1 1 := by
  rw [if_pos hn]
  exact raise_raised .divByZero s

/-- With a non-zero divisor a quotient or remainder is written: neither exceeds the dividend, so it fits (R97 to R101). -/
theorem division_wrote (hr : RegsOk s) (d a : Reg) {v : Nat} (hn : n ≠ 0) (hv : v ≤ s.reg a) :
    Wrote s (if n = 0 then raise .divByZero s else commitReg d v s) d v := by
  rw [if_neg hn]
  exact commitReg_wrote hr.1 d (hv.trans_lt (hr.reg_lt a))

end

/-- A commit of two values that fit, to two registers, writes both and nothing else (R11, R99). -/
theorem commit_pair_wrote {s : State} (hp : s.params.Valid) {d e : Reg} (hde : d ≠ e) {q r : Nat}
    (hq : q < s.params.capacity) (hr : r < s.params.capacity) :
    ∃ t, commit [(d, q), (e, r)] s.flags s = t ∧ t.reg d = q ∧ t.reg e = r ∧
      t.written[d] = true ∧ t.written[e] = true ∧
      (∀ v : Reg, v ≠ d → v ≠ e → t.x[v] = s.x[v] ∧ t.written[v] = s.written[v]) ∧
      t = { s.ended with x := t.x, written := t.written } := by
  have hfits : ∀ w ∈ [(d, q), (e, r)], w.2 < s.params.capacity := by simp [hq, hr]
  refine ⟨_, commit_of_fits s.flags hfits, (reg_setReg_of_ne r hde).trans (reg_setReg_self hp d hq),
    reg_setReg_self (s := s.setReg d q) hp e hr,
    (written_setReg_of_ne (s := s.setReg d q) r hde).trans (written_setReg_self s d q),
    written_setReg_self (s.setReg d q) e r, fun v hvd hve => ?_, rfl⟩
  exact setRegs_frame s _ v (by simp [hvd.symm, hve.symm])

/-- Settles O18: quotient and remainder are at most the dividend, so every commit fits; the checks stand before it. -/
theorem divisionWritesQuotientAndRemainder : Obligations.DivisionWritesQuotientAndRemainder := by
  intro s d e a b hr
  refine ⟨fun hb => ?_, fun hb => ?_, _, rfl, ?_⟩
  · have hq : s.reg a / s.reg b ≤ s.reg a := Nat.div_le_self ..
    have hrem : s.reg a % s.reg b ≤ s.reg a := Nat.mod_le ..
    refine ⟨s.reg a / s.reg b, s.reg a % s.reg b, (Nat.div_add_mod' ..).symm, Nat.mod_lt _ (Nat.pos_of_ne_zero hb),
      ⟨_, rfl, division_wrote hr d a hb hq⟩, ⟨_, rfl, division_wrote hr d a hb hrem⟩, fun hde => ?_⟩
    obtain ⟨t, ht, hwrote⟩ := commit_pair_wrote hr.1 hde (hq.trans_lt (hr.reg_lt a)) (hrem.trans_lt (hr.reg_lt a))
    refine ⟨t, congrArg Host.Outcome.next ?_, hwrote⟩
    rw [if_neg hde, if_neg hb]
    exact ht
  · refine ⟨⟨_, rfl, division_raised hb _⟩, ⟨_, rfl, division_raised hb _⟩, fun hde => ⟨_, rfl, ?_⟩⟩
    rw [if_neg hde]
    exact division_raised hb _
  · rw [if_pos rfl]
    exact raise_raised .destConflict s

/-- Settles O19: the quotient and the remainder by SCALAR are at most the dividend. -/
theorem scalarDivisionWritesQuotientOrRemainder : Obligations.ScalarDivisionWritesQuotientOrRemainder := by
  intro s d a hr
  refine ⟨fun hs => ⟨s.reg a / s.scalar, s.reg a % s.scalar, (Nat.div_add_mod' ..).symm,
      Nat.mod_lt _ (Nat.pos_of_ne_zero hs), ⟨_, rfl, division_wrote hr d a hs (Nat.div_le_self ..)⟩,
      ⟨_, rfl, division_wrote hr d a hs (Nat.mod_le ..)⟩⟩,
    fun hs => ⟨⟨_, rfl, division_raised hs _⟩, ⟨_, rfl, division_raised hs _⟩⟩⟩

/-! ### The single-limb walk (R96) -/

/-- The walk over the i low limbs divides them, with the running remainder above them. -/
theorem shortDivide_eq (p : Params) (a : Nat) {d r : Nat} (hr : r < d) (i q : Nat) : shortDivide p a d i q r =
    (q * p.B ^ i + (r * p.B ^ i + a % p.B ^ i) / d, (r * p.B ^ i + a % p.B ^ i) % d) := by
  induction i generalizing q r with
  | zero => simp [shortDivide, Nat.mod_one, Nat.div_eq_of_lt hr, Nat.mod_eq_of_lt hr]
  | succ i ih =>
    have hd : 0 < d := by omega
    have hstep : r * p.B ^ (i + 1) + a % p.B ^ (i + 1) = ((r * p.B + limb p a i) % d * p.B ^ i + a % p.B ^ i) +
        d * ((r * p.B + limb p a i) / d * p.B ^ i) := by
      have hsplit := Nat.div_add_mod (r * p.B + limb p a i) d
      rw [pow_succ, Nat.mod_mul, ← limb]
      linear_combination p.B ^ i * hsplit.symm
    rw [shortDivide, ih (Nat.mod_lt _ hd), hstep, Nat.add_mul_div_left _ _ hd, Nat.add_mul_mod_self_left]
    congr 1
    ring

/-! ### Algorithm D: the correction loop (R95) -/

/-- The correction loop finds the quotient and remainder of the slice where it may take the quotient's many steps. -/
theorem knuthCorrect_eq {dn left qh slice : Nat} (hdn : 0 < dn) (hleft : slice / dn ≤ left) :
    knuthCorrect dn left qh slice = .ok (qh + slice / dn, slice % dn) := by
  induction left generalizing qh slice with
  | zero =>
    have hlt : slice < dn := (Nat.div_eq_zero_iff_lt hdn).1 (Nat.le_zero.1 hleft)
    rw [knuthCorrect, if_neg hlt.not_ge, Nat.div_eq_of_lt hlt, Nat.mod_eq_of_lt hlt, Nat.add_zero]
  | succ left ih =>
    rw [knuthCorrect]
    split
    · rename_i hle
      have hdiv : slice / dn = (slice - dn) / dn + 1 := Nat.div_eq_sub_div hdn hle
      rw [ih (by omega), ← Nat.mod_eq_sub_mod hle, hdiv, Nat.add_assoc, Nat.add_comm 1]
    · rename_i hlt
      rw [Nat.div_eq_of_lt (Nat.lt_of_not_le hlt), Nat.mod_eq_of_lt (Nat.lt_of_not_le hlt), Nat.add_zero]

/-- Knuth's Theorem B, without the cap at B - 1: where the divisor's leading part is at least half the radix, the quotient
of the leading parts exceeds the true digit by at most 2, and never falls short of it. -/
theorem leading_quotient_bounds {b c w dn : Nat} (hc : 0 < c) (hw : w < dn * b) (hhalf : b ≤ 2 * (dn / c)) :
    w / dn ≤ w / c / (dn / c) ∧ w / c / (dn / c) ≤ w / dn + 2 := by
  have hdn : 0 < dn := Nat.pos_of_ne_zero fun h => by simp [h] at hw
  have hq : w / dn < b := Nat.div_lt_of_lt_mul hw
  have hb : 0 < b := Nat.zero_lt_of_lt hq
  have htop : 0 < dn / c := by linarith
  constructor
  · rw [Nat.le_div_iff_mul_le htop, Nat.le_div_iff_mul_le hc]
    calc w / dn * (dn / c) * c = w / dn * (dn / c * c) := Nat.mul_assoc ..
      _ ≤ w / dn * dn := Nat.mul_le_mul_left _ (Nat.div_mul_le_self ..)
      _ ≤ w := Nat.div_mul_le_self ..
  · rw [← Nat.lt_succ_iff, Nat.div_lt_iff_lt_mul htop, Nat.div_lt_iff_lt_mul hc]
    calc w < (w / dn + 1) * dn := Nat.lt_mul_of_div_lt (Nat.lt_succ_self _) hdn
      _ ≤ (w / dn + 1) * ((dn / c + 1) * c) := Nat.mul_le_mul_left _ (Nat.lt_mul_of_div_lt (Nat.lt_succ_self _) hc).le
      _ ≤ (w / dn + 3) * (dn / c) * c := by
        rw [← Nat.mul_assoc]
        refine Nat.mul_le_mul_right _ ?_
        linarith

/-! ### Algorithm D: the digit loop (R95) -/

/-- A normalised divisor of m limbs: its top limb is at least half the radix (R95, step 2). -/
structure Normalised (p : Params) (dn m : Nat) : Prop where
  m_pos : 0 < m
  lt : dn < p.B ^ m
  half : p.B ≤ 2 * (dn / p.B ^ (m - 1))

/-- The top limb of a value is all that lies above its other limbs. -/
theorem limb_top {p : Params} {x m : Nat} (hm : 0 < m) (hx : x < p.B ^ m) : limb p x (m - 1) = x / p.B ^ (m - 1) := by
  have hpow : p.B ^ m = p.B ^ (m - 1) * p.B := by rw [← pow_succ, Nat.sub_add_cancel hm]
  exact Nat.mod_eq_of_lt (Nat.div_lt_of_lt_mul (hpow ▸ hx))

/-- The two top limbs of a window are all that lies above its other limbs. -/
theorem limb_top_two {p : Params} {x m : Nat} (hm : 0 < m) (hx : x < p.B ^ (m + 1)) :
    limb p x m * p.B + limb p x (m - 1) = x / p.B ^ (m - 1) := by
  have hhigh : limb p x m = x / p.B ^ (m - 1) / p.B := by
    rw [Nat.div_div_eq_div_mul, ← pow_succ, Nat.sub_add_cancel hm]
    exact limb_top (Nat.succ_pos m) hx
  rw [hhigh]
  exact Nat.div_add_mod' ..

section
variable {p : Params} {dn m : Nat} (h : Normalised p dn m)
include h

theorem Normalised.pos : 0 < dn := Nat.pos_of_ne_zero fun h0 => by
  have := h.half
  simp [h0, p.B_pos.ne'] at this

/-- A window whose quotient is one digit has m + 1 limbs. -/
theorem Normalised.window_lt {w : Nat} (hw : w < dn * p.B) : w < p.B ^ (m + 1) := by
  rw [pow_succ]
  exact hw.trans (Nat.mul_lt_mul_of_pos_right h.lt p.B_pos)

/-- The estimate of R95 and its corrections give the window's quotient and remainder: Knuth's Theorem B leaves at most
two corrections of the three the check allows (R96). -/
theorem Normalised.knuthCorrect_estimate {w : Nat} (hw : w < dn * p.B) :
    knuthCorrect dn 3 ((limb p w m * p.B + limb p w (m - 1)) / limb p dn (m - 1) - 2)
      (w - dn * ((limb p w m * p.B + limb p w (m - 1)) / limb p dn (m - 1) - 2)) = .ok (w / dn, w % dn) := by
  rw [limb_top_two h.m_pos (h.window_lt hw), limb_top h.m_pos h.lt]
  obtain ⟨hlow, hhigh⟩ := leading_quotient_bounds (Nat.pow_pos p.B_pos) hw h.half
  generalize w / p.B ^ (m - 1) / (dn / p.B ^ (m - 1)) = estimate at hlow hhigh
  obtain ⟨k, hk⟩ : ∃ k, w / dn = estimate - 2 + k := Nat.exists_eq_add_of_le (Nat.sub_le_of_le_add hhigh)
  have hslice : w - dn * (estimate - 2) = w % dn + dn * k := by
    have := Nat.div_add_mod w dn
    rw [hk, Nat.mul_add] at this
    omega
  have hdiv : (w % dn + dn * k) / dn = k := by
    rw [Nat.add_mul_div_left _ _ h.pos, Nat.mod_div_self, Nat.zero_add]
  rw [hslice, knuthCorrect_eq h.pos (by omega), hdiv, hk, Nat.add_mul_mod_self_left, Nat.mod_mod]

/-- The digit loop adds the quotient of the dividend that is left, below `dn·B^i` at digit i, and never fails its check. -/
theorem Normalised.knuthDigits_eq {i u : Nat} (hu : u < dn * p.B ^ i) (q : Nat) :
    knuthDigits p dn m i u q = .ok (q + u / dn) := by
  induction i generalizing u q with
  | zero => rw [knuthDigits, Nat.div_eq_of_lt (by simpa using hu), Nat.add_zero]
  | succ i ih =>
    have hBi : 0 < p.B ^ i := Nat.pow_pos p.B_pos
    have hw : u / p.B ^ i < dn * p.B := by
      rw [Nat.div_lt_iff_lt_mul hBi, Nat.mul_assoc, ← pow_succ']
      exact hu
    have hwindow : u / p.B ^ i % p.B ^ (m + 1) = u / p.B ^ i := Nat.mod_eq_of_lt (h.window_lt hw)
    have hrest : u - u / p.B ^ i * p.B ^ i = u % p.B ^ i := Nat.mod_eq_sub_div_mul.symm
    have hnext : u % p.B ^ i + u / p.B ^ i % dn * p.B ^ i < dn * p.B ^ i := by
      have hlow := Nat.mod_lt u hBi
      have hslice : u / p.B ^ i % dn + 1 ≤ dn := Nat.mod_lt _ h.pos
      have := Nat.mul_le_mul_right (p.B ^ i) hslice
      linarith
    have hquot : u / dn = u / p.B ^ i / dn * p.B ^ i + (u % p.B ^ i + u / p.B ^ i % dn * p.B ^ i) / dn := by
      have hsplit : u = u % p.B ^ i + u / p.B ^ i % dn * p.B ^ i + dn * (u / p.B ^ i / dn * p.B ^ i) := by
        have hdigit := Nat.div_add_mod (u / p.B ^ i) dn
        have hlow := Nat.div_add_mod u (p.B ^ i)
        linear_combination hlow.symm + p.B ^ i * hdigit.symm
      conv_lhs => rw [hsplit]
      rw [Nat.add_mul_div_left _ _ h.pos, Nat.add_comm]
    rw [knuthDigits]
    simp only [hwindow, h.knuthCorrect_estimate hw, hrest]
    rw [ih hnext, hquot, Nat.add_assoc]

end

/-! ### Algorithm D: the normalisation (R95) -/

/-- Knuth's factor brings a top limb to at least half an even radix and leaves it below the radix. -/
theorem half_le_normalised {b t : Nat} (hb : b % 2 = 0) (ht : 0 < t) (htb : t < b) : b ≤ 2 * (t * (b / (t + 1))) := by
  by_cases hlarge : b ≤ 2 * t
  · have hone : 1 ≤ b / (t + 1) := (Nat.one_le_div_iff (Nat.succ_pos t)).2 htb
    nlinarith
  · have hfactor : b < (t + 1) * (b / (t + 1) + 1) := Nat.lt_mul_div_succ b (Nat.succ_pos t)
    have hlt : b < 2 * (t * (b / (t + 1))) + 2 := by nlinarith
    omega

theorem B_even {p : Params} (hp : p.Valid) : p.B % 2 = 0 := by
  rw [Params.B, ← Nat.sub_add_cancel hp.W_pos, pow_succ]
  exact Nat.mul_mod_left ..

theorem len_pos {p : Params} {x : Nat} (hx : x ≠ 0) : 0 < len p x := by
  rw [len, if_neg hx]
  exact Nat.succ_pos _

/-- A value in two radix powers next to each other has the length of the upper one (R9). -/
theorem len_eq_of_pow_bounds {p : Params} (hW : 0 < p.W) {x m : Nat} (hm : 0 < m) (hlow : p.B ^ (m - 1) ≤ x) (hx : x < p.B ^ m) :
    len p x = m := by
  refine Nat.le_antisymm (len_le p x m hx) ?_
  have := (Nat.pow_lt_pow_iff_right (Nat.one_lt_two_pow hW.ne')).1 (hlow.trans_lt (lt_pow_len p hW x))
  omega

/-- R95's factor normalises the divisor and keeps its length. -/
theorem normalised_mul_factor {p : Params} (hp : p.Valid) {d : Nat} (hd : d ≠ 0) :
    Normalised p (d * (p.B / (limb p d (len p d - 1) + 1))) (len p d) := by
  have hm := len_pos (p := p) hd
  have hlt := lt_pow_len p hp.W_pos d
  have hpow : 0 < p.B ^ (len p d - 1) := Nat.pow_pos p.B_pos
  have hB : p.B ^ len p d = p.B ^ (len p d - 1) * p.B := by rw [← pow_succ, Nat.sub_add_cancel hm]
  rw [limb_top hm hlt]
  have ht : 0 < d / p.B ^ (len p d - 1) := Nat.div_pos (pow_len_pred_le hd) hpow
  have htB : d / p.B ^ (len p d - 1) < p.B := Nat.div_lt_of_lt_mul (hB ▸ hlt)
  refine ⟨hm, ?_, (half_le_normalised (B_even hp) ht htB).trans (Nat.mul_le_mul_left 2 ?_)⟩
  · have hfactor : 0 < p.B / (d / p.B ^ (len p d - 1) + 1) := Nat.div_pos htB (Nat.succ_pos _)
    calc d * (p.B / (d / p.B ^ (len p d - 1) + 1))
        < p.B ^ (len p d - 1) * (d / p.B ^ (len p d - 1) + 1) * (p.B / (d / p.B ^ (len p d - 1) + 1)) :=
          Nat.mul_lt_mul_of_pos_right (Nat.lt_mul_div_succ d hpow) hfactor
      _ ≤ p.B ^ (len p d - 1) * p.B := by
        rw [Nat.mul_assoc]
        exact Nat.mul_le_mul_left _ (Nat.mul_div_le ..)
      _ = p.B ^ len p d := hB.symm
  · rw [Nat.le_div_iff_mul_le hpow, Nat.mul_right_comm]
    exact Nat.mul_le_mul_right _ (Nat.div_mul_le_self ..)

theorem Normalised.len_eq {p : Params} (hW : 0 < p.W) {dn m : Nat} (h : Normalised p dn m) : len p dn = m := by
  have hpow : 0 < p.B ^ (m - 1) := Nat.pow_pos p.B_pos
  have htop : 1 ≤ dn / p.B ^ (m - 1) := by
    have := h.half
    have := p.B_pos
    omega
  refine len_eq_of_pow_bounds hW h.m_pos ?_ h.lt
  simpa using (Nat.le_div_iff_mul_le hpow).1 htop

/-- A dividend is below the divisor at the loop's start: n - m + 1 digits hold its quotient (C2). -/
theorem Normalised.lt_mul_pow {p : Params} (hW : 0 < p.W) {dn m : Nat} (h : Normalised p dn m) (u : Nat) :
    u < dn * p.B ^ (len p u - m + 1) := by
  have hlow : p.B ^ (m - 1) ≤ dn := by
    rw [← h.len_eq hW]
    exact pow_len_pred_le h.pos.ne'
  calc u < p.B ^ len p u := lt_pow_len p hW u
    _ ≤ p.B ^ (m - 1 + (len p u - m + 1)) := Nat.pow_le_pow_right p.B_pos (by have := h.m_pos; omega)
    _ = p.B ^ (m - 1) * p.B ^ (len p u - m + 1) := Nat.pow_add ..
    _ ≤ dn * p.B ^ (len p u - m + 1) := Nat.mul_le_mul_right _ hlow

/-- Algorithm D gives the quotient and remainder for every non-zero divisor; its check never fails (R95, R96). -/
theorem knuth_eq {p : Params} (hp : p.Valid) (a : Nat) {d : Nat} (hd : d ≠ 0) : knuth p a d = .ok (a / d, a % d) := by
  rw [knuth]
  split
  · rename_i hlt
    rw [Nat.div_eq_of_lt hlt, Nat.mod_eq_of_lt hlt]
  · have h := normalised_mul_factor hp hd
    simp only [h.len_eq hp.W_pos, h.knuthDigits_eq (h.lt_mul_pow hp.W_pos _)]
    rw [Nat.zero_add, Nat.mul_div_mul_right _ _ (Nat.pos_of_mul_pos_left h.pos), ← Nat.mod_eq_sub_div_mul]

/-- Settles O20: both walks keep a quotient of the part still to divide; the dividend's own length bounds it. -/
theorem divisionEngineAlgorithmsComputeDivmod : Obligations.DivisionEngineAlgorithmsComputeDivmod := by
  intro p a d hp
  refine ⟨fun hlen => knuth_eq hp a ?_, fun hd _ => ?_⟩
  · rintro rfl
    simp [len] at hlen
  · rw [shortDivide_eq p a hd, Nat.zero_mul, Nat.zero_add, Nat.zero_add,
      Nat.mod_eq_of_lt (lt_pow_len p hp.W_pos a)]

end Sys2Proof.Machine
end

section
/-! The Montgomery commands (R102 to R108): what a valid context gives the product, and the checks in front of the
commits. -/

namespace Sys2Proof.Machine

/-! ### The context and the product -/

section
variable {s : State} (h : MctxOk s) (hvalid : s.mctx.valid = true)
include h hvalid

/-- MCTX, when valid, holds the inverse the product needs (R39). -/
theorem MctxOk.inverts : Inverts s.mctx := by
  obtain ⟨_, _, _, _, hinverse, _, hlt⟩ := h hvalid
  exact ⟨hinverse, hlt⟩

theorem MctxOk.m_lt_capacity : s.mctx.m < s.params.capacity := by
  obtain ⟨_, hm, _⟩ := h hvalid
  exact hm

/-- The modulus of MCTX is below its R, the radix power of the modulus's length (R39). -/
theorem MctxOk.m_lt_R (hp : s.params.Valid) : s.mctx.m < s.mctx.R := by
  obtain ⟨_, _, hk, hR, _⟩ := h hvalid
  rw [hR, hk]
  exact lt_pow_len s.params hp.W_pos _

end

/-- The Montgomery product stays below every bound of both the product and the modulus: the number R103 divides by R is
at most the product and R - 1 moduli. -/
theorem montmul_lt_of_lt {c : MontCtx} (h : Inverts c) {a b n : Nat} (hab : a * b < n) (hm : c.m < n) :
    montmul c a b < n := by
  have hR : 0 < c.R := h.one_lt_R.le
  have hq : a * b % c.R * (c.R - c.minv) % c.R + 1 ≤ c.R := Nat.mod_lt _ hR
  have hquot : (a * b + a * b % c.R * (c.R - c.minv) % c.R * c.m) / c.R < n := by
    rw [Nat.div_lt_iff_lt_mul hR]
    nlinarith
  rw [montmul]
  split <;> omega

/-! ### The checks -/

section
variable {s : State}

/-- Without a context MTOM, MMUL and MRED raise NO_MONT_CONTEXT, class 1 detail 8 (R105 to R107, R126). -/
theorem contextCheck_raised (hvalid : s.mctx.valid = false) (t : State) :
    Raised s (if s.mctx.valid = false then raise .noMontContext s else t) 1 8 := by
  rw [if_pos hvalid]
  exact raise_raised .noMontContext s

theorem contextCheck_of_valid (hvalid : s.mctx.valid = true) (t : State) :
    (if s.mctx.valid = false then raise .noMontContext s else t) = t :=
  if_neg (by simp [hvalid])

theorem contextCheck_wrote (hp : s.params.Valid) (hvalid : s.mctx.valid = true) (d : Reg) {v : Nat}
    (hv : v < s.params.capacity) :
    Wrote s (if s.mctx.valid = false then raise .noMontContext s else commitReg d v s) d v := by
  rw [contextCheck_of_valid hvalid]
  exact commitReg_wrote hp d hv

/-- For an even modulus MSETUP and MEXP raise EVEN_MODULUS, class 1 detail 2 (R104, R108, R126). -/
theorem modulusCheck_raised {m : Nat} (hm : m % 2 = 0) (t : State) :
    Raised s (if m % 2 = 0 then raise .evenModulus s else t) 1 2 := by
  rw [if_pos hm]
  exact raise_raised .evenModulus s

end

/-! ### The commands -/

/-- MSETUP on an odd register sets MCTX and ends (R104). -/
theorem exec_msetup_of_odd {s : State} {a : Reg} (hodd : s.reg a % 2 = 1) :
    exec (.msetup a) s = .next { s.ended with mctx := mctx s.params (s.reg a) } := by
  refine congrArg Host.Outcome.next (if_neg ?_)
  omega

/-- Settles O21: the context of an odd modulus holds its inverse, by `mctx_inverts`; the rest is how it is built. -/
theorem msetupBuildsTheContext : Obligations.MsetupBuildsTheContext := by
  intro s a
  refine ⟨fun hodd hp => ?_, fun heven => ⟨_, rfl, modulusCheck_raised heven _⟩⟩
  have hinv := mctx_inverts hp hodd
  exact ⟨_, exec_msetup_of_odd hodd, rfl, rfl, rfl, rfl, rfl, hinv.inverse, hinv.minv_pos, hinv.lt⟩

/-- Settles O22: the residue is below the modulus of the context, so it fits. -/
theorem mtomConvertsToMontgomeryForm : Obligations.MtomConvertsToMontgomeryForm := by
  intro s d a hr hctx
  refine ⟨fun hvalid => ⟨_, rfl, contextCheck_wrote hr.1 hvalid d ?_⟩, fun hno => ⟨_, rfl, contextCheck_raised hno _⟩⟩
  exact (Nat.mod_lt _ (hctx.inverts hvalid).m_pos).trans (hctx.m_lt_capacity hvalid)

/-- Settles O23: of reduced factors the product is below m, so it fits; of others the commit decides. -/
theorem mmulIsTheMontgomeryProduct : Obligations.MmulIsTheMontgomeryProduct := by
  intro s d a b hr hctx
  refine ⟨fun hvalid ha hb => ?_, fun hvalid hfits => ?_, fun hvalid hexceeds => ⟨_, rfl, ?_⟩,
    fun hno => ⟨_, rfl, contextCheck_raised hno _⟩⟩
  · have hinv := hctx.inverts hvalid
    have hlt : montmul s.mctx (s.reg a) (s.reg b) < s.mctx.m :=
      montmul_lt hinv (Nat.mul_lt_mul'' ha (hb.trans (hctx.m_lt_R hvalid hr.1)))
    exact ⟨_, _, rfl, contextCheck_wrote hr.1 hvalid d (hlt.trans (hctx.m_lt_capacity hvalid)), hlt,
      montmul_mul_R_modEq hinv _ _⟩
  · have hwrote := contextCheck_wrote hr.1 hvalid d hfits
    refine ⟨_, rfl, hwrote, ?_⟩
    obtain ⟨hreg, _⟩ := hwrote
    rw [hreg]
    exact montmul_mul_R_modEq (hctx.inverts hvalid) _ _
  · rw [contextCheck_of_valid hvalid]
    exact commitReg_raised d hexceeds

/-- Settles O24: the register and the modulus are below the capacity, and so is the product of the register with 1. -/
theorem mredConvertsOutAndAlwaysFits : Obligations.MredConvertsOutAndAlwaysFits := by
  intro s d a hr hctx
  refine ⟨fun hvalid => ?_, fun hno => ⟨_, rfl, contextCheck_raised hno _⟩⟩
  have hinv := hctx.inverts hvalid
  have hfits : montmul s.mctx (s.reg a) 1 < s.params.capacity :=
    montmul_lt_of_lt hinv (by simpa using hr.reg_lt a) (hctx.m_lt_capacity hvalid)
  have hmod := montmul_mul_R_modEq hinv (s.reg a) 1
  rw [Nat.mul_one] at hmod
  exact ⟨_, _, rfl, contextCheck_wrote hr.1 hvalid d hfits, rfl, fun ha => ⟨montmul_lt hinv (by simpa using ha), hmod⟩⟩

/-- Settles O25: the exponentiator is the power modulo m, by `oddExpMod_eq`, and below m, so it fits. -/
theorem mexpIsModularExponentiation : Obligations.MexpIsModularExponentiation := by
  intro s d a b c hr
  refine ⟨fun hodd => ⟨_, rfl, ?_⟩, fun heven => ⟨_, rfl, modulusCheck_raised heven _⟩⟩
  have hpos : 0 < s.reg c := by omega
  rw [if_neg (by omega), oddExpMod_eq hr.1 _ _ hodd]
  exact commitReg_wrote hr.1 d ((Nat.mod_lt _ hpos).trans (hr.reg_lt c))

end Sys2Proof.Machine
end

section
/-! The primality commands (R109 to R115): what decides each verdict of the sieve, of a Miller–Rabin round and of
is_prime. -/

namespace Sys2Proof.Machine

/-! ### The table and the sieve -/

/-- The table holds every prime below the least prime beyond it (R109). -/
theorem mem_table_of_prime_lt {p : Params} (hp : p.Valid) {q : Nat} (hq : q.Prime)
    (hlt : q < Nat.nth Nat.Prime p.NSIEVE) : q ∈ p.table := by
  rw [sieveTableIsTheFirstPrimes p hp]
  have hcount : Nat.count Nat.Prime q < p.NSIEVE := by
    rwa [← Nat.nth_count hq, (Nat.nth_strictMono Nat.infinite_setOfPred_prime).lt_iff_lt] at hlt
  exact List.mem_map.2 ⟨_, List.mem_range.2 hcount, Nat.nth_count hq⟩

/-- The least prime beyond the default table (R109). -/
theorem nth_prime_8192 : Nat.nth Nat.Prime 8192 = 84047 := by
  have h : primesBelow100000[8192]? = some 84047 := by decide +kernel
  rw [primesBelow100000_eq] at h
  simpa using h

theorem eq_of_dvd_of_mem_table {p : Params} (hp : p.Valid) {q n : Nat} (hq : q ∈ p.table) (hn : n ∈ p.table)
    (hdvd : q ∣ n) : q = n :=
  (Nat.prime_dvd_prime_iff_eq (prime_of_mem_table hp hq) (prime_of_mem_table hp hn)).1 hdvd

/-- The sieve rejects exactly the numbers with another table prime as divisor: a table prime itself has none (R109). -/
theorem sievePass_eq_reject_iff {p : Params} (hp : p.Valid) {n : Nat} :
    sievePass p n = .reject ↔ ∃ q ∈ p.table, q ∣ n ∧ q ≠ n := by
  refine ⟨exists_dvd_of_sieveOver_reject, fun ⟨q, hq, hdvd, hne⟩ => by_contra fun hs => ?_⟩
  obtain hmem | hno := sieveOver_of_not_reject n p.table hs
  · exact hne (eq_of_dvd_of_mem_table hp hq hmem hdvd)
  · exact hno q hq hdvd

/-- The sieve accepts exactly the table primes (R109). -/
theorem sievePass_eq_accept_iff {p : Params} (hp : p.Valid) {n : Nat} : sievePass p n = .accept ↔ n ∈ p.table := by
  constructor
  · intro h
    refine (sieveOver_of_not_reject n p.table (fun hs => by cases hs.symm.trans h)).resolve_right fun hno => ?_
    cases (sieveOver_undecided n p.table hno).symm.trans h
  · intro hmem
    cases hs : sievePass p n with
    | accept => rfl
    | reject =>
      obtain ⟨q, hq, hdvd, hne⟩ := (sievePass_eq_reject_iff hp).1 hs
      exact absurd (eq_of_dvd_of_mem_table hp hq hmem hdvd) hne
    | undecided => exact absurd hmem (not_mem_of_sieveOver_undecided hs)

/-! ### The Miller–Rabin round -/

/-- Of an odd multiple of a power of two, `tz` counts that power's exponent (R9). -/
theorem tzFuel_odd_mul_two_pow {e k fuel : Nat} (he : e % 2 = 1) (hk : k ≤ fuel) : tzFuel fuel (e * 2 ^ k) = k := by
  induction k generalizing fuel with
  | zero => cases fuel <;> simp [tzFuel, he]
  | succ k ih =>
    obtain ⟨fuel, rfl⟩ := Nat.exists_eq_add_one_of_ne_zero (Nat.ne_zero_of_lt hk)
    have hdouble : e * 2 ^ (k + 1) = e * 2 ^ k * 2 := by rw [pow_succ, Nat.mul_assoc]
    rw [hdouble, tzFuel, if_neg (by omega), Nat.mul_div_cancel _ (by decide), ih (by omega)]

theorem tz_odd_mul_two_pow {e k : Nat} (he : e % 2 = 1) : tz (e * 2 ^ k) = k := by
  have hpos : 0 < e := by omega
  refine tzFuel_odd_mul_two_pow he ((Nat.le_log2 (by positivity)).2 ?_)
  exact Nat.le_mul_of_pos_left _ hpos

/-- R110's loop finds n − 1 among the first `count` repeated squares of x. -/
theorem mrSquarings_eq_true_iff {n count x : Nat} :
    mrSquarings n count x = true ↔ ∃ j < count, x ^ 2 ^ (j + 1) % n = n - 1 := by
  induction count generalizing x with
  | zero => simp [mrSquarings]
  | succ count ih =>
    have hpow (j : Nat) : (x * x % n) ^ 2 ^ (j + 1) % n = x ^ 2 ^ (j + 1 + 1) % n := by
      rw [← Nat.pow_mod, ← sq, ← pow_mul, ← pow_succ']
    rw [mrSquarings, Nat.exists_lt_succ_left, Bool.if_true_left, Bool.or_eq_true, decide_eq_true_iff, ih]
    simp only [hpow, zero_add, pow_one, sq]

/-- For n − 1 = e·2^k with e odd, the round is the strong-prime test (R110). -/
theorem mrRound_eq_true_iff {p : Params} (hp : p.Valid) {n a e k : Nat} (hn : 3 ≤ n) (hodd : n % 2 = 1)
    (hsplit : n - 1 = e * 2 ^ k) (he : e % 2 = 1) :
    mrRound p n a = true ↔ a ^ e % n = 1 ∨ ∃ j, j < k ∧ a ^ (e * 2 ^ j) % n = n - 1 := by
  obtain ⟨k, rfl⟩ : ∃ m, k = m + 1 := by
    refine Nat.exists_eq_add_one_of_ne_zero fun hk => ?_
    rw [hk] at hsplit
    omega
  have hdiv : (n - 1) / 2 ^ (k + 1) = e := by rw [hsplit, Nat.mul_div_cancel _ (Nat.two_pow_pos _)]
  have hpow (j : Nat) : (a ^ e % n) ^ 2 ^ (j + 1) % n = a ^ (e * 2 ^ (j + 1)) % n := by
    rw [← Nat.pow_mod, ← pow_mul]
  have htz : tz (n - 1) = k + 1 := hsplit ▸ tz_odd_mul_two_pow he
  simp only [mrRound, htz, hdiv, oddExpMod_eq hp _ _ hodd, Nat.add_sub_cancel, Nat.exists_lt_succ_left, pow_zero,
    Nat.mul_one]
  by_cases hx : a ^ e % n = 1 ∨ a ^ e % n = n - 1
  · rw [if_pos hx]
    exact iff_of_true rfl (hx.imp_right .inl)
  · rw [if_neg hx, mrSquarings_eq_true_iff]
    obtain ⟨h1, hm⟩ := not_or.1 hx
    simp only [h1, hm, hpow, false_or]

theorem mrRound_eq_true_iff_strongPass {p : Params} (hp : p.Valid) {n a : Nat} (hn : 3 ≤ n) (hodd : n % 2 = 1) :
    mrRound p n a = true ↔ StrongPass n a := by
  constructor
  · obtain ⟨k, e, he, hsplit⟩ := Nat.exists_eq_two_pow_mul_odd (n := n - 1) (by omega)
    rw [Nat.mul_comm] at hsplit
    rw [Nat.odd_iff] at he
    exact fun h => ⟨e, k, hsplit, he, (mrRound_eq_true_iff hp hn hodd hsplit he).1 h⟩
  · rintro ⟨e, k, hsplit, he, h⟩
    exact (mrRound_eq_true_iff hp hn hodd hsplit he).2 h

/-! ### is_prime -/

/-- A number's bit length is its `msb` (R9). -/
theorem msb_eq_of_bounds {p : Params} (hW : 0 < p.W) {x b : Nat} (hlo : 2 ^ (b - 1) ≤ x) (hhi : x < 2 ^ b) :
    msb p x = b := by
  refine le_antisymm (msb_le hW hhi) (Nat.le_of_not_lt fun hlt => ?_)
  have hpow : 2 ^ msb p x ≤ 2 ^ (b - 1) := Nat.pow_le_pow_right (by decide) (by omega)
  exact (hpow.trans hlo).not_gt (lt_two_pow_msb hW x)

theorem isPrime_of_lt_two (p : Params) {n : Nat} (mode : Bool) (e : Env) (h : n < 2) :
    isPrime p n mode e = (false, e) := if_pos h

theorem isPrime_of_even (p : Params) {n : Nat} (mode : Bool) (e : Env) (h2 : 2 < n) (heven : n % 2 = 0) :
    isPrime p n mode e = (false, e) := by
  rw [isPrime, if_neg (by omega), if_neg (by omega), if_pos heven]

theorem isPrime_of_no_table_dvd {p : Params} {n : Nat} (mode : Bool) (e : Env) (h3 : 3 < n) (hodd : n % 2 = 1)
    (hno : ∀ q ∈ p.table, ¬ q ∣ n) : isPrime p n mode e = mrRounds p n mode (iterCount (msb p n)) e := by
  rw [isPrime, if_neg (by omega), if_neg (by omega), if_neg (by omega), sievePass, sieveOver_undecided n _ hno]

section
variable {p : Params} (hp : p.Valid) {n : Nat} (mode : Bool) (e : Env) (h3 : 3 < n) (hodd : n % 2 = 1)
include hp h3 hodd

theorem isPrime_of_mem_table (hmem : n ∈ p.table) : isPrime p n mode e = (true, e) := by
  rw [isPrime, if_neg (by omega), if_neg (by omega), if_neg (by omega), (sievePass_eq_accept_iff hp).2 hmem]

theorem isPrime_of_table_dvd {q : Nat} (hq : q ∈ p.table) (hdvd : q ∣ n) (hne : q ≠ n) :
    isPrime p n mode e = (false, e) := by
  rw [isPrime, if_neg (by omega), if_neg (by omega), if_neg (by omega),
    (sievePass_eq_reject_iff hp).2 ⟨q, hq, hdvd, hne⟩]

/-- The rounds accept exactly where every drawn witness passes the strong-prime test, and take the draws up to the first
that fails (R112, step 3). -/
theorem mrRounds_decided_by_strongPass (count : Nat) {hi : Nat} (hhi : hi = witnessMax n mode) :
    ((mrRounds p n mode count e).1 = true ↔ ∀ a ∈ (drawsInTurn 2 hi count e).1, StrongPass n a) ∧
    ((mrRounds p n mode count e).1 = true → (mrRounds p n mode count e).2 = (drawsInTurn 2 hi count e).2) ∧
    ((mrRounds p n mode count e).1 = false → ∃ k, k < count ∧ (∀ a ∈ (drawsInTurn 2 hi k e).1, StrongPass n a) ∧
      ¬ StrongPass n (draw 2 hi (drawsInTurn 2 hi k e).2).1 ∧
      (mrRounds p n mode count e).2 = (drawsInTurn 2 hi (k + 1) e).2) := by
  subst hhi
  have hround (a : Nat) : mrRound p n a = true ↔ StrongPass n a :=
    mrRound_eq_true_iff_strongPass hp (Nat.le_of_lt h3) hodd
  obtain ⟨hall, hr⟩ | ⟨k, hk, hall, hfail, hmem, hr⟩ := mrRounds_cases p n mode count e <;> rw [hr]
  · exact ⟨iff_of_true rfl fun a ha => (hround a).1 (hall a ha), fun _ => rfl, fun h => by cases h⟩
  · have hnot := mt (hround _).2 (ne_true_of_eq_false hfail)
    exact ⟨iff_of_false (by simp) fun h => hnot (h _ hmem), fun h => (by cases h),
      fun _ => ⟨k, hk, fun a ha => (hround a).1 (hall a ha), hnot, rfl⟩⟩

end

/-- The draws of is_prime leave of the free inputs all but answers and free values (R10). -/
theorem isPrime_env (p : Params) (n : Nat) (mode : Bool) (e : Env) :
    (isPrime p n mode e).2 =
      { e with entropy := (isPrime p n mode e).2.entropy, freeCount := (isPrime p n mode e).2.freeCount } := by
  rw [← isPrime_turns p n mode e]

/-- A number is_prime accepts is prime where the table holds every prime below a bound on its root (R112): the least
prime factor of a composite is at most its root, so in the table. -/
theorem prime_of_isPrime {p : Params} (hp : p.Valid) {n bound : Nat} {mode : Bool} {e : Env}
    (htable : ∀ q, q.Prime → q < bound → q ∈ p.table) (hn : n < bound * bound)
    (h : (isPrime p n mode e).1 = true) : n.Prime := by
  have h2 : 2 ≤ n := Nat.le_of_not_lt fun hlt => by simp [isPrime_of_lt_two p mode e hlt] at h
  have hmin : n.minFac.Prime := Nat.minFac_prime (by omega)
  by_contra hcomp
  have hroot : n.minFac < bound := by
    have hsq : n.minFac ^ 2 ≤ n := Nat.minFac_sq_le_self (by omega) hcomp
    exact Nat.mul_self_lt_mul_self_iff.1 ((sq n.minFac ▸ hsq).trans_lt hn)
  have heq : n.minFac = n := eq_of_mem_table_of_dvd_of_isPrime hp h (htable _ hmin hroot) n.minFac_dvd
  exact hcomp (heq ▸ hmin)

/-! ### The commands -/

/-- ISPRIME writes is_prime's verdict to P, takes its draws, and ends (R115). -/
theorem exec_isprime (a : Reg) (s : State) :
    exec (.isprime a) s = .next { s.ended with
      flags := s.flags.withP (isPrime s.params (s.reg a) s.engine.curWmode s.env).1
      env := { s.env with
        entropy := (isPrime s.params (s.reg a) s.engine.curWmode s.env).2.entropy
        freeCount := (isPrime s.params (s.reg a) s.engine.curWmode s.env).2.freeCount } } := by
  rw [← isPrime_env]
  exact congrArg Host.Outcome.next (commitFlags_eq _ _)

/-- Settles O27: P is 1 unless the sieve rejects, which `sievePass_eq_reject_iff` characterises. -/
theorem sieveFindsTablePrimeDivisors : Obligations.SieveFindsTablePrimeDivisors := by
  intro s a hp
  refine ⟨_, rfl, commitFlags_wroteFlags _ s, ?_⟩
  rw [commitFlags_eq]
  simp [Flags.withP, sievePass_eq_reject_iff hp]

/-- Settles O28: `mrRound_eq_true_iff` on the domain, and the check's error outside it. -/
theorem mrroundIsTheStrongPrimeTest : Obligations.MrroundIsTheStrongPrimeTest := by
  intro s a b hr
  refine ⟨fun e k hn hodd hsplit he => ⟨_, rfl, ?_⟩, fun hout => ⟨_, rfl, ?_⟩⟩
  · rw [if_neg (by omega)]
    refine ⟨commitFlags_wroteFlags _ s, ?_⟩
    rw [commitFlags_eq]
    exact mrRound_eq_true_iff hr.1 hn hodd hsplit he
  · rw [if_pos hout]
    exact raise_raised .mrDomain s

/-- Settles O29: by `isPrime_of_prime` no prime is rejected; an odd number above 3 is decided by the table, or by the
rounds, whose round is the strong-prime test. -/
theorem isprimeAcceptsPrimesAndRunsTheWitnessRounds : Obligations.IsprimeAcceptsPrimesAndRunsTheWitnessRounds := by
  constructor
  · intro s a hr
    refine ⟨_, exec_isprime a s, rfl, Prod.ext rfl (isPrime_env ..).symm, ?_, ?_, ?_⟩
    · exact fun hn => isPrime_of_prime hr.1 hn _ _
    · exact fun hlt => congrArg Prod.fst (isPrime_of_lt_two _ _ _ hlt)
    · exact fun h2 heven => congrArg Prod.fst (isPrime_of_even _ _ _ h2 heven)
  · intro p n mode e hp h3 hodd
    refine ⟨isPrime_of_mem_table hp mode e h3 hodd, fun q => isPrime_of_table_dvd hp mode e h3 hodd, ?_⟩
    intro b iter hi hno hlo hb hiter hhi
    rw [isPrime_of_no_table_dvd mode e h3 hodd hno, msb_eq_of_bounds hp.W_pos hlo hb, iterCount, ← hiter]
    exact mrRounds_decided_by_strongPass hp mode e h3 hodd iter hhi

/-- Settles O30: with `isPrime_of_prime`, `prime_of_isPrime` makes the verdict exact; the default table's bound is the
least prime beyond it. -/
theorem isprimeIsExactBelowTheTableSquare : Obligations.IsprimeIsExactBelowTheTableSquare := by
  intro s a hr
  have hexact (bound : Nat) (htable : ∀ q, q.Prime → q < bound → q ∈ s.params.table)
      (hlt : s.reg a < bound * bound) : ∃ t, exec (.isprime a) s = .next t ∧ (t.flags.p = true ↔ (s.reg a).Prime) :=
    ⟨_, exec_isprime a s, prime_of_isPrime hr.1 htable hlt, fun hn => isPrime_of_prime hr.1 hn _ _⟩
  refine ⟨fun hdefault hlt => hexact 84047 (fun q hq hqlt => ?_) hlt, hexact⟩
  exact mem_table_of_prime_lt hr.1 hq (by rwa [hdefault, nth_prime_8192])

end Sys2Proof.Machine
end

section
/-! The prime search (R116 to R123): PSEARCH's start step, the steps of its workers, its finish step, and a schedule on
which the search ends. -/

namespace Sys2Proof.Machine

/-! ### The start step -/

/-- The state PSEARCH's start step leaves (R117): every worker is released, with nothing found. -/
def State.released (s : State) : State :=
  { s with
    engine := { s.engine with phase := .search }
    search := { s.search with
      found := false, cancel := false, workers := s.search.workers.map (fun w => { w with phase := .init }) } }

theorem exec_psearch_of_legal {s : State} {imm : Imm14} (d : Reg) (hz : imm ≠ 0) (hm : imm.toNat ≤ s.params.HMAX) :
    exec (.psearch d imm) s = .next s.released := by
  have hpos : imm.toNat ≠ 0 := fun h => hz (BitVec.eq_of_toNat_eq h)
  exact congrArg Host.Outcome.next (if_neg (not_or.2 ⟨hpos, Nat.not_lt.2 hm⟩))

theorem exec_psearch_of_illegal {s : State} {imm : Imm14} (d : Reg) (h : imm = 0 ∨ s.params.HMAX < imm.toNat) :
    exec (.psearch d imm) s = .next (raise .searchWidth s) :=
  congrArg Host.Outcome.next (if_pos (h.imp_left (congrArg BitVec.toNat)))

/-- Settles O31: a legal digit count releases the workers, any other raises SEARCH_WIDTH. -/
theorem psearchStartReleasesTheWorkers : Obligations.PsearchStartReleasesTheWorkers := by
  refine fun s d imm => ⟨fun hz hm => ?_, fun h => ?_⟩
  · exact ⟨_, exec_psearch_of_legal d hz hm, rfl, List.length_map _, fun v => mem_map_phase⟩
  · exact ⟨_, exec_psearch_of_illegal d h, raise_raised .searchWidth s⟩

/-! ### The steps of a worker -/

section
variable {s : State} {w : Nat} {v : Worker} (hw : s.search.workers[w]? = some v)
include hw

theorem workerStep_of_init (hv : v.phase = .init) : workerStep w s = workerInit w s := by
  simp only [workerStep, hw, hv]

theorem workerStep_of_head (hv : v.phase = .head) : workerStep w s = workerHead w v s := by
  simp only [workerStep, hw, hv]

/-- A test that accepts its candidate publishes it, unless one is published already, and the worker exits (R120). -/
theorem workerStep_of_accept (hv : v.phase = .test)
    (hp : (isPrime s.params v.cand s.engine.curWmode s.env).1 = true) :
    workerStep w s = { s with
      env := (isPrime s.params v.cand s.engine.curWmode s.env).2
      search :=
        { found := true
          value := if s.search.found = true then s.search.value else v.cand
          cancel := true
          workers := s.search.workers.set w ⟨.exited, v.cand⟩ } } := by
  simp only [workerStep, hw, hv, workerTest, testCandidate, hp]
  rfl

/-- A test that rejects its candidate goes on with the next odd number (R120). -/
theorem workerStep_of_reject (hv : v.phase = .test)
    (hp : (isPrime s.params v.cand s.engine.curWmode s.env).1 = false) :
    workerStep w s = { s with
      env := (isPrime s.params v.cand s.engine.curWmode s.env).2
      search := { s.search with workers := s.search.workers.set w ⟨.head, v.cand + 2⟩ } } := by
  simp only [workerStep, hw, hv, workerTest, testCandidate, hp]
  rfl

end

/-- Setting bit 0 of a start (R118). -/
theorem set_bit_zero (n : Nat) : n + (1 - bit n 0) = if n % 2 = 1 then n else n + 1 := by
  rw [bit, pow_zero, Nat.div_one]
  split <;> omega

/-- Settles O32: INIT's start is a draw, whose range is O43; HEAD is one update of its worker. -/
theorem workerInitAndHeadSteps : Obligations.WorkerInitAndHeadSteps := by
  refine fun s w v hw => ⟨fun hv hh => ⟨?_, fun start hlo hhi => ?_⟩, workerStep_of_head hw⟩
  · obtain ⟨hlo, hhi, _⟩ := drawsRangeOverTheirWholeSet _ _ s.env (start_le_end hh)
    refine ⟨_, hlo, hhi, ?_⟩
    rw [← set_bit_zero, workerStep_of_init hw hv]
    rfl
  · obtain ⟨_, _, _, hall⟩ := drawsRangeOverTheirWholeSet _ _ s.env (start_le_end hh)
    obtain ⟨a, ha⟩ := hall start hlo hhi
    have hlt : w < s.search.workers.length := (List.getElem?_eq_some_iff.1 hw).1
    refine ⟨a, ?_⟩
    rw [workerStep_of_init (s := s.answering a) hw hv, ← set_bit_zero, ← ha]
    exact List.getElem?_set_self hlt

/-- WERRCNT's step up to its greatest value (R121). -/
theorem saturating_succ (c : Word) : (if c = BitVec.allOnes 32 then c else c + 1) =
    BitVec.ofNat 32 (min (c.toNat + 1) (2 ^ 32 - 1)) := by
  have hc : c.toNat < 2 ^ 32 := c.isLt
  by_cases hmax : c = BitVec.allOnes 32
  · rw [if_pos hmax, hmax]
    rfl
  · have hle : c.toNat + 1 ≤ 2 ^ 32 - 1 := by
      have hne := mt BitVec.eq_of_toNat_eq hmax
      rw [BitVec.toNat_allOnes] at hne
      omega
    rw [if_neg hmax, Nat.min_eq_left hle, BitVec.ofNat_add, BitVec.ofNat_toNat, BitVec.setWidth_eq]
    rfl

/-- Settles O33: the verdict decides between the two effects of a test; the error's counter saturates. -/
theorem workerTestPublishesLogsOrMovesOn : Obligations.WorkerTestPublishesLogsOrMovesOn := by
  refine fun s w v => ⟨fun hw hv => ?_, ?_⟩
  · cases hp : (isPrime s.params v.cand s.engine.curWmode s.env).1 with
    | true => exact .inl ⟨rfl, workerStep_of_accept hw hv hp⟩
    | false => exact .inr ⟨rfl, workerStep_of_reject hw hv hp⟩
  · rw [← saturating_succ]
    rfl

/-! ### The published value -/

theorem workerStep_keeps_published {s : State} (h : s.search.found = true) (w : Nat) :
    (workerStep w s).search.found = true ∧ (workerStep w s).search.value = s.search.value := by
  obtain hs | ⟨v, hw, ⟨_, hs⟩ | ⟨_, hs⟩ | ⟨hv, _⟩⟩ := workerStep_cases w s
  · rw [hs]
    exact ⟨h, rfl⟩
  · rw [hs]
    exact ⟨h, rfl⟩
  · rw [hs]
    exact ⟨h, rfl⟩
  · cases hp : (isPrime s.params v.cand s.engine.curWmode s.env).1 with
    | true =>
      rw [workerStep_of_accept hw hv hp]
      exact ⟨rfl, if_pos h⟩
    | false =>
      rw [workerStep_of_reject hw hv hp]
      exact ⟨h, rfl⟩

/-- A host write while BUSY resets the block or leaves the search alone (R29, R51, R143). -/
theorem Written.search_of_busy {s t : State} (hb : s.busy = true) (h : Written s t) :
    t.engine.phase = .idle ∨ t.search = s.search := by
  cases h with
  | accepted c hidle => rw [hb] at hidle; cases hidle
  | reset => exact .inl rfl
  | status v =>
    rw [writeStatus_eq]
    exact .inr rfl
  | ignored | rejected | control | errorCount | scalar | window => exact .inr rfl

theorem hostStep_search_of_busy {s t : State} (hb : s.busy = true) (h : hostStep s = .next t) :
    t.engine.phase = .idle ∨ t.search = s.search := by
  obtain ⟨_, rfl⟩ | ⟨op, rest, _, ⟨l, rfl⟩ | ⟨l, v, rfl⟩ | rfl⟩ := hostStep_cases h
  · exact .inr rfl
  · obtain ⟨e, he⟩ := readLocation_env l (s.withPending rest)
    rw [reply, he]
    exact .inr rfl
  · exact (writeLocation_written l v (s.withPending rest)).search_of_busy (s := s.withPending rest) hb
  · exact .inl rfl

theorem agentStep_keeps_published {a : Agent} {s t : State} (hphase : s.engine.phase = .search)
    (hstarted : s.searchUnstarted = false) (hfound : s.search.found = true) (h : agentStep a s = .next t)
    (ht : t.engine.phase = .search) : t.search.found = true ∧ t.search.value = s.search.value := by
  cases a with
  | host =>
    obtain hidle | hsame := hostStep_search_of_busy (busy_of_not_idle (by rw [hphase]; decide)) h
    · rw [hidle] at ht
      cases ht
    · rw [hsame]
      exact ⟨hfound, rfl⟩
  | engine =>
    obtain rfl | ⟨hexec | ⟨_, hu⟩, _⟩ | ⟨_, _, _, rfl⟩ := engineStep_cases h
    · exact ⟨hfound, rfl⟩
    · rw [hphase] at hexec
      cases hexec
    · rw [hstarted] at hu
      cases hu
    · rw [finishSearch, (commit_ends _ _ _).2] at ht
      cases ht
  | worker w =>
    cases h
    exact workerStep_keeps_published hfound w

/-- Settles O34: no agent's step of the search changes the value, and neither do the free inputs. -/
theorem publishedValueIsWrittenOnce : Obligations.PublishedValueIsWrittenOnce := by
  intro s t hphase hstarted hfound h ht
  obtain ⟨a, e, _, hstep⟩ | ⟨e, _, hstep⟩ := step_cases s
  · exact agentStep_keeps_published (s := { s with env := e }) hphase hstarted hfound (hstep ▸ h) ht
  · rw [hstep] at h
    cases h
    exact ⟨hfound, rfl⟩

/-! ### The range of a candidate -/

/-- A candidate lies above the least start, being odd, and below twice its own start, by Bertrand's postulate (R123). -/
theorem Candidate.bounds {h c : Nat} (hh : 1 ≤ h) (hc : Candidate h c) :
    2 ^ (4 * h - 1) < c ∧ c < 2 ^ (4 * h + 1) := by
  obtain ⟨hodd, start, hlo, hhi, hle, hnone⟩ := hc
  have hlow : 2 ^ (4 * h - 1) = 8 * 16 ^ (h - 1) := by
    rw [show 4 * h - 1 = 3 + 4 * (h - 1) by omega, pow_add, pow_mul]
    rfl
  have hhigh : 2 ^ (4 * h + 1) = 2 * 16 ^ h := by rw [pow_succ', pow_mul]; rfl
  have hpos : 0 < 16 ^ (h - 1) := Nat.pow_pos (by decide)
  have hpos' : 0 < 16 ^ h := Nat.pow_pos (by decide)
  obtain ⟨p, hp, hlt, htwo⟩ := Nat.exists_prime_lt_and_le_two_mul start (by omega)
  have hcp : c ≤ p := Nat.le_of_not_lt fun hpc => hnone p hlt.le hpc hp
  omega

/-- The digit count of a search that has started is legal (R117). -/
theorem SearchOk.digits {s : State} (h : SearchOk s) (hphase : s.engine.phase = .search)
    (hstarted : s.searchUnstarted = false) : 1 ≤ s.searchDigits ∧ s.searchDigits ≤ s.params.HMAX := by
  obtain ⟨⟨d, imm, hd, hz, hm⟩, _⟩ := h.started hphase hstarted
  rw [State.searchDigits, immValue, (psearch_fields hd).2]
  exact ⟨Nat.pos_of_ne_zero fun e => hz (BitVec.eq_of_toNat_eq e), hm⟩

/-- A legal digit count leaves room for every candidate (R123 Capacity). -/
theorem two_pow_le_capacity {p : Params} {h : Nat} (hh : 1 ≤ h) (hm : h ≤ p.HMAX) :
    2 ^ (4 * h + 1) ≤ p.capacity := by
  rw [p.capacity_eq]
  refine Nat.pow_le_pow_right (by decide) ?_
  rw [Params.HMAX, Nat.mul_comm] at hm
  omega

/-! ### The finish step -/

/-- Where every worker has exited a value is published: there is a worker, and none exits before (R122). -/
theorem SearchOk.found_of_ended {s : State} (h : SearchOk s) (hphase : s.engine.phase = .search)
    (hstarted : s.searchUnstarted = false) (hended : s.searchEnded = true) : s.search.found = true := by
  obtain ⟨_, _, hexited, _⟩ := h.started hphase hstarted
  obtain ⟨v, hv, _⟩ := List.all_eq_false.1 hstarted
  exact hexited v hv (of_decide_eq_true (List.all_eq_true.1 hended v hv))

theorem engineStep_of_ended {s : State} (hphase : s.engine.phase = .search) (hstarted : s.searchUnstarted = false)
    (hended : s.searchEnded = true) : engineStep s = .next (finishSearch s) := by
  simp [engineStep, hphase, hstarted, hended]

theorem engine_enabled_of_ended {s : State} (hphase : s.engine.phase = .search) (hended : s.searchEnded = true) :
    .engine ∈ enabledAgents s := by
  rw [engine_mem_enabledAgents, engineEnabled, hphase]
  exact (congrArg _ hended).trans (Bool.or_true _)

theorem finishSearch_of_fits {s : State} (h : s.search.value < s.params.capacity) :
    finishSearch s = complete { s.idleWorkers.setReg (dField s.engine.curCmd) s.search.value with
      flags := s.flags.withP true } :=
  commit_of_fits _ (by simpa using h)

/-- A number is_prime accepts is prime below the default table's square (R112). -/
theorem prime_of_isPrime_default {p : Params} (hp : p.Valid) (hdefault : p.NSIEVE = 8192) {n : Nat} {mode : Bool}
    {e : Env} (hn : n < 7063898209) (h : (isPrime p n mode e).1 = true) : n.Prime :=
  prime_of_isPrime hp (bound := 84047) (fun _ hq hlt => mem_table_of_prime_lt hp hq (by rwa [hdefault, nth_prime_8192]))
    hn h

/-- A number is_prime accepts is prime below 2^17, whatever the table: its root is below 363 (R112). -/
theorem prime_of_isPrime_small {p : Params} (hp : p.Valid) {n : Nat} {mode : Bool} {e : Env} (hn : n < 2 ^ 17)
    (h : (isPrime p n mode e).1 = true) : n.Prime :=
  prime_of_isPrime hp (bound := 363) (fun _ hq hlt => mem_table_of_prime_le hp hq (by rw [Config.WHI]; omega))
    (by omega) h

/-- Settles O35: the published value is a candidate, so it fits and is committed; is_prime accepted it. -/
theorem psearchFinishCommitsAValueInRange : Obligations.PsearchFinishCommitsAValueInRange := by
  intro s hinv hphase hstarted hended
  have hvalid : s.params.Valid := hinv.regs.1
  obtain ⟨hone, hmax⟩ := hinv.search.digits hphase hstarted
  obtain ⟨_, _, _, _, hpub⟩ := hinv.search.started hphase hstarted
  obtain ⟨hcand, ⟨e, haccept⟩, htable⟩ := hpub (hinv.search.found_of_ended hphase hstarted hended)
  obtain ⟨hlow, hhigh⟩ := hcand.bounds hone
  have hfits : s.search.value < s.params.capacity := hhigh.trans_le (two_pow_le_capacity hone hmax)
  have hreg : (finishSearch s).reg (dField s.engine.curCmd) = s.search.value := by
    rw [finishSearch_of_fits hfits]
    exact reg_setReg_self (s := s.idleWorkers) hvalid _ hfits
  refine ⟨_, engineStep_of_ended hphase hstarted hended, hreg, ?_⟩
  rw [hreg, finishSearch_of_fits hfits]
  refine ⟨written_setReg_self s.idleWorkers _ s.search.value, rfl, fun r hr => ?_, fun v => mem_map_phase, rfl, hlow,
    hhigh, ⟨e, haccept⟩, htable, fun hdefault hlt => prime_of_isPrime_default hvalid hdefault hlt haccept,
    fun hfour => ?_⟩
  · exact ⟨x_setReg_of_ne s.search.value hr, written_setReg_of_ne s.search.value hr⟩
  · refine prime_of_isPrime_small hvalid (hhigh.trans_le ?_) haccept
    exact Nat.pow_le_pow_right (by decide) (by omega)

/-! ### The steps of a search do not depend on the turns still to come -/

/-- The state with `l` as the turns still to come (log entry 4). -/
abbrev State.withTurns (s : State) (l : List Agent) : State := { s with env := { s.env with turns := l } }

/-- A turn named for an agent that may step is that agent's. -/
theorem step_withTurns {s : State} {a : Agent} (rest : List Agent) (ha : a ∈ enabledAgents s) :
    step (s.withTurns (a :: rest)) = agentStep a (s.withTurns rest) :=
  step_of_turn (s := s.withTurns (a :: rest)) rfl ha

theorem draw_withTurns (lo hi : Nat) (e : Env) (l : List Agent) :
    draw lo hi { e with turns := l } = ((draw lo hi e).1, { (draw lo hi e).2 with turns := l }) := by
  unfold draw
  cases e.entropy <;> rfl

theorem mrRounds_withTurns (p : Params) (n : Nat) (mode : Bool) (count : Nat) (e : Env) (l : List Agent) :
    mrRounds p n mode count { e with turns := l } =
      ((mrRounds p n mode count e).1, { (mrRounds p n mode count e).2 with turns := l }) := by
  induction count generalizing e with
  | zero => rfl
  | succ count ih =>
    simp only [mrRounds, draw_withTurns, ih]
    split <;> rfl

theorem isPrime_withTurns (p : Params) (n : Nat) (mode : Bool) (e : Env) (l : List Agent) :
    isPrime p n mode { e with turns := l } = ((isPrime p n mode e).1, { (isPrime p n mode e).2 with turns := l }) := by
  simp only [isPrime, mrRounds_withTurns]
  split
  · rfl
  split
  · rfl
  split
  · rfl
  split <;> rfl

theorem workerStep_withTurns (w : Nat) (s : State) (l : List Agent) :
    workerStep w (s.withTurns l) = (workerStep w s).withTurns l := by
  cases hw : s.search.workers[w]? with
  | none => simp only [workerStep, hw]
  | some v =>
    cases hv : v.phase with
    | idle | exited => simp only [workerStep, hw, hv]
    | init =>
      rw [workerStep_of_init hw hv, workerStep_of_init (s := s.withTurns l) hw hv]
      simp only [workerInit, draw_withTurns]
      rfl
    | head =>
      rw [workerStep_of_head hw hv, workerStep_of_head (s := s.withTurns l) hw hv]
      rfl
    | test =>
      have htest := isPrime_withTurns s.params v.cand s.engine.curWmode s.env l
      cases hp : (isPrime s.params v.cand s.engine.curWmode s.env).1 with
      | true =>
        rw [workerStep_of_accept hw hv hp, workerStep_of_accept (s := s.withTurns l) hw hv (by rw [htest, hp]), htest]
      | false =>
        rw [workerStep_of_reject hw hv hp, workerStep_of_reject (s := s.withTurns l) hw hv (by rw [htest, hp]), htest]

/-! ### Runs of the workers -/

/-- `t` follows from `s` by the step of a worker that may step (R20). -/
def WorkerMoves (s t : State) : Prop := ∃ w, .worker w ∈ enabledAgents s ∧ t = workerStep w s

/-- The steps of workers change the search state and the free inputs alone. -/
theorem workersMove_frame {s t : State} (h : Relation.ReflTransGen WorkerMoves s t) :
    t = { s with env := t.env, search := t.search } := by
  induction h with
  | refl => rfl
  | tail _ hmove ih =>
    obtain ⟨w, _, rfl⟩ := hmove
    rw [workerStep_frame, ih]

/-- Steps of workers are a run of the machine: the turns name them one after the other. -/
theorem exists_turns_of_workersMove {s t : State} (h : Relation.ReflTransGen WorkerMoves s t) (rest : List Agent) :
    ∃ turns, run (turns ++ rest).length (s.withTurns (turns ++ rest)) = run rest.length (t.withTurns rest) := by
  induction h using Relation.ReflTransGen.head_induction_on with
  | refl => exact ⟨[], rfl⟩
  | @head u _ hmove _ ih =>
    obtain ⟨w, hw, rfl⟩ := hmove
    obtain ⟨turns, hrun⟩ := ih
    have hstep := (step_withTurns (turns ++ rest) hw).trans (congrArg Host.Outcome.next (workerStep_withTurns w u _))
    exact ⟨.worker w :: turns, (run_succ_of_step _ hstep).trans hrun⟩

/-! ### The workers' walks end -/

/-- A bound on the steps a worker of an h-digit search has still to make: its candidate stays below 2^(4h+1) (R123). -/
def Worker.stepsLeft (h : Nat) (v : Worker) : Nat :=
  match v.phase with
  | .init => 2 * 2 ^ (4 * h + 1) + 3
  | .head => 2 * (2 ^ (4 * h + 1) - v.cand) + 2
  | .test => 2 * (2 ^ (4 * h + 1) - v.cand) + 1
  | .idle => 0
  | .exited => 0

/-- The bound for all workers together. -/
def State.stepsLeft (s : State) : Nat := (s.search.workers.map (Worker.stepsLeft s.searchDigits)).sum

theorem sum_map_set_lt {α : Type} (f : α → Nat) {l : List α} {i : Nat} {a b : α} (hi : l[i]? = some a)
    (h : f b < f a) : ((l.set i b).map f).sum < (l.map f).sum := by
  induction l generalizing i with
  | nil => cases hi
  | cons c l ih =>
    cases i with
    | zero =>
      obtain rfl : c = a := by simpa using hi
      simpa using h
    | succ i => simpa using ih (by simpa using hi)

/-- A step brings its worker nearer to its exit, and into no IDLE phase (R118 to R120). -/
theorem exists_worker_of_step {s : State} (h : SearchOk s) {w : Nat} {v : Worker} (hw : s.search.workers[w]? = some v)
    (hv : v.phase = .init ∨ v.phase = .head ∨ v.phase = .test) :
    ∃ new, (workerStep w s).search.workers = s.search.workers.set w new ∧ new.phase ≠ .idle ∧
      new.stepsLeft s.searchDigits < v.stepsLeft s.searchDigits := by
  obtain hv | hv | hv := hv
  · rw [workerStep_of_init hw hv]
    refine ⟨_, rfl, by simp, ?_⟩
    simp only [Worker.stepsLeft, hv]
    omega
  · rw [workerStep_of_head hw hv]
    refine ⟨_, rfl, ?_, ?_⟩
    · cases s.search.cancel <;> simp
    · cases s.search.cancel <;> simp [Worker.stepsLeft, hv]
  · obtain ⟨hphase, hstarted⟩ := h.started_of_worker hw (by rw [hv]; decide)
    obtain ⟨_, _, _, hcands, _⟩ := h.started hphase hstarted
    obtain ⟨_, hlt⟩ := (hcands v (List.mem_of_getElem? hw) (.inr hv)).bounds (h.digits hphase hstarted).1
    cases hp : (isPrime s.params v.cand s.engine.curWmode s.env).1 with
    | true =>
      rw [workerStep_of_accept hw hv hp]
      exact ⟨_, rfl, by simp, by simp [Worker.stepsLeft, hv]⟩
    | false =>
      rw [workerStep_of_reject hw hv hp]
      refine ⟨_, rfl, by simp, ?_⟩
      simp only [Worker.stepsLeft, hv]
      omega

/-- A search is under way: it has started and its finish step is still to come, in a state that meets the invariant
(R117, R122). -/
structure UnderWay (s : State) : Prop where
  inv : Inv s
  phase : s.engine.phase = .search
  started : s.searchUnstarted = false

/-- A step of a worker keeps a search under way, with fewer steps left. -/
theorem UnderWay.workerMoves {s t : State} (h : UnderWay s) (hmove : WorkerMoves s t) :
    UnderWay t ∧ t.stepsLeft < s.stepsLeft := by
  obtain ⟨w, hw, rfl⟩ := hmove
  obtain ⟨v, hv, hactive⟩ := (workerEnabled_iff s w).1 ((worker_mem_enabledAgents s w).1 hw).2
  obtain ⟨new, hworkers, hidle, hless⟩ := exists_worker_of_step h.inv.search hv hactive
  have hinv : Inv (workerStep w s) := h.inv.agentStep (a := .worker w) rfl
  have hnew : (workerStep w s).search.workers[w]? = some new := by
    rw [hworkers]
    exact List.getElem?_set_self (List.getElem?_eq_some_iff.1 hv).1
  obtain ⟨hphase, hstarted⟩ := hinv.search.started_of_worker hnew hidle
  refine ⟨⟨hinv, hphase, hstarted⟩, ?_⟩
  have hdigits : (workerStep w s).searchDigits = s.searchDigits := by rw [workerStep_frame]; rfl
  rw [State.stepsLeft, hdigits, hworkers]
  exact sum_map_set_lt _ hv hless

/-- A worker that has not exited may step (R20). -/
theorem UnderWay.exists_workerMoves {s : State} (h : UnderWay s) (hended : s.searchEnded = false) :
    ∃ t, WorkerMoves s t := by
  obtain ⟨_, hidle, _⟩ := h.inv.search.started h.phase h.started
  obtain ⟨v, hv, hexited⟩ := List.all_eq_false.1 hended
  obtain ⟨w, hw⟩ := List.mem_iff_getElem?.1 hv
  have hactive : v.phase = .init ∨ v.phase = .head ∨ v.phase = .test := by
    have hne : v.phase ≠ .exited := by simpa using hexited
    cases hp : v.phase with
    | init | head | test => simp
    | idle => exact absurd hp (hidle v hv)
    | exited => exact absurd hp hne
  exact ⟨_, w, (worker_mem_enabledAgents s w).2 ⟨h.phase, (workerEnabled_iff s w).2 ⟨v, hw, hactive⟩⟩, rfl⟩

/-- Some steps of the workers lead a search under way to the state in which every worker has exited (R123). -/
theorem UnderWay.exists_ended {s : State} (h : UnderWay s) :
    ∃ t, Relation.ReflTransGen WorkerMoves s t ∧ UnderWay t ∧ t.searchEnded = true := by
  induction hn : s.stepsLeft using Nat.strong_induction_on generalizing s with
  | _ n ih =>
    cases hended : s.searchEnded with
    | true => exact ⟨s, .refl, h, hended⟩
    | false =>
      obtain ⟨u, hu⟩ := h.exists_workerMoves hended
      obtain ⟨hway, hless⟩ := h.workerMoves hu
      obtain ⟨t, hmoves, ht⟩ := ih u.stepsLeft (hn ▸ hless) hway rfl
      exact ⟨t, .head hu hmoves, ht⟩

/-! ### The whole search -/

/-- The start step of a legal PSEARCH brings its search under way: a block has a worker (R6, R117). -/
theorem underWay_released {s : State} (h : Inv s) (hphase : s.engine.phase = .search) (hu : s.searchUnstarted = true)
    {d : Reg} {imm : Imm14} (hd : decode s.engine.curCmd = .ok (.psearch d imm)) (hz : imm ≠ 0)
    (hm : imm.toNat ≤ s.params.HMAX) : UnderWay s.released := by
  have hstep : engineStep s = .next s.released :=
    (engineStep_of_pending (.inr ⟨hphase, hu⟩) hd).trans (exec_psearch_of_legal d hz hm)
  refine ⟨h.agentStep (a := .engine) hstep, rfl, ?_⟩
  obtain ⟨⟨_, _, _, ⟨hwork, _⟩, _⟩, _, _, hlen⟩ := h.regs
  obtain ⟨v, hv⟩ := List.exists_mem_of_length_pos (l := s.released.search.workers) (by
    rw [State.released, List.length_map]
    omega)
  exact List.all_eq_false.2 ⟨v, hv, by simp [mem_map_phase hv]⟩

theorem dField_encode_psearch (d : Reg) (imm : Imm14) : dField (encode (.psearch d imm)) = d := by
  have himm := imm.isLt
  rw [encode, dField_assemble (by decide) d.isLt (by decide) (by decide) (by omega)]
  simp

/-- Some list of turns runs a search under way to its finish step: workers, until every one has exited, and then the
engine. -/
theorem UnderWay.exists_turns {s : State} (h : UnderWay s) : ∃ turns u, UnderWay u ∧ u.searchEnded = true ∧
    u = { s with env := u.env, search := u.search } ∧
    ∀ t, engineStep u = .next t → run turns.length (s.withTurns turns) = .next t := by
  obtain ⟨u, hmoves, hway, hended⟩ := h.exists_ended
  obtain ⟨turns, hrun⟩ := exists_turns_of_workersMove hmoves [.engine]
  have hstep : step (u.withTurns [.engine]) = engineStep (u.withTurns []) :=
    step_withTurns [] (engine_enabled_of_ended hway.phase hended)
  refine ⟨turns ++ [.engine], u.withTurns [], ⟨hway.inv.env _, hway.phase, hway.started⟩, hended, ?_, fun t ht => ?_⟩
  · rw [workersMove_frame hmoves]
  · exact hrun.trans (run_succ_of_step 0 (hstep.trans ht))

/-- Settles O36: the turns of `UnderWay.exists_turns` end with the finish step, and what that leaves is O35. -/
theorem psearchCanAlwaysComplete : Obligations.PsearchCanAlwaysComplete := by
  intro s d imm hinv hphase hu hcmd hz hm
  have hd : decode s.engine.curCmd = .ok (.psearch d imm) := hcmd ▸ decode_encode rfl
  obtain ⟨turns, u, hway, hended, hframe, hrun⟩ := (underWay_released hinv hphase hu hd hz hm).exists_turns
  have hx : u.x = s.x := by rw [hframe]; rfl
  have hcur : u.engine.curCmd = s.engine.curCmd := by rw [hframe]; rfl
  have hdigits : u.searchDigits = imm.toNat := by rw [State.searchDigits, hcur, (psearch_fields hd).2, immValue]
  obtain rfl : dField u.engine.curCmd = d := by rw [hcur, hcmd, dField_encode_psearch]
  obtain ⟨t, hstep, hreg, hwritten, hflags, hother, _, ht, hlow, hhigh, _⟩ :=
    psearchFinishCommitsAValueInRange u hway.inv hway.phase hway.started hended
  have hvalue : t.search.value = u.search.value := by rw [ht]
  have hfound : t.search.found = u.search.found := by rw [ht]
  have herr : t.status.err = u.status.err := by rw [ht]; rfl
  refine ⟨_, exec_psearch_of_legal _ hz hm, turns, t, hrun t hstep, by rw [ht]; rfl, by rw [ht]; rfl, ?_,
    by rw [hflags], ?_, hreg.trans hvalue.symm, hwritten, ?_, ?_, fun r hr => (hother r hr).1.trans (by rw [hx])⟩
  · obtain ⟨_, _, hbusy⟩ := hway.inv.error
    exact herr.trans (hbusy (busy_of_not_idle (by rw [hway.phase]; decide))).2
  · exact hfound.trans (hway.inv.search.found_of_ended hway.phase hway.started hended)
  · rwa [hreg, ← hdigits]
  · rwa [hreg, ← hdigits]

end Sys2Proof.Machine
end

section
/-! Errors and the interrupt line (R125, R127, R129, R131, R132). -/

namespace Sys2Proof.Machine

/-! ### Errors -/

theorem ends_of_exec {i : Instr} {s t : State} (h : exec i s = .next t) : Ends i s t := by
  obtain ⟨u, hu, hends⟩ := exec_ends i s
  obtain rfl : u = t := by simpa [hu] using h
  exact hends

/-- A command raises an error or leaves ERR as it was (R127). -/
theorem Ends.raises_or_keeps_err {i : Instr} {s t : State} (h : Ends i s t) :
    (∃ e, t = raise e s) ∨ t.status.err = s.status.err := by
  cases h with
  | raised e => exact .inl ⟨e, rfl⟩
  | committed ws fl =>
    rw [setRegs_eq]
    exact .inr rfl
  | context | verdict | started => exact .inr rfl

/-- Settles O39: a command that leaves ERR as it was has not set it, so it raised. -/
theorem errorsArePrecise : Obligations.ErrorsArePrecise := by
  intro i s t h hs ht
  obtain ⟨e, rfl⟩ | hkept := (ends_of_exec h).raises_or_keeps_err
  · exact ⟨_, _, raise_raised e s⟩
  · rw [hkept, hs] at ht
    cases ht

/-- `t` still shows the error of the idle block `s`, or has it cleared as a whole; no command has started (R127, R129). -/
def HoldsFirstError (s t : State) : Prop :=
  t.engine.phase = .idle ∧
    ((t.status.err = true ∧ t.error = s.error) ∨ (t.status.err = false ∧ t.error = ErrorRegs.cleared))

section
variable {s t : State} (hidle : s.engine.phase = .idle)
include hidle

theorem eq_host_of_idle {a : Agent} (ha : a ∈ enabledAgents s) : a = .host := by
  cases a with
  | host => rfl
  | engine => simp [engine_mem_enabledAgents, engineEnabled, hidle] at ha
  | worker w => simp [worker_mem_enabledAgents, hidle] at ha

variable (herr : s.status.err = true)
include herr

/-- A host write starts no command while ERR is set, and clears ERR with the whole record or not at all (R29, R30). -/
theorem Written.holdsFirstError (h : Written s t) : HoldsFirstError s t := by
  cases h with
  | ignored | rejected | control | errorCount | scalar | window => exact ⟨hidle, .inl ⟨herr, rfl⟩⟩
  | accepted c _ hclear =>
    rw [herr] at hclear
    cases hclear
  | status v =>
    rw [writeStatus_eq]
    cases v.getLsbD 2 with
    | false => exact ⟨hidle, .inl ⟨herr, rfl⟩⟩
    | true => exact ⟨hidle, .inr ⟨rfl, rfl⟩⟩
  | reset => exact ⟨rfl, .inr ⟨rfl, rfl⟩⟩

theorem hostStep_holdsFirstError (h : hostStep s = .next t) : HoldsFirstError s t := by
  obtain ⟨_, rfl⟩ | ⟨op, rest, _, ⟨l, rfl⟩ | ⟨l, v, rfl⟩ | rfl⟩ := hostStep_cases h
  · exact ⟨hidle, .inl ⟨herr, rfl⟩⟩
  · obtain ⟨e, he⟩ := readLocation_env l (s.withPending rest)
    rw [reply, he]
    exact ⟨hidle, .inl ⟨herr, rfl⟩⟩
  · exact (writeLocation_written l v (s.withPending rest)).holdsFirstError (s := s.withPending rest) hidle herr
  · exact ⟨rfl, .inr ⟨rfl, rfl⟩⟩

end

/-- Settles O41: in an idle block the host alone may step, and what its accesses do is `hostStep_holdsFirstError`. -/
theorem firstErrorIsKeptUntilCleared : Obligations.FirstErrorIsKeptUntilCleared := by
  intro s t hidle herr h
  obtain ⟨a, e, ha, hstep⟩ | ⟨e, _, hstep⟩ := step_cases s
  · obtain rfl := eq_host_of_idle hidle ha
    exact hostStep_holdsFirstError (s := { s with env := e }) hidle herr (hstep.symm.trans h)
  · rw [hstep] at h
    cases h
    exact ⟨hidle, .inl ⟨herr, rfl⟩⟩

/-! ### The interrupt line -/

/-- With DONE set the line follows IE_DONE, and ERR under IE_ERR (R131). -/
theorem irq_of_done {s t : State} (hdone : t.status.done = true) (hctrl : t.ctrl = s.ctrl) :
    irq t = (s.ctrl.ieDone || (t.status.err && s.ctrl.ieErr)) := by
  rw [irq, hdone, hctrl, Bool.true_and]

/-- A command that leaves the engine IDLE has set DONE and written no bit of CTRL (R41). -/
theorem Ends.done_of_idle {i : Instr} {s t : State} (h : Ends i s t) (ht : t.engine.phase = .idle) :
    t.status.done = true ∧ t.ctrl = s.ctrl := by
  obtain ⟨_, _, hctrl, _⟩ := h.frame
  refine ⟨?_, hctrl⟩
  cases h with
  | raised | committed | context | verdict => rfl
  | started => cases ht

/-- The engine step that ends a command sets DONE and writes no bit of CTRL (R41, R122, R127). -/
theorem EngineDoes.done_of_idle {s t : State} (h : EngineDoes s t) (hs : s.engine.phase ≠ .idle)
    (ht : t.engine.phase = .idle) : t.status.done = true ∧ t.ctrl = s.ctrl := by
  cases h with
  | waits => exact absurd ht hs
  | raised => exact ⟨rfl, rfl⟩
  | executed i _ _ hends => exact hends.done_of_idle ht
  | finished => obtain ⟨_, _, hf⟩ | hf := finishSearch_cases s <;> rw [hf] <;> exact ⟨rfl, rfl⟩

/-- An engine step that ends a command drives the line (R131, R132). -/
theorem irq_of_engineStep {s t : State} (hs : s.engine.phase ≠ .idle) (h : engineStep s = .next t)
    (ht : t.engine.phase = .idle) : irq t = (s.ctrl.ieDone || (t.status.err && s.ctrl.ieErr)) := by
  obtain ⟨hdone, hctrl⟩ := (engineStep_does h).done_of_idle hs ht
  exact irq_of_done hdone hctrl

/-- Clearing DONE and ERR releases the line (R131). -/
theorem irq_writeStatus_of_clear {v : Word} (hdone : v.getLsbD 1 = true) (herr : v.getLsbD 2 = true) (s : State) :
    irq (writeStatus v s) = false := by
  rw [writeStatus_eq, irq, hdone, herr]
  rfl

/-- Settles O42: every end of a command sets DONE and keeps CTRL, so `irq_of_done` gives the line. -/
theorem completionDrivesTheInterruptLine : Obligations.CompletionDrivesTheInterruptLine := by
  refine ⟨fun i s t hi h => ?_, fun s d imm himm => ?_, fun s hphase hstarted hended => ?_,
    fun _ _ => irq_of_engineStep, fun s _ hdone herr => irq_writeStatus_of_clear hdone herr s⟩
  · obtain ⟨u, hu, hcomplete⟩ := everyCommandAnswersAndAllButPsearchComplete i s
    obtain rfl : u = t := by simpa [hu] using h
    obtain ⟨hdone, hctrl⟩ := (ends_of_exec h).done_of_idle (hcomplete hi).2
    exact irq_of_done hdone hctrl
  · exact ⟨_, exec_psearch_of_illegal d himm, irq_of_done rfl rfl⟩
  · have hstep := engineStep_of_ended hphase hstarted hended
    exact ⟨_, hstep, irq_of_engineStep (by rw [hphase]; decide) hstep (commit_ends _ _ _).2⟩

end Sys2Proof.Machine
end

section
/-! CTRL and the two resets (R34, R141 to R144). -/

namespace Sys2Proof.Machine

/-! ### What a reset leaves -/

theorem length_resetSearch_workers (p : Params) (n : Nat) : (resetSearch p n).workers.length = p.NWORK := by
  simp [resetSearch]

theorem idle_of_mem_resetSearch (p : Params) (n : Nat) : ∀ w ∈ (resetSearch p n).workers, w.phase = .idle := by
  simp [resetSearch]

theorem regsOk_resetWith {p : Params} (hp : p.Valid) (n : Nat) : RegsOk (State.resetWith p n) :=
  ⟨hp, length_resetOperands p n, p.B_pos, length_resetSearch_workers p _⟩

theorem inv_resetWith {p : Params} (hp : p.Valid) (n : Nat) : Inv (State.resetWith p n) where
  regs := regsOk_resetWith hp n
  error := ⟨fun _ => rfl, fun h => (by cases h), fun h => (by cases h)⟩
  flags := flagsOk_of_cleared rfl
  mctx := mctxOk_of_invalid rfl
  search := searchOk_of_reset rfl rfl

/-- Settles O57: a reset meets the invariant whatever the parameters, the reference ones among them. -/
theorem resetStateMeetsTheInvariant : Obligations.ResetStateMeetsTheInvariant := inv_resetWith (by decide) 0

/-- No operand register is written after a hardware reset (R142). -/
theorem written_resetWith (p : Params) (n : Nat) (r : Reg) : (State.resetWith p n).written[r] = false := by
  fin_cases r <;> rfl

theorem hostStep_rst {s : State} {rest : List HostOp} (h : s.host.pending = .rst :: rest) :
    hostStep s = .next (hardReset (s.withPending rest)) := by
  unfold hostStep
  rw [h]

/-- Settles O48: the step is `hardReset`, whose block is that of `State.resetWith`. -/
theorem hardwareResetState : Obligations.HardwareResetState := by
  intro s rest hpending hp
  have hwritten := written_resetWith s.params s.env.freeCount
  exact ⟨_, hostStep_rst hpending, regsOk_resetWith hp _, rfl, hwritten, rfl, rfl, rfl, rfl, rfl, rfl, rfl, rfl, rfl, rfl,
    idle_of_mem_resetSearch s.params _, rfl, rfl⟩

/-! ### CTRL -/

/-- CTRL reads its stored bits at 0, 1 and 3 (R34). -/
theorem getLsbD_ctrlWord : ∀ (ieDone ieErr wmode : Bool) (i : Fin 32), (ctrlWord ⟨ieDone, ieErr, wmode⟩).getLsbD i =
    (ieDone && decide (i.val = 0) || ieErr && decide (i.val = 1) || wmode && decide (i.val = 3)) := by
  decide

/-- The bits of a written word that CTRL stores are those under its mask (R34). -/
theorem ctrlWord_of_bits (v : Word) : ctrlWord ⟨v.getLsbD 0, v.getLsbD 1, v.getLsbD 3⟩ = v &&& 0x0000000B := by
  have hmask : ∀ i : Fin 32, (0x0000000B : Word).getLsbD i = decide (i.val = 0 ∨ i.val = 1 ∨ i.val = 3) := by decide
  refine BitVec.eq_of_getLsbD_eq fun i hi => ?_
  rw [BitVec.getLsbD_and, getLsbD_ctrlWord _ _ _ ⟨i, hi⟩, hmask ⟨i, hi⟩]
  by_cases h : i = 0 ∨ i = 1 ∨ i = 3
  · obtain rfl | rfl | rfl := h <;> simp
  · obtain ⟨h0, h1, h3⟩ : i ≠ 0 ∧ i ≠ 1 ∧ i ≠ 3 := by simpa using h
    simp [h0, h1, h3]

theorem writeCtrl_of_reset {v : Word} (h : v.getLsbD 2 = true) (s : State) : writeCtrl v s = softReset s := if_pos h

theorem writeCtrl_of_no_reset {v : Word} (h : v.getLsbD 2 = false) (s : State) : writeCtrl v s =
    { s with ctrl := { ieDone := v.getLsbD 0, ieErr := v.getLsbD 1, wmode := v.getLsbD 3 } } := by
  rw [writeCtrl, h]
  rfl

/-- Settles O47: SRST decides between `softReset` and a write of the three stored bits. -/
theorem controlWriteAndSoftReset : Obligations.ControlWriteAndSoftReset := by
  refine fun s v => ⟨fun h => ?_, fun h => ?_⟩
  · have hw : hostWrites s 0x020 v = _ := writeCtrl_of_no_reset h s
    rw [hw]
    exact ⟨rfl, ctrlWord_of_bits v⟩
  · exact ⟨_, writeCtrl_of_reset h s, rfl, rfl, rfl, rfl, rfl, rfl, rfl, rfl, rfl, rfl, rfl, rfl, rfl, rfl, rfl, rfl,
      length_resetSearch_workers _ _, idle_of_mem_resetSearch _ _, rfl⟩

end Sys2Proof.Machine
end
